-- ==== Sys2Proof/Word.lean ====
section
/-! DEFINITION. The word types of the block: a byte on the wire (R32), the host command word (R61) and the
signed operand of SHOW_NUMBER (R63). -/
namespace Sys2Proof

/-- A byte on the wire, an unsigned integer in 0..255 (00_scope.md, section 6). -/
abbrev Byte := BitVec 8

/-- The host command word `cmd[55:0]`, HOST_WORD_BITS = 56 bits (R5, R61). -/
abbrev HostWord := BitVec 56

/-- The operand field of SHOW_NUMBER, `data[31:0]` (R61, R63). How many of its bits the operand has is the parameter
NUM_WIDTH. -/
abbrev Number := BitVec 32

end Sys2Proof
end

