-- ==== Sys2Proof/Config.lean ====
section
/-! DEFINITION. The construction-time constants of R5: data chosen once, before reset, that no step changes. -/
namespace Sys2Proof

/-- BIT_ORDER (R5, R32). `msbFirst` is the spec's own extension (D13); this hardware is `lsbFirst`. -/
inductive BitOrder where
  | lsbFirst
  | msbFirst
deriving DecidableEq, Repr

/-- The bits 6 to 0 of an entry of SEG_LUT, one for each LED segment of a digit. Bit 7, the decimal point, is 0 in every
entry (R60 "GET_SEGMENTS never sets bit 7", R100 "bit 7 (decimal point) is 0 in every result"). -/
abbrev DigitShape := BitVec 7

/-- The six entries of SEG_LUT that no source gives (R100, D14: OPEN). Entries 1 to 4 are fixed and stand in
`Sys2Proof.Machine.segLut`. -/
structure OpenSegments where
  d0 : DigitShape
  d5 : DigitShape
  d6 : DigitShape
  d7 : DigitShape
  d8 : DigitShape
  d9 : DigitShape
deriving DecidableEq, Repr

/-- R100: "`0x00` is also never the pattern of a digit 0..9". -/
abbrev OpenSegments.Wf (g : OpenSegments) : Prop := g.d0 ≠ 0 ∧ g.d5 ≠ 0 ∧ g.d6 ≠ 0 ∧ g.d7 ≠ 0 ∧ g.d8 ≠ 0 ∧ g.d9 ≠ 0

/-- The parameters of R5 a model takes as fields of its configuration (log entry 1). -/
structure Config where
  /-- Q_US, the quantum in microseconds, a positive integer (D18). -/
  qUs : Nat
  /-- BIT_ORDER. -/
  bitOrder : BitOrder
  /-- NUM_WIDTH, the width in bits of SHOW_NUMBER's signed operand (D11, U16; log entry 2). -/
  numWidth : Nat
  /-- SEG_LUT, the entries left open (log entry 3). -/
  openSegments : OpenSegments
  /-- TRANSPORT_OPS_ENABLE: the host may issue DELAY, START, STOP, WRITE_BYTE, WRITE (D16). -/
  transportOpsEnable : Bool
  /-- PIN_RESET_LEVEL, the level of CLK and DIO at reset (D6). -/
  pinResetLevel : Bool
deriving DecidableEq, Repr

/-- The values R5 gives for this hardware. -/
def Config.hardware : Config where
  qUs := 5
  bitOrder := .lsbFirst
  numWidth := 32
  openSegments := { d0 := 0x3F, d5 := 0x6D, d6 := 0x7D, d7 := 0x07, d8 := 0x7F, d9 := 0x6F }
  transportOpsEnable := false
  pinResetLevel := true

/-- N_DIGITS, not configurable (R5). -/
abbrev Config.nDigits : Nat := 4

/-- HOST_WORD_BITS, a constant (R5). -/
def Config.hostWordBits : Nat := 56

/-- What R5 asks of a parameter's value: Q_US is positive, and fits the 32 bits of `tmr_dur_o` (R27, R120); an operand
has a bit; no digit's pattern is blank. -/
abbrev Config.Wf (c : Config) : Prop :=
  0 < c.qUs ∧ c.qUs < 2 ^ 32 ∧ 0 < c.numWidth ∧ c.openSegments.Wf

end Sys2Proof
end

