-- ==== Sys2Proof/Syntax.lean ====
section
/-! DEFINITION. The instructions: one constructor per row of the opcode table. Fifteen host operations (R62, R63;
WRITE has one row per length, R77) and six wire bytes that the display takes (R57 to R60). -/
namespace Sys2Proof

/-- One row of the opcode table each. Operands are what R63 and R57 to R60 assemble from the word. -/
inductive Instr where
  /-- DELAY, one quantum (R73). -/
  | delay
  /-- START, the start condition (R74). -/
  | start
  /-- STOP, the stop condition (R75). -/
  | stop
  /-- WRITE_BYTE b (R76). -/
  | writeByte (b : Byte)
  /-- WRITE b0, `len = 1` (R77). -/
  | write1 (b0 : Byte)
  /-- WRITE b0, b1, `len = 2` (R77). -/
  | write2 (b0 b1 : Byte)
  /-- WRITE b0, b1, b2, `len = 3` (R77). -/
  | write3 (b0 b1 b2 : Byte)
  /-- WRITE b0, b1, b2, b3, `len = 4` (R77). -/
  | write4 (b0 b1 b2 b3 : Byte)
  /-- WRITE b0, b1, b2, b3, b4, `len = 5` (R77). -/
  | write5 (b0 b1 b2 b3 b4 : Byte)
  /-- ENC_BRIGHTNESS level (R90). -/
  | encBrightness (level : Byte)
  /-- SET_BRIGHTNESS level (R91). -/
  | setBrightness (level : Byte)
  /-- SHOW_SEGMENT segment, pos (R92). -/
  | showSegment (segment pos : Byte)
  /-- SHOW_DIGITS s0, s1, s2, s3 (R93). -/
  | showDigits (s0 s1 s2 s3 : Byte)
  /-- GET_SEGMENTS digit (R100). -/
  | getSegments (digit : Byte)
  /-- SHOW_NUMBER n (R102). -/
  | showNumber (n : Number)
  /-- Wire byte 0x40 in command position: auto-increment addressing (R57). -/
  | datacmdAuto
  /-- Wire byte 0x44 in command position: fixed addressing (R57). -/
  | datacmdFixed
  /-- Wire byte 0xC0 + a in command position: the address command (R58). -/
  | addrcmd (a : BitVec 2)
  /-- Wire byte 0x80 in command position: display off (R59). -/
  | dispctrlOff
  /-- Wire byte 0x88 | f in command position: display on with brightness field f (R59). -/
  | dispctrlOn (f : BitVec 3)
  /-- Any wire byte in payload position: a segment pattern (R60). -/
  | segpat (pattern : Byte)
deriving DecidableEq, Repr

end Sys2Proof
end

