-- ==== Sys2Proof/Decode.lean ====
section
/-! DEFINITION. Decoding (R56 to R63), total on every word and byte and rejecting by name; after it the encoder,
and the textual form of an operation (R66). -/
namespace Sys2Proof

/-- What is presented for decoding. The host word stands on the host port (R61). A wire byte's meaning is
positional: "first byte of a transaction is always a command, subsequent bytes are command-specific payload" (R56). -/
inductive Code where
  | host (w : HostWord)
  | wireCommand (b : Byte)
  | wirePayload (b : Byte)
deriving DecidableEq, Repr

/-- Why a code stands for no instruction. -/
inductive Reject where
  /-- `op` is none of the eleven codes of R62. -/
  | unknownOp (op : Byte)
  /-- `aux` must be 0 for this operation (R63). -/
  | auxNotZero (aux : Byte)
  /-- A data byte the operation does not use must be 0 (R63). -/
  | dataNotZero
  /-- WRITE with `len` outside 1..5 (R63, D17). -/
  | badLength (len : Byte)
  /-- A command-position byte the source never describes (R64, U11). -/
  | reservedCommand (b : Byte)
deriving DecidableEq, Repr

/-- What decoding answers. -/
inductive Decoded where
  | ok (i : Instr)
  | error (r : Reject)
deriving DecidableEq, Repr

/-- The fields of format HOST56 (R61). -/
structure HostFields where
  op : Byte
  aux : Byte
  b4 : Byte
  b3 : Byte
  b2 : Byte
  b1 : Byte
  b0 : Byte
deriving DecidableEq, Repr

/-- R61: bits 55:48 `op`, 47:40 `aux`, 39:32 `B4`, 31:24 `B3`, 23:16 `B2`, 15:8 `B1`, 7:0 `B0`. -/
def splitHost (w : HostWord) : HostFields where
  op := w.extractLsb' 48 8
  aux := w.extractLsb' 40 8
  b4 := w.extractLsb' 32 8
  b3 := w.extractLsb' 24 8
  b2 := w.extractLsb' 16 8
  b1 := w.extractLsb' 8 8
  b0 := w.extractLsb' 0 8

/-- R63: the row "none" (`aux = 0`, `data = 0`). -/
def decodeBare (f : HostFields) (i : Instr) : Decoded :=
  if f.aux ≠ 0 then .error (.auxNotZero f.aux)
  else if f.b4 ≠ 0 ∨ f.b3 ≠ 0 ∨ f.b2 ≠ 0 ∨ f.b1 ≠ 0 ∨ f.b0 ≠ 0 then .error .dataNotZero
  else .ok i

/-- R63: the rows with one operand byte `B0` (`aux = 0`, `B1..B4 = 0`). -/
def decodeByte (f : HostFields) (i : Byte → Instr) : Decoded :=
  if f.aux ≠ 0 then .error (.auxNotZero f.aux)
  else if f.b4 ≠ 0 ∨ f.b3 ≠ 0 ∨ f.b2 ≠ 0 ∨ f.b1 ≠ 0 then .error .dataNotZero
  else .ok (i f.b0)

/-- R63, WRITE: `len = aux`, `1 <= len <= 5`, and `Bj = 0` for every `j >= len`. -/
def decodeWrite (f : HostFields) : Decoded :=
  if f.aux = 1 then
    if f.b4 ≠ 0 ∨ f.b3 ≠ 0 ∨ f.b2 ≠ 0 ∨ f.b1 ≠ 0 then .error .dataNotZero else .ok (.write1 f.b0)
  else if f.aux = 2 then
    if f.b4 ≠ 0 ∨ f.b3 ≠ 0 ∨ f.b2 ≠ 0 then .error .dataNotZero else .ok (.write2 f.b0 f.b1)
  else if f.aux = 3 then
    if f.b4 ≠ 0 ∨ f.b3 ≠ 0 then .error .dataNotZero else .ok (.write3 f.b0 f.b1 f.b2)
  else if f.aux = 4 then
    if f.b4 ≠ 0 then .error .dataNotZero else .ok (.write4 f.b0 f.b1 f.b2 f.b3)
  else if f.aux = 5 then .ok (.write5 f.b0 f.b1 f.b2 f.b3 f.b4)
  else .error (.badLength f.aux)

/-- R63, SHOW_SEGMENT: `segment = B0`, `pos = aux`, `B1..B4 = 0`. -/
def decodeShowSegment (f : HostFields) : Decoded :=
  if f.b4 ≠ 0 ∨ f.b3 ≠ 0 ∨ f.b2 ≠ 0 ∨ f.b1 ≠ 0 then .error .dataNotZero
  else .ok (.showSegment f.b0 f.aux)

/-- R63, the rows with `aux = 0`, `B4 = 0` (SHOW_DIGITS, SHOW_NUMBER). -/
def decodeQuad (f : HostFields) (i : Byte → Byte → Byte → Byte → Instr) : Decoded :=
  if f.aux ≠ 0 then .error (.auxNotZero f.aux)
  else if f.b4 ≠ 0 then .error .dataNotZero
  else .ok (i f.b0 f.b1 f.b2 f.b3)

/-- `data[31:0] = B3 ‖ B2 ‖ B1 ‖ B0` (R61, R63). -/
def numberOfBytes (b0 b1 b2 b3 : Byte) : Number := b3 ++ b2 ++ b1 ++ b0

/-- The operation codes of R62. Whether a transport code is legal from the host (R64) is not decided here: the
parameter "changes which codes are legal, not how a word is split into fields" (R65). -/
def decodeFields (f : HostFields) : Decoded :=
  if f.op = 0x01 then decodeBare f .delay
  else if f.op = 0x02 then decodeBare f .start
  else if f.op = 0x03 then decodeBare f .stop
  else if f.op = 0x04 then decodeByte f .writeByte
  else if f.op = 0x05 then decodeWrite f
  else if f.op = 0x10 then decodeByte f .encBrightness
  else if f.op = 0x11 then decodeByte f .setBrightness
  else if f.op = 0x12 then decodeShowSegment f
  else if f.op = 0x13 then decodeQuad f .showDigits
  else if f.op = 0x20 then decodeByte f .getSegments
  else if f.op = 0x21 then decodeQuad f fun b0 b1 b2 b3 => .showNumber (numberOfBytes b0 b1 b2 b3)
  else .error (.unknownOp f.op)

/-- R57 to R59: the command bytes `0x40`, `0x44`, `1100 00aa`, `0x80`, `1000 1fff`; every other value in command
position is reserved (R64). -/
def decodeCommandByte (b : Byte) : Decoded :=
  if b = 0x40 then .ok .datacmdAuto
  else if b = 0x44 then .ok .datacmdFixed
  else if b.extractLsb' 2 6 = 0b110000#6 then .ok (.addrcmd (b.extractLsb' 0 2))
  else if b = 0x80 then .ok .dispctrlOff
  else if b.extractLsb' 3 5 = 0b10001#5 then .ok (.dispctrlOn (b.extractLsb' 0 3))
  else .error (.reservedCommand b)

/-- The decoder. -/
def decode : Code → Decoded
  | .host w => decodeFields (splitHost w)
  | .wireCommand b => decodeCommandByte b
  | .wirePayload b => .ok (.segpat b)

/-- The wire bytes of R57: pattern `0100 0m00`, `m = 1` for fixed addressing. -/
def dataCommandByte (fixed : Bool) : Byte := if fixed then 0x44 else 0x40

/-- The address byte of R58, `1100 00aa`. -/
def addressByte (a : BitVec 2) : Byte := (0b110000#6 ++ a : BitVec 8)

/-- The display-control byte of R59 with `s = 1`, `1000 1fff`. -/
def displayOnByte (f : BitVec 3) : Byte := (0b10001#5 ++ f : BitVec 8)

/-- R61: `op ‖ aux ‖ B4 ‖ B3 ‖ B2 ‖ B1 ‖ B0`. -/
def joinHost (f : HostFields) : HostWord := f.op ++ f.aux ++ f.b4 ++ f.b3 ++ f.b2 ++ f.b1 ++ f.b0

/-- The word with the fields of R61 in the order the spec spells it, `op aux B4 B3 B2 B1 B0`. -/
def hostCode (op aux b4 b3 b2 b1 b0 : Byte) : Code := .host (joinHost ⟨op, aux, b4, b3, b2, b1, b0⟩)

/-- The encoder, from R62, R63 and R57 to R60. -/
def encode : Instr → Code
  | .delay => hostCode 0x01 0 0 0 0 0 0
  | .start => hostCode 0x02 0 0 0 0 0 0
  | .stop => hostCode 0x03 0 0 0 0 0 0
  | .writeByte b => hostCode 0x04 0 0 0 0 0 b
  | .write1 b0 => hostCode 0x05 1 0 0 0 0 b0
  | .write2 b0 b1 => hostCode 0x05 2 0 0 0 b1 b0
  | .write3 b0 b1 b2 => hostCode 0x05 3 0 0 b2 b1 b0
  | .write4 b0 b1 b2 b3 => hostCode 0x05 4 0 b3 b2 b1 b0
  | .write5 b0 b1 b2 b3 b4 => hostCode 0x05 5 b4 b3 b2 b1 b0
  | .encBrightness level => hostCode 0x10 0 0 0 0 0 level
  | .setBrightness level => hostCode 0x11 0 0 0 0 0 level
  | .showSegment segment pos => hostCode 0x12 pos 0 0 0 0 segment
  | .showDigits s0 s1 s2 s3 => hostCode 0x13 0 0 s3 s2 s1 s0
  | .getSegments digit => hostCode 0x20 0 0 0 0 0 digit
  | .showNumber n =>
    hostCode 0x21 0 0 (n.extractLsb' 24 8) (n.extractLsb' 16 8) (n.extractLsb' 8 8) (n.extractLsb' 0 8)
  | .datacmdAuto => .wireCommand (dataCommandByte false)
  | .datacmdFixed => .wireCommand (dataCommandByte true)
  | .addrcmd a => .wireCommand (addressByte a)
  | .dispctrlOff => .wireCommand 0x80
  | .dispctrlOn f => .wireCommand (displayOnByte f)
  | .segpat p => .wirePayload p

/-- The byte's reading when nothing else says its position: a command if it is one, else a payload (log entry 14). -/
def wireCodeOf (b : Byte) : Code :=
  match decodeCommandByte b with
  | .ok _ => .wireCommand b
  | .error _ => .wirePayload b

/-- The code that `nbits` bits numbered as the opcode table numbers them stand for: 8 bits are a wire byte, up to
56 bits a host word whose missing upper bits are 0 (R65: one length). -/
def tableCode (nbits w : Nat) : Code :=
  if nbits = 8 then wireCodeOf (BitVec.ofNat 8 w) else .host (BitVec.ofNat 56 w)

/-- The instruction the decoder reads from a table row's bits. -/
def decodeTableWord (nbits w : Nat) : Option Instr :=
  match decode (tableCode nbits w) with
  | .ok i => some i
  | .error _ => none

/-- The mnemonic of R62, or of the opcode table's wire rows. -/
def Instr.mnemonic : Instr → String
  | .delay => "DELAY"
  | .start => "START"
  | .stop => "STOP"
  | .writeByte _ => "WRITE_BYTE"
  | .write1 _ | .write2 _ _ | .write3 _ _ _ | .write4 _ _ _ _ | .write5 _ _ _ _ _ => "WRITE"
  | .encBrightness _ => "ENC_BRIGHTNESS"
  | .setBrightness _ => "SET_BRIGHTNESS"
  | .showSegment _ _ => "SHOW_SEGMENT"
  | .showDigits _ _ _ _ => "SHOW_DIGITS"
  | .getSegments _ => "GET_SEGMENTS"
  | .showNumber _ => "SHOW_NUMBER"
  | .datacmdAuto => "DATACMD_AUTO"
  | .datacmdFixed => "DATACMD_FIXED"
  | .addrcmd _ => "ADDRCMD"
  | .dispctrlOff => "DISPCTRL_OFF"
  | .dispctrlOn _ => "DISPCTRL_ON"
  | .segpat _ => "SEGPAT"

/-- The operands in the order of R66, as integers. SHOW_NUMBER's is the 32-bit field as a signed integer, as R63 has it for
NUM_WIDTH = 32; the text of an instruction carries no configuration, and that it shows the field's 32 bits for every
other NUM_WIDTH too is a DESIGN CHOICE (log entry 2). -/
def Instr.operands : Instr → List Int
  | .delay | .start | .stop | .datacmdAuto | .datacmdFixed | .dispctrlOff => []
  | .writeByte b | .write1 b | .encBrightness b | .setBrightness b | .getSegments b | .segpat b => [b.toNat]
  | .write2 b0 b1 => [b0.toNat, b1.toNat]
  | .write3 b0 b1 b2 => [b0.toNat, b1.toNat, b2.toNat]
  | .write4 b0 b1 b2 b3 => [b0.toNat, b1.toNat, b2.toNat, b3.toNat]
  | .write5 b0 b1 b2 b3 b4 => [b0.toNat, b1.toNat, b2.toNat, b3.toNat, b4.toNat]
  | .showSegment segment pos => [segment.toNat, pos.toNat]
  | .showDigits s0 s1 s2 s3 => [s0.toNat, s1.toNat, s2.toNat, s3.toNat]
  | .showNumber n => [n.toInt]
  | .addrcmd a => [a.toNat]
  | .dispctrlOn f => [f.toNat]

/-- R66: the mnemonic followed by the operands separated by commas, numbers in decimal, negative ones with a
leading `-`. -/
def Instr.text (i : Instr) : String :=
  match i.operands with
  | [] => i.mnemonic
  | v :: vs => vs.foldl (fun t x => t ++ ", " ++ toString x) (i.mnemonic ++ " " ++ toString v)

end Sys2Proof
end

