-- ==== Sys2Proof/Machine/Flags.lean ====
section
/-! DEFINITION. The block has no flags, condition codes or predicates (R12). What stands in their place are three
tests of an operation's own operand, "decided from the operation's own operand at the time it runs". -/
namespace Sys2Proof.Machine

/-- "level 0 versus non-zero in ENC_BRIGHTNESS" (R12, R90). -/
def levelIsOff (level : Nat) : Bool := level == 0

/-- "`pos > 3` in SHOW_SEGMENT" (R12, R92); the comparison is unsigned (R94). -/
def posOutOfRange (pos : Byte) : Bool := decide (3 < pos.toNat)

/-- "digit outside 0..9 in GET_SEGMENTS" (R12, R100). -/
def digitOutOfRange (digit : Int) : Bool := decide (digit < 0) || decide (9 < digit)

end Sys2Proof.Machine
end

