-- ==== Sys2Proof/Machine/Operands.lean ====
section
/-! DEFINITION. The values the command and presentation layers compute from operands (R90, R94, R100, R101, R104),
and the segment layout (R60). -/
namespace Sys2Proof.Machine

/-- `clamp(v, lo, hi)` (00_scope.md, section 6). -/
def clamp (v lo hi : Nat) : Nat := if v < lo then lo else if hi < v then hi else v

/-- The display-control byte `ctrl(level)` of R90. -/
def ctrl (level : Nat) : Byte :=
  if levelIsOff level then 0x80 else (0x88 : Byte) ||| BitVec.ofNat 8 (clamp level 1 8 - 1)

/-- `0xC0 + pos` (R92); computed only for `pos <= 3`, where it cannot leave `0xC0..0xC3` (R94). -/
def addressOfPos (pos : Byte) : Byte := 0xC0 + pos

/-- The pattern of a digit's shape: bit 7 is 0 (R60, R100). -/
def shapePattern (g : DigitShape) : Byte := g.setWidth 8

/-- SEG_LUT (R100): entries 1 to 4 from the source, the others a parameter (D14). -/
def segLut (c : Config) : Nat → Byte
  | 0 => shapePattern c.openSegments.d0
  | 1 => 0x06
  | 2 => 0x5B
  | 3 => 0x4F
  | 4 => 0x66
  | 5 => shapePattern c.openSegments.d5
  | 6 => shapePattern c.openSegments.d6
  | 7 => shapePattern c.openSegments.d7
  | 8 => shapePattern c.openSegments.d8
  | 9 => shapePattern c.openSegments.d9
  | _ => 0x00

/-- `seg(digit)` of R100, total on the integers. -/
def seg (c : Config) (digit : Int) : Byte := if digitOutOfRange digit then 0x00 else segLut c digit.toNat

/-- `a tdiv 10` (R104): the quotient rounded toward zero. -/
def tdiv10 (a : Int) : Int := a.tdiv 10

/-- `a trem 10` (R104): the remainder with the sign of the dividend. -/
def trem10 (a : Int) : Int := a.tmod 10

/-- The four results of DIGITS_OF, `d0` for position 0. -/
structure Digits where
  d0 : Int
  d1 : Int
  d2 : Int
  d3 : Int
deriving DecidableEq, Repr

/-- DIGITS_OF (R101): digits fill the positions right to left; the last quotient is discarded. -/
def digitsOf (n : Int) : Digits :=
  let m1 := tdiv10 n
  let m2 := tdiv10 m1
  let m3 := tdiv10 m2
  { d3 := trem10 n, d2 := trem10 m1, d1 := trem10 m2, d0 := trem10 m3 }

/-- The operand of SHOW_NUMBER: the field read as a two's complement integer of NUM_WIDTH bits (R63, D11). The field has
32 bits: of a narrower operand they hold it and more, of a wider one its sign extension (log entry 2). -/
def numberOf (c : Config) (n : Number) : Int := (n.signExtend c.numWidth).toInt

/-- The four segment patterns SHOW_NUMBER hands to SHOW_DIGITS (R102), position 0 first. -/
def numberPatterns (c : Config) (n : Number) : Byte × Byte × Byte × Byte :=
  let d := digitsOf (numberOf c n)
  (seg c d.d0, seg c d.d1, seg c d.d2, seg c d.d3)

/-- The LED segments of one digit (R60). -/
inductive Segment where
  | top
  | topRight
  | bottomRight
  | bottom
  | bottomLeft
  | topLeft
  | middle
  | decimalPoint
deriving DecidableEq, Repr

/-- The bit of a segment pattern that lights a segment (R60, corrected as conflict C3 says). -/
def Segment.bit : Segment → Nat
  | .top => 0
  | .topRight => 1
  | .bottomRight => 2
  | .bottom => 3
  | .bottomLeft => 4
  | .topLeft => 5
  | .middle => 6
  | .decimalPoint => 7

/-- The segment is lit by the pattern, 1 = lit (R60). -/
def segmentLit (pattern : Byte) (g : Segment) : Bool := pattern.getLsbD g.bit

end Sys2Proof.Machine
end

