-- ==== Sys2Proof/Machine/State.lean ====
section
/-! DEFINITION. The state as plain data: what the spec gives the block (10_state.md), its collaborators and the
ghost display (20_memory.md), and the reasons a step could stop. -/
namespace Sys2Proof.Machine

/-- A pin event (R70): `C0` drive CLK low, `C1` high, `D0` drive DIO low, `D1` high. -/
inductive Pin where
  | c0
  | c1
  | d0
  | d1
deriving DecidableEq, Repr

/-- A primitive event (R6): a pin event, `TS(d)` (R71) or `TW` (R72). -/
inductive Event where
  | pin (p : Pin)
  | ts (d : Nat)
  | tw
deriving DecidableEq, Repr

/-- The display's addressing mode (R43). -/
inductive AMode where
  | auto
  | fixed
deriving DecidableEq, Repr

/-- Where the display stands inside a transaction; the MODEL's own field (R56: meaning is positional; log entry
14). -/
inductive Phase where
  /-- The next byte is the first of a transaction, a command. -/
  | command
  /-- A command that stands alone in its transaction has been taken. -/
  | closed
  /-- After an address command: the position the next payload byte goes to, and how many came before it. -/
  | data (next count : Nat)
  /-- Something R44 does not describe has been seen in this transaction. -/
  | lost
deriving DecidableEq, Repr

/-- The ghost display (R43). An absent value is the spec's UNKNOWN; an unlisted cell is UNKNOWN (log entry 13). -/
structure Display where
  /-- DISP: position and segment pattern, positions strictly rising. -/
  cells : List Host.Cell
  /-- DON: display on. -/
  don : Option Bool
  /-- DBR: the brightness field. -/
  dbr : Option (BitVec 3)
  /-- AMODE: the addressing mode last selected. -/
  amode : Option AMode
  phase : Phase
deriving DecidableEq, Repr

/-- Why a step stops with a fault. R110: "A model's step function for this block has no fault outcome of the
block's own." -/
inductive Fault where
  /-- The one error kind the source declares and never produces (R111, D15). Raised by nobody: safe. -/
  | dataPinFault
deriving DecidableEq, Repr

/-- Why a step has no meaning. -/
inductive Refusal where
  /-- The instruction has no meaning in this model. Answered by no arm of `exec` any more; safe. -/
  | notModelled (mnemonic : String)
deriving DecidableEq, Repr

/-- The machine's state. -/
structure State where
  /-- The construction-time constants (R5); no step changes them (log entry 1). -/
  cfg : Config
  /-- CLK, the level last asked of the clock pin (R20). -/
  clk : Bool
  /-- DIO, the level last asked of the data pin (R21). -/
  dio : Bool
  /-- BUSY (R22). -/
  busy : Bool
  /-- OPR, the host command word latched at acceptance (R23). -/
  opr : HostWord
  /-- UPC, the index of the next primitive event (R24). -/
  upc : Nat
  /-- TMR_EXPIRED, of the timer (R25). -/
  tmrExpired : Bool
  /-- The timer's running countdown in microseconds, if one runs (R71). -/
  tmrCount : Option Nat
  /-- How many further countdowns will elapse; `none` is every one (R147; the MODEL's field, log entry 6). -/
  tmrFuture : Option Nat
  /-- TRACE, newest event first (R26; `State.trace` reads it oldest first, log entry 22). -/
  traceRev : List Event
  /-- `rsp_valid_o`, `rsp_o`: the response presented by the step just taken (R27, R68; log entry 12). -/
  rsp : Option Byte
  /-- The words the host has still to present, the next one on `cmd_i` (R27, R66; log entry 11). -/
  host : List HostWord
  /-- `rst_i` (R27, R130). -/
  rst : Bool
  /-- `clk_fault_i` (R27, R28; log entry 18). -/
  clkFault : Bool
  /-- `dio_fault_i` (R27, R28; log entry 18). -/
  dioFault : Bool
  /-- The clock pin fails its requests and reports nothing (R146; the MODEL's field, log entry 29). -/
  clkBroken : Bool
  /-- The data pin fails its requests and reports nothing (R146; the MODEL's field, log entry 29). -/
  dioBroken : Bool
  /-- Bytes of a foreign transaction on the shared wires that the display has still to take (R148; the MODEL's
  field, log entry 15). -/
  wireIn : List Byte
  /-- The wire as R45 reads it: the pin events since the last start condition, newest first, or no transaction
  (the MODEL's field, log entry 16). -/
  rx : Option (List Pin)
  /-- A drive request has failed, reported or not: the wire's levels are unknown from there on (R112, R146; the
  MODEL's field, log entries 18 and 29). -/
  wireLost : Bool
  /-- The ghost display (R43). -/
  display : Display
deriving DecidableEq, Repr

/-- Every element UNKNOWN (R43), at the start of a transaction. -/
def Display.unknown : Display where
  cells := []
  don := none
  dbr := none
  amode := none
  phase := .command

/-- A block built with parameters `c`, right after reset (R29). OPR, UPC and the timer's bit are unspecified there;
the values are named in log entries 4 and 5. -/
def State.construct (c : Config) : State where
  cfg := c
  clk := c.pinResetLevel
  dio := c.pinResetLevel
  busy := false
  opr := 0
  upc := 0
  tmrExpired := false
  tmrCount := none
  tmrFuture := none
  traceRev := []
  rsp := none
  host := []
  rst := false
  clkFault := false
  dioFault := false
  clkBroken := false
  dioBroken := false
  wireIn := []
  rx := none
  wireLost := false
  display := Display.unknown

/-- The machine right after reset, with this hardware's parameters (R5, R29). -/
def State.reset : State := State.construct Config.hardware

end Sys2Proof.Machine
end

