-- ==== Sys2Proof/WellFormed.lean ====
section
/-! DEFINITION. Which instructions a block built with given parameters may be asked for (R62, R64). The range
conditions of R63 need no check: the operands' types say them. -/
namespace Sys2Proof

/-- The class column of R62: the five transport operations, which the host may issue only if
TRANSPORT_OPS_ENABLE = 1. -/
def Instr.isTransport : Instr → Bool
  | .delay | .start | .stop | .writeByte _ | .write1 _ | .write2 _ _ | .write3 _ _ _ | .write4 _ _ _ _
  | .write5 _ _ _ _ _ => true
  | .encBrightness _ | .setBrightness _ | .showSegment _ _ | .showDigits _ _ _ _ | .getSegments _
  | .showNumber _ => false
  | .datacmdAuto | .datacmdFixed | .addrcmd _ | .dispctrlOff | .dispctrlOn _ | .segpat _ => false

/-- The instruction is a host operation (a row of format HOST56), not a wire byte (format WIRE8). -/
def Instr.isHost : Instr → Bool
  | .delay | .start | .stop | .writeByte _ | .write1 _ | .write2 _ _ | .write3 _ _ _ | .write4 _ _ _ _
  | .write5 _ _ _ _ _ => true
  | .encBrightness _ | .setBrightness _ | .showSegment _ _ | .showDigits _ _ _ _ | .getSegments _
  | .showNumber _ => true
  | .datacmdAuto | .datacmdFixed | .addrcmd _ | .dispctrlOff | .dispctrlOn _ | .segpat _ => false

/-- R64: the instruction's word is legal on a block built with parameters `c`. -/
def Instr.legal (c : Config) (i : Instr) : Bool := !i.isTransport || c.transportOpsEnable

end Sys2Proof
end

