-- ==== Sys2Proof/Machine/Expand.lean ====
section
/-! DEFINITION. The event lists of the wire formats (R52 to R55) and of every operation (R78), and the responses
(R68). They are functions of the operation and the parameters only. -/
namespace Sys2Proof.Machine

/-- DELAYSEQ, one quantum, written `W` in the spec (R73). -/
def delaySeq (c : Config) : List Event := [.ts c.qUs, .tw]

/-- A pin event and the quantum that follows it. -/
def paced (c : Config) (p : Pin) : List Event := .pin p :: delaySeq c

/-- STARTSEQ (R55, R74). -/
def startSeq (c : Config) : List Event := paced c .d0

/-- STOPSEQ (R55, R75). -/
def stopSeq (c : Config) : List Event := paced c .d0 ++ paced c .c1 ++ paced c .d1

/-- `D(v)` (00_scope.md, section 6). -/
def dataPin (v : Bool) : Pin := if v then .d1 else .d0

/-- BITCELL(v) (R52). -/
def bitCell (c : Config) (v : Bool) : List Event := paced c .c0 ++ paced c (dataPin v) ++ paced c .c1

/-- ACKSLOT (R53): the block issues no data event in it and never samples the line. -/
def ackSlot (c : Config) : List Event := paced c .c0 ++ paced c .c1 ++ delaySeq c ++ paced c .c0

/-- The bit sent in cell `i` (R32, R78). -/
def cellBit (o : BitOrder) (b : Byte) (i : Nat) : Bool :=
  match o with
  | .lsbFirst => b.getLsbD i
  | .msbFirst => b.getLsbD (7 - i)

/-- BYTEFRAME(b) (R54, R76): eight bit cells and one acknowledgement slot. -/
def byteFrame (c : Config) (b : Byte) : List Event :=
  [0, 1, 2, 3, 4, 5, 6, 7].flatMap (fun i => bitCell c (cellBit c.bitOrder b i)) ++ ackSlot c

/-- TXNFRAME(bs) (R55, R77). -/
def txnFrame (c : Config) (bs : List Byte) : List Event := startSeq c ++ bs.flatMap (byteFrame c) ++ stopSeq c

/-- The transactions of SHOW_SEGMENT (R92): none for `pos > 3`; else the data command alone, then address and
pattern. -/
def segmentEvents (c : Config) (segment pos : Byte) : List Event :=
  if posOutOfRange pos then []
  else txnFrame c [dataCommandByte true] ++ txnFrame c [addressOfPos pos, segment]

/-- The transactions of SHOW_DIGITS (R93): the data command alone, then the base address and four patterns. -/
def digitsEvents (c : Config) (s0 s1 s2 s3 : Byte) : List Event :=
  txnFrame c [dataCommandByte false] ++ txnFrame c [addressOfPos 0, s0, s1, s2, s3]

/-- The transactions of SHOW_NUMBER (R102): SHOW_DIGITS of the four digits' patterns. -/
def numberEvents (c : Config) (n : Number) : List Event :=
  let p := numberPatterns c n
  digitsEvents c p.1 p.2.1 p.2.2.1 p.2.2.2

/-- A transport operation's events from the host port: none while the word is illegal (R64, R78). -/
def enabledEvents (c : Config) (es : List Event) : List Event := if c.transportOpsEnable then es else []

/-- `expand(op)` (R78). A wire byte is no host operation: the block issues nothing for it. -/
def expand (c : Config) : Instr → List Event
  | .delay => enabledEvents c (delaySeq c)
  | .start => enabledEvents c (startSeq c)
  | .stop => enabledEvents c (stopSeq c)
  | .writeByte b => enabledEvents c (byteFrame c b)
  | .write1 b0 => enabledEvents c (txnFrame c [b0])
  | .write2 b0 b1 => enabledEvents c (txnFrame c [b0, b1])
  | .write3 b0 b1 b2 => enabledEvents c (txnFrame c [b0, b1, b2])
  | .write4 b0 b1 b2 b3 => enabledEvents c (txnFrame c [b0, b1, b2, b3])
  | .write5 b0 b1 b2 b3 b4 => enabledEvents c (txnFrame c [b0, b1, b2, b3, b4])
  | .encBrightness _ => []
  | .setBrightness level => txnFrame c [ctrl level.toNat]
  | .showSegment segment pos => segmentEvents c segment pos
  | .showDigits s0 s1 s2 s3 => digitsEvents c s0 s1 s2 s3
  | .getSegments _ => []
  | .showNumber n => numberEvents c n
  | .datacmdAuto | .datacmdFixed | .addrcmd _ | .dispctrlOff | .dispctrlOn _ | .segpat _ => []

/-- The response byte of R68: the result of the two pure operations, 0x00 otherwise. -/
def response (c : Config) : Instr → Byte
  | .encBrightness level => ctrl level.toNat
  | .getSegments digit => seg c digit.toNat
  | .delay | .start | .stop | .writeByte _ | .write1 _ | .write2 _ _ | .write3 _ _ _ | .write4 _ _ _ _
  | .write5 _ _ _ _ _ => 0x00
  | .setBrightness _ | .showSegment _ _ | .showDigits _ _ _ _ | .showNumber _ => 0x00
  | .datacmdAuto | .datacmdFixed | .addrcmd _ | .dispctrlOff | .dispctrlOn _ | .segpat _ => 0x00

/-- `expand` of a host command word: an illegal word has an empty expansion (R64, R78). -/
def expandWord (c : Config) (w : HostWord) : List Event :=
  match decode (.host w) with
  | .ok i => expand c i
  | .error _ => []

/-- The response to a host command word: 0x00 for an illegal one (R64, R68). -/
def responseWord (c : Config) (w : HostWord) : Byte :=
  match decode (.host w) with
  | .ok i => response c i
  | .error _ => 0x00

/-- The pin event of an event, if it is one. -/
def Event.pin? : Event → Option Pin
  | .pin p => some p
  | .ts _ => none
  | .tw => none

/-- The pin trace: the events with the DELAYs left out (95_test_vectors.md, conventions). -/
def pinsOf (es : List Event) : List Pin := es.filterMap Event.pin?

end Sys2Proof.Machine
end

