-- ==== Sys2Proof/Machine/Display.lean ====
section
/-! DEFINITION. The ghost display (R43 to R46): its memory of four cells, the effect of each wire byte, and the
reading of transactions off the wire. These are assumptions about the display, not properties of the block (D20). -/
namespace Sys2Proof.Machine

/-- The cell at position `a`, or UNKNOWN (R43). -/
def Memory.read : List Host.Cell → Nat → Option Byte
  | [], _ => none
  | (k, v) :: rest, a => if k = a then some v else Memory.read rest a

/-- `MemWrite(a, 1, v)`: `DISP[a] <- v` (R44), keeping positions strictly rising. -/
def Memory.write : List Host.Cell → Nat → Byte → List Host.Cell
  | [], a, v => [(a, v)]
  | (k, w) :: rest, a, v =>
    if a < k then (a, v) :: (k, w) :: rest
    else if a = k then (a, v) :: rest
    else (k, w) :: Memory.write rest a v

/-- The canonical form: positions strictly rising, and only the four that exist (R30, R36). An unlisted position
reads as UNKNOWN, which no entry can hold. -/
abbrev Memory.wf (m : List Host.Cell) : Prop :=
  m.Pairwise (fun x y => x.1 < y.1) ∧ ∀ x ∈ m, x.1 < Config.nDigits

/-- Every element of the ghost state becomes UNKNOWN (R44, last line); the place in the transaction is kept. -/
def Display.forget (d : Display) : Display := { d with cells := [], don := none, dbr := none, amode := none }

/-- Something R44 does not describe: every element UNKNOWN, and so for the rest of the transaction. -/
def Display.lose (d : Display) : Display := { d.forget with phase := .lost }

/-- `B = [0x40]`: AMODE <- AUTO; `B = [0x44]`: AMODE <- FIXED (R44). The command stands alone in its transaction. -/
def Display.dataCommand (m : AMode) (d : Display) : Display := { d with amode := some m, phase := .closed }

/-- `B = [0x80]`: DON <- 0; DBR <- 0 (R44). -/
def Display.switchOff (d : Display) : Display := { d with don := some false, dbr := some 0, phase := .closed }

/-- `B = [0x88 | f]`: DON <- 1; DBR <- f (R44). -/
def Display.switchOn (f : BitVec 3) (d : Display) : Display :=
  { d with don := some true, dbr := some f, phase := .closed }

/-- The first byte `0xC0 + a` (R44): payload goes to position `a`; with AMODE UNKNOWN nothing is known. -/
def Display.address (a : BitVec 2) (d : Display) : Display :=
  match d.amode with
  | none => d.lose
  | some _ => { d with phase := .data a.toNat 0 }

/-- `DISP[a] <- v` for the payload byte at hand; the next one goes to the following position. -/
def Display.store (v : Byte) (next count : Nat) (d : Display) : Display :=
  { d with cells := Memory.write d.cells next v, phase := .data (next + 1) (count + 1) }

/-- A payload byte (R44): after an address, one pattern in fixed mode, up to position 3 in auto-increment mode;
anywhere else, or beyond those, nothing is described. -/
def Display.payload (v : Byte) (d : Display) : Display :=
  match d.phase with
  | .data next count =>
    match d.amode with
    | some .fixed => if count = 0 ∧ next < Config.nDigits then d.store v next count else d.lose
    | some .auto => if next < Config.nDigits then d.store v next count else d.lose
    | none => d.lose
  | .command | .closed | .lost => d.lose

/-- The end of a transaction: an empty one, an address without payload, or one with something undescribed in it
leaves everything UNKNOWN (R44, last line). -/
def Display.endTxn (d : Display) : Display :=
  match d.phase with
  | .closed => { d with phase := .command }
  | .data _ (_ + 1) => { d with phase := .command }
  | .data _ 0 | .command | .lost => { d.forget with phase := .command }

/-- What a byte is at the place the display stands in the transaction (R56). -/
def Display.codeOf (d : Display) (b : Byte) : Code :=
  match d.phase with
  | .command => .wireCommand b
  | .closed | .data _ _ | .lost => .wirePayload b

/-- The display's side of each wire byte. A host operation is no wire byte. -/
def wireEffect : Instr → Display → Display
  | .datacmdAuto => Display.dataCommand .auto
  | .datacmdFixed => Display.dataCommand .fixed
  | .addrcmd a => Display.address a
  | .dispctrlOff => Display.switchOff
  | .dispctrlOn f => Display.switchOn f
  | .segpat v => Display.payload v
  | .delay | .start | .stop | .writeByte _ | .write1 _ | .write2 _ _ | .write3 _ _ _ | .write4 _ _ _ _
  | .write5 _ _ _ _ _ => Display.lose
  | .encBrightness _ | .setBrightness _ | .showSegment _ _ | .showDigits _ _ _ _ | .getSegments _
  | .showNumber _ => Display.lose

/-- The display takes one byte of a transaction. -/
def Display.takeByte (d : Display) (b : Byte) : Display :=
  match decode (d.codeOf b) with
  | .ok i => wireEffect i d
  | .error _ => d.lose

/-- The display takes a complete transaction with byte list `B`; `none` is a malformed one (R44, R45). -/
def Display.takeTxn (B : Option (List Byte)) (d : Display) : Display :=
  match B with
  | none => { d.forget with phase := .command }
  | some bs => (bs.foldl Display.takeByte { d with phase := .command }).endTxn

/-- Consecutive payload bytes stored from position `a` on (R44, the AUTO line). -/
def Memory.writeRun (m : List Host.Cell) (a : Nat) : List Byte → List Host.Cell
  | [] => m
  | v :: vs => Memory.writeRun (Memory.write m a v) (a + 1) vs

/-- R44 as its table stands: the effect of a complete transaction with byte list `B` on a display between
transactions. The machine itself takes the bytes one by one (`Display.takeTxn`). -/
def Display.ghostUpdate (B : List Byte) (d : Display) : Display :=
  match B with
  | [] => { d.forget with phase := .command }
  | b :: payload =>
    if b = 0x40 ∧ payload = [] then { d with amode := some .auto, phase := .command }
    else if b = 0x44 ∧ payload = [] then { d with amode := some .fixed, phase := .command }
    else if b = 0x80 ∧ payload = [] then { d with don := some false, dbr := some 0, phase := .command }
    else if 0x88 ≤ b.toNat ∧ b.toNat ≤ 0x8F ∧ payload = [] then
      { d with don := some true, dbr := some (BitVec.ofNat 3 (b.toNat - 0x88)), phase := .command }
    else if 0xC0 ≤ b.toNat ∧ b.toNat ≤ 0xC3 ∧ payload.length = 1 ∧ d.amode = some .fixed then
      { d with cells := Memory.writeRun d.cells (b.toNat - 0xC0) payload, phase := .command }
    else if 0xC0 ≤ b.toNat ∧ 1 ≤ payload.length ∧ b.toNat - 0xC0 + payload.length ≤ Config.nDigits
        ∧ d.amode = some .auto then
      { d with cells := Memory.writeRun d.cells (b.toNat - 0xC0) payload, phase := .command }
    else { d.forget with phase := .command }

/-- The level of CLK after a pin event (R70). -/
def Pin.clkAfter (clk : Bool) : Pin → Bool
  | .c0 => false
  | .c1 => true
  | .d0 | .d1 => clk

/-- The level of DIO after a pin event (R70). -/
def Pin.dioAfter (dio : Bool) : Pin → Bool
  | .d0 => false
  | .d1 => true
  | .c0 | .c1 => dio

/-- What a pin event is on the wire (R45). -/
inductive Edge where
  /-- DIO from 1 to 0 while CLK = 1. -/
  | start
  /-- DIO from 0 to 1 while CLK = 1. -/
  | stop
  /-- CLK from 0 to 1. -/
  | sample
  /-- Anything else, a request that changes no level among it. -/
  | other
deriving DecidableEq, Repr

/-- R45, from the levels before the event. -/
def Pin.edge (clk dio : Bool) : Pin → Edge
  | .d0 => if clk && dio then .start else .other
  | .d1 => if clk && !dio then .stop else .other
  | .c1 => if clk then .other else .sample
  | .c0 => .other

/-- The levels of DIO at the samples of a pin trace replayed from the given levels (R45). -/
def samplesFrom (clk dio : Bool) : List Pin → List Bool
  | [] => []
  | p :: ps =>
    let rest := samplesFrom (p.clkAfter clk) (p.dioAfter dio) ps
    match p.edge clk dio with
    | .sample => dio :: rest
    | .start | .stop | .other => rest

/-- How often DIO changes while CLK = 1 in a pin trace replayed from the given levels (R45). -/
def dataEdgesFrom (clk dio : Bool) : List Pin → Nat
  | [] => 0
  | p :: ps =>
    let rest := dataEdgesFrom (p.clkAfter clk) (p.dioAfter dio) ps
    match p.edge clk dio with
    | .start | .stop => rest + 1
    | .sample | .other => rest

/-- The byte of eight samples. LSB_FIRST: bit `i` is the `i`-th sample (R45). MSB_FIRST: bit `7 - i` is, the order in
which R32 sends it (log entry 17). -/
def byteOfBits (o : BitOrder) (s0 s1 s2 s3 s4 s5 s6 s7 : Bool) : Byte :=
  match o with
  | .lsbFirst =>
    BitVec.ofBool s7 ++ BitVec.ofBool s6 ++ BitVec.ofBool s5 ++ BitVec.ofBool s4
      ++ BitVec.ofBool s3 ++ BitVec.ofBool s2 ++ BitVec.ofBool s1 ++ BitVec.ofBool s0
  | .msbFirst =>
    BitVec.ofBool s0 ++ BitVec.ofBool s1 ++ BitVec.ofBool s2 ++ BitVec.ofBool s3
      ++ BitVec.ofBool s4 ++ BitVec.ofBool s5 ++ BitVec.ofBool s6 ++ BitVec.ofBool s7

/-- R45: groups of nine samples, the ninth (the acknowledgement slot) ignored; `none` if the number of samples is
not a multiple of nine. -/
def bytesOfSamples (o : BitOrder) : List Bool → Option (List Byte)
  | [] => some []
  | s0 :: s1 :: s2 :: s3 :: s4 :: s5 :: s6 :: s7 :: _ :: rest =>
    match bytesOfSamples o rest with
    | some bs => some (byteOfBits o s0 s1 s2 s3 s4 s5 s6 s7 :: bs)
    | none => none
  | _ => none

/-- R45: the byte list of a complete transaction, whose pin events from its start to its stop are `pins`; `none` if it
is malformed. -/
def decodeTxn (c : Config) (pins : List Pin) : Option (List Byte) :=
  if dataEdgesFrom true true pins = 2 then bytesOfSamples c.bitOrder (samplesFrom true true pins).dropLast else none

/-- A request to the data pin. -/
def Pin.isData : Pin → Bool
  | .d0 | .d1 => true
  | .c0 | .c1 => false

/-- R142: "a START must be followed by one or more WRITE_BYTE and a STOP with nothing else between". `ps` are the
requests of the open transaction, newest first, and `p` is the next one. The bracket is seen to be broken when a START is
not followed by the first clock request of a WRITE_BYTE; and later when a data request is not followed by CLK going high,
which every bit cell and STOP ask for next and a second START does not (log entry 16). -/
def breaksBracket (ps : List Pin) (p : Pin) : Bool :=
  match ps with
  | [] => false
  | [_] => p.isData
  | q :: _ :: _ => q.isData && p != .c1

/-- None of the requests that follow breaks the bracket. -/
def keepsBracket : List Pin → List Pin → Bool
  | _, [] => true
  | ps, p :: rest => !breaksBracket ps p && keepsBracket (p :: ps) rest

end Sys2Proof.Machine
end

