-- ==== Sys2Proof/Machine/Ops.lean ====
section
/-! DEFINITION. The named operations over the state: the primitive events (R70 to R72), acceptance and completion
(R79, R81), the timer's step (R25), reset (R131, R132), and running an operation's events. Taking an exception and
returning from one do not exist on this block (R110, R116, R117); reset is the only thing that overrides an
operation (R115). -/
namespace Sys2Proof.Machine

/-- TRACE, oldest event first (R26). -/
def State.trace (s : State) : List Event := s.traceRev.reverse

/-- `cmd_ready_o = not BUSY` (R27). -/
def State.cmdReady (s : State) : Bool := !s.busy

/-- `clk_o = CLK` (R27). -/
def State.clkO (s : State) : Bool := s.clk

/-- `dio_o = DIO` (R27). -/
def State.dioO (s : State) : Bool := s.dio

/-- `cmd_valid_i` and `cmd_i`: the word the host presents, if any (R27). -/
def State.cmdIn (s : State) : Option HostWord := s.host.head?

/-- `tmr_expired_i = TMR_EXPIRED` (R27). -/
def State.tmrExpiredI (s : State) : Bool := s.tmrExpired

/-- `tmr_start_o` and `tmr_dur_o` while an event is issued: `TS(d)` pulses with `d` on 32 bits (R27). -/
def Event.timerRequest : Event → Option (BitVec 32)
  | .ts d => some (BitVec.ofNat 32 d)
  | .pin _ => none
  | .tw => none

/-- The numeric code of the declared error kind (R111, D15). It appears on no output. -/
def Fault.code : Fault → Nat
  | .dataPinFault => 0

/-- `DISP[a]`, or UNKNOWN (R43). -/
def State.cell (s : State) (a : Nat) : Option Byte := Memory.read s.display.cells a

/-- The display changes; while the wire is unknown every element stays UNKNOWN (R112). -/
def State.setDisplay (d : Display) (s : State) : State :=
  { s with display := if s.wireLost then d.forget else d }

/-- The two output latches (R70). -/
def State.setPins (clk dio : Bool) (s : State) : State := { s with clk := clk, dio := dio }

/-- The wire receiver's record. -/
def State.setRx (r : Option (List Pin)) (s : State) : State := { s with rx := r }

/-- The wire's levels, and with them the ghost display, are unknown from here on (R112). -/
def State.loseWire (s : State) : State := { s with wireLost := true, display := s.display.forget }

/-- The event is appended to TRACE; a response was presented by an earlier step only (R68). -/
def State.record (e : Event) (s : State) : State := { s with traceRev := e :: s.traceRev, rsp := none }

/-- R71: TMR_EXPIRED <- 0 and a countdown of `d` microseconds begins. R71 says that a TS while a countdown is running
cannot occur; after a reset in mid-operation it can, since the block's reset leaves the timer alone, and then the new
countdown takes the old one's place (DESIGN CHOICE, log entry 30). -/
def State.armTimer (d : Nat) (s : State) : State := { s with tmrExpired := false, tmrCount := some d }

/-- R80: UPC <- UPC + 1. -/
def State.advance (s : State) : State := { s with upc := s.upc + 1 }

/-- R79: OPR <- w; UPC <- 0; BUSY <- 1. -/
def State.accept (w : HostWord) (s : State) : State := { s with opr := w, upc := 0, busy := true, rsp := none }

/-- R81: BUSY <- 0 and the response is presented. OPR and UPC keep the last word and the final index while BUSY = 0, where
R23 calls OPR unspecified and nothing reads either (DESIGN CHOICE, log entry 4). -/
def State.complete (r : Byte) (s : State) : State := { s with busy := false, rsp := some r }

/-- The running countdown elapses: TMR_EXPIRED <- 1 (R25). `future` is what the timer will still do. -/
def State.expire (future : Option Nat) (s : State) : State :=
  { s with tmrExpired := true, tmrCount := none, tmrFuture := future }

/-- The timer agent's step (R25, R72), if it takes one: a countdown runs and will elapse (R147). -/
def State.timerStep (s : State) : Option State :=
  match s.tmrCount with
  | none => none
  | some _ =>
    match s.tmrFuture with
    | none => some (s.expire none)
    | some 0 => none
    | some (k + 1) => some (s.expire (some k))

/-- This request fails on the wire, whether the pin reports it (R28, R112) or not (R146). -/
def State.requestFails (p : Pin) (s : State) : Bool :=
  match p with
  | .c0 | .c1 => s.clkFault || s.clkBroken
  | .d0 | .d1 => s.dioFault || s.dioBroken

/-- A broken bracket "makes the ghost display `UNKNOWN`" (R142) as soon as the wire shows it (log entry 16). -/
def State.checkBracket (ps : List Pin) (p : Pin) (s : State) : State :=
  { s with display := if breaksBracket ps p then s.display.forget else s.display }

/-- The wire receiver sees a pin event. At the stop the display takes the byte list R45 reads (R44). A stop without a
start makes the ghost display UNKNOWN (95, P5), and so do a clock pulse outside a transaction and a second START inside
one (R142; log entry 16). -/
def State.receive (p : Pin) (e : Edge) (s : State) : State :=
  match s.rx with
  | none =>
    match e with
    | .start => s.setRx (some [p])
    | .stop | .sample => s.setDisplay s.display.forget
    | .other => s
  | some ps =>
    let t := s.checkBracket ps p
    match e with
    | .stop => (t.setRx none).setDisplay (t.display.takeTxn (decodeTxn t.cfg (p :: ps).reverse))
    | .start | .sample | .other => t.setRx (some (p :: ps))

/-- One request to a pin (R70). A failure, reported or not, changes nothing in the block (R28, R112, R146). -/
def State.drive (p : Pin) (s : State) : State :=
  let t := (s.setPins (p.clkAfter s.clk) (p.dioAfter s.dio)).receive p (p.edge s.clk s.dio)
  if s.requestFails p then t.loseWire else t

/-- `emit(e)` (R70 to R72). -/
def State.emit (e : Event) (s : State) : State :=
  match e with
  | .pin p => (s.drive p).record e
  | .ts d => (s.armTimer d).record e
  | .tw => s.record e

/-- The effect of an event step (R80). -/
def State.issue (e : Event) (s : State) : State := (s.emit e).advance

/-- The sequencer is held at this event: it is TW and the countdown has not elapsed (R72). -/
def State.held (e : Event) (s : State) : Bool :=
  match e with
  | .tw => !s.tmrExpired
  | .pin _ | .ts _ => false

/-- The state in which the event can be issued: at once, or after the timer's step; `none` if the timer never
expires (R72, R147). -/
def State.release (e : Event) (s : State) : Option State := if s.held e then s.timerStep else some s

/-- The timer has stopped in mid-operation: the sequencer is held for ever (R147), and the display is left in an
undefined state (R143, U3): every element UNKNOWN (log entry 28). -/
def State.stall (s : State) : State := { s with display := s.display.forget }

/-- The operation's events in list order with nothing between them, then completion (R80, R81). If the timer never
expires, the state in which the sequencer is held for ever (R147, R143). -/
def State.runOp : List Event → Byte → State → State
  | [], r, s => s.complete r
  | e :: es, r, s =>
    match s.release e with
    | some t => State.runOp es r (t.issue e)
    | none => s.stall

/-- R131, R132: reset in any state. The block takes its reset values without issuing an event; a running operation
is abandoned and no response is given; the ghost display is UNKNOWN. The block's reset reaches neither the timer nor the
display (R43): a countdown goes on (log entry 5), the wire stays untrusted after a pin failure (log entry 18), and a
foreign transaction under way goes on from the place the display stands in it (DESIGN CHOICE, log entry 31). -/
def State.resetBlock (s : State) : State :=
  { s with
    clk := s.cfg.pinResetLevel, dio := s.cfg.pinResetLevel, busy := false, opr := 0, upc := 0, traceRev := [],
    rsp := none, rst := false, rx := none, display := s.display.forget }

/-- The block waits for the host (R29); the completion pulse is over (R68). -/
def State.idle (s : State) : State := { s with rsp := none }

/-- The display takes one wire byte; if no byte of the transaction follows, the transaction is complete (R44). -/
def State.takeWire (f : Display → Display) (s : State) : State :=
  s.setDisplay (if s.wireIn.isEmpty then (f s.display).endTxn else f s.display)

/-- An operation of the command or presentation layer, which the host may always issue (R62). -/
def State.runHost (es : List Event) (r : Byte) (s : State) : Host.Outcome State Fault Refusal :=
  .next (s.runOp es r)

/-- A transport operation issued by the host: with TRANSPORT_OPS_ENABLE = 0 its word is illegal and is an empty
operation with response 0x00 (R64, R142). -/
def State.runTransport (es : List Event) (s : State) : Host.Outcome State Fault Refusal :=
  .next (s.runOp (enabledEvents s.cfg es) 0x00)

end Sys2Proof.Machine
end

