-- ==== Sys2Proof/Machine/Command.lean ====
section
/-! DEFINITION. The command layer (41_command.md). -/
namespace Sys2Proof.Machine

/-- ENC_BRIGHTNESS level (R90): no event; the control byte is the response. -/
def execEncBrightness (level : Byte) (s : State) : Host.Outcome State Fault Refusal :=
  s.runHost [] (ctrl level.toNat)

/-- SET_BRIGHTNESS level (R91, D8): one transaction of the encoded control byte. -/
def execSetBrightness (level : Byte) (s : State) : Host.Outcome State Fault Refusal :=
  s.runHost (txnFrame s.cfg [ctrl level.toNat]) 0x00

/-- SHOW_SEGMENT segment, pos (R92): the fixed-address store; nothing at all for `pos > 3`. -/
def execShowSegment (segment pos : Byte) (s : State) : Host.Outcome State Fault Refusal :=
  s.runHost (segmentEvents s.cfg segment pos) 0x00

/-- SHOW_DIGITS s0, s1, s2, s3 (R93, D9): the auto-increment store of four patterns as they are given. -/
def execShowDigits (s0 s1 s2 s3 : Byte) (s : State) : Host.Outcome State Fault Refusal :=
  s.runHost (digitsEvents s.cfg s0 s1 s2 s3) 0x00

end Sys2Proof.Machine
end

