-- ==== Sys2Proof/Machine/Presentation.lean ====
section
/-! DEFINITION. The presentation layer (42_presentation.md). -/
namespace Sys2Proof.Machine

/-- GET_SEGMENTS digit (R100): no event; the segment pattern is the response. -/
def execGetSegments (digit : Byte) (s : State) : Host.Outcome State Fault Refusal :=
  s.runHost [] (seg s.cfg digit.toNat)

/-- SHOW_NUMBER n (R102, R103, D10): SHOW_DIGITS of the patterns of the low four decimal digits, for every `n`
(negative `n`: log entry 10). -/
def execShowNumber (n : Number) (s : State) : Host.Outcome State Fault Refusal :=
  s.runHost (numberEvents s.cfg n) 0x00

end Sys2Proof.Machine
end

