-- ==== Sys2Proof/Machine/Transport.lean ====
section
/-! DEFINITION. The transport operations (40_transport.md), as the host issues them. -/
namespace Sys2Proof.Machine

/-- DELAY (R73): `emit(TS(Q_US)); emit(TW)`. -/
def execDelay (s : State) : Host.Outcome State Fault Refusal := s.runTransport (delaySeq s.cfg)

/-- START (R74): `emit(D0); DELAY`. Its precondition is not checked. -/
def execStart (s : State) : Host.Outcome State Fault Refusal := s.runTransport (startSeq s.cfg)

/-- STOP (R75): `emit(D0); DELAY; emit(C1); DELAY; emit(D1); DELAY`. -/
def execStop (s : State) : Host.Outcome State Fault Refusal := s.runTransport (stopSeq s.cfg)

/-- WRITE_BYTE b (R76). -/
def execWriteByte (b : Byte) (s : State) : Host.Outcome State Fault Refusal := s.runTransport (byteFrame s.cfg b)

/-- WRITE b0 (R77). -/
def execWrite1 (b0 : Byte) (s : State) : Host.Outcome State Fault Refusal := s.runTransport (txnFrame s.cfg [b0])

/-- WRITE b0, b1 (R77). -/
def execWrite2 (b0 b1 : Byte) (s : State) : Host.Outcome State Fault Refusal :=
  s.runTransport (txnFrame s.cfg [b0, b1])

/-- WRITE b0, b1, b2 (R77). -/
def execWrite3 (b0 b1 b2 : Byte) (s : State) : Host.Outcome State Fault Refusal :=
  s.runTransport (txnFrame s.cfg [b0, b1, b2])

/-- WRITE b0, b1, b2, b3 (R77). -/
def execWrite4 (b0 b1 b2 b3 : Byte) (s : State) : Host.Outcome State Fault Refusal :=
  s.runTransport (txnFrame s.cfg [b0, b1, b2, b3])

/-- WRITE b0, b1, b2, b3, b4 (R77). -/
def execWrite5 (b0 b1 b2 b3 b4 : Byte) (s : State) : Host.Outcome State Fault Refusal :=
  s.runTransport (txnFrame s.cfg [b0, b1, b2, b3, b4])

end Sys2Proof.Machine
end

