-- ==== Sys2Proof/Machine/Wire.lean ====
section
/-! DEFINITION. The wire bytes as the display takes them (R57 to R60, R44). They change the ghost display only. -/
namespace Sys2Proof.Machine

/-- DATACMD_AUTO 0x40 (R57, R44): AMODE <- AUTO. -/
def execDatacmdAuto (s : State) : Host.Outcome State Fault Refusal := .next (s.takeWire (Display.dataCommand .auto))

/-- DATACMD_FIXED 0x44 (R57, R44): AMODE <- FIXED. -/
def execDatacmdFixed (s : State) : Host.Outcome State Fault Refusal :=
  .next (s.takeWire (Display.dataCommand .fixed))

/-- ADDRCMD 0xC0 + a (R58, R44): the following payload goes to position `a`. -/
def execAddrcmd (a : BitVec 2) (s : State) : Host.Outcome State Fault Refusal :=
  .next (s.takeWire (Display.address a))

/-- DISPCTRL_OFF 0x80 (R59, R44): DON <- 0; DBR <- 0. -/
def execDispctrlOff (s : State) : Host.Outcome State Fault Refusal := .next (s.takeWire Display.switchOff)

/-- DISPCTRL_ON 0x88 | f (R59, R44): DON <- 1; DBR <- f. -/
def execDispctrlOn (f : BitVec 3) (s : State) : Host.Outcome State Fault Refusal :=
  .next (s.takeWire (Display.switchOn f))

/-- SEGPAT (R60, R44): the pattern is stored at the position the address command and the mode give. -/
def execSegpat (pattern : Byte) (s : State) : Host.Outcome State Fault Refusal :=
  .next (s.takeWire (Display.payload pattern))

end Sys2Proof.Machine
end

