-- ==== Sys2Proof/Machine/Dispatch.lean ====
section
/-! DEFINITION. The meaning of every instruction, arm by arm. -/
namespace Sys2Proof.Machine

/-- The meaning of an instruction. For a host operation `s` is the state its acceptance leaves (R79). -/
def exec (i : Instr) (s : State) : Host.Outcome State Fault Refusal :=
  match i with
  -- transport layer
  | .delay => Sys2Proof.Machine.execDelay s
  | .start => Sys2Proof.Machine.execStart s
  | .stop => Sys2Proof.Machine.execStop s
  | .writeByte b => Sys2Proof.Machine.execWriteByte b s
  | .write1 b0 => Sys2Proof.Machine.execWrite1 b0 s
  | .write2 b0 b1 => Sys2Proof.Machine.execWrite2 b0 b1 s
  | .write3 b0 b1 b2 => Sys2Proof.Machine.execWrite3 b0 b1 b2 s
  | .write4 b0 b1 b2 b3 => Sys2Proof.Machine.execWrite4 b0 b1 b2 b3 s
  | .write5 b0 b1 b2 b3 b4 => Sys2Proof.Machine.execWrite5 b0 b1 b2 b3 b4 s
  -- command layer
  | .encBrightness level => Sys2Proof.Machine.execEncBrightness level s
  | .setBrightness level => Sys2Proof.Machine.execSetBrightness level s
  | .showSegment segment pos => Sys2Proof.Machine.execShowSegment segment pos s
  | .showDigits s0 s1 s2 s3 => Sys2Proof.Machine.execShowDigits s0 s1 s2 s3 s
  -- presentation layer
  | .getSegments digit => Sys2Proof.Machine.execGetSegments digit s
  | .showNumber n => Sys2Proof.Machine.execShowNumber n s
  -- wire bytes, taken by the display
  | .datacmdAuto => Sys2Proof.Machine.execDatacmdAuto s
  | .datacmdFixed => Sys2Proof.Machine.execDatacmdFixed s
  | .addrcmd a => Sys2Proof.Machine.execAddrcmd a s
  | .dispctrlOff => Sys2Proof.Machine.execDispctrlOff s
  | .dispctrlOn f => Sys2Proof.Machine.execDispctrlOn f s
  | .segpat pattern => Sys2Proof.Machine.execSegpat pattern s

end Sys2Proof.Machine
end

