-- ==== Sys2Proof/Machine/Sequencer.lean ====
section
/-! DEFINITION. The sequencer's own steps (R80, R81) interleaved with the timer's (R25), and what the machine turns
to next. -/
namespace Sys2Proof.Machine

/-- `expand(OPR)` (R78). -/
def State.latched (s : State) : List Event := expandWord s.cfg s.opr

/-- One step of an operation in progress (`BUSY = 1`): the event step for `expand(OPR)[UPC]` (R80), or the timer's
step while the sequencer is held, or completion when UPC is the length (R81). Where none is enabled the block's state
persists (R147); a stopped timer leaves the display UNKNOWN (R143; log entry 28). -/
def State.sequencerStep (s : State) : State :=
  match s.latched[s.upc]? with
  | some e =>
    if s.held e then
      match s.timerStep with
      | some t => t
      | none => s.stall
    else s.issue e
  | none => if s.upc = s.latched.length then s.complete (responseWord s.cfg s.opr) else s

/-- `n` such steps. -/
def State.sequencerRun : Nat → State → State
  | 0, s => s
  | n + 1, s => State.sequencerRun n s.sequencerStep

/-- What the machine does next: something that is settled here, or the meaning of an instruction. -/
inductive Turn where
  | done (t : State)
  | run (i : Instr) (s : State)
deriving DecidableEq, Repr

/-- The display takes the byte `b` of a foreign transaction (R148, R56): the wire byte it decodes to, or nothing
known for a reserved command (R44, last line). -/
def State.wireTurn (b : Byte) (s : State) : Turn :=
  match decode (s.display.codeOf b) with
  | .ok i => .run i s
  | .error _ => .done (s.takeWire Display.lose)

/-- The word `w` is accepted (R79) and runs; an illegal word is an empty operation with response 0x00 (R64). -/
def State.hostTurn (w : HostWord) (s : State) : Turn :=
  match decode (.host w) with
  | .ok i => .run i (s.accept w)
  | .error _ => .done ((s.accept w).complete 0x00)

/-- The next turn: reset overrides everything (R115); then the foreign bytes the display has to take; then an
operation in progress; then the host's next word (R79); else the block is idle (log entries 7, 21). -/
def State.turn (s : State) : Turn :=
  if s.rst then .done s.resetBlock
  else
    match s.wireIn with
    | b :: bs => State.wireTurn b { s with wireIn := bs }
    | [] =>
      if s.busy then .done s.sequencerStep
      else
        match s.host with
        | w :: ws => State.hostTurn w { s with host := ws }
        | [] => .done s.idle

/-- The state in which the instruction of a table row is the next thing the machine runs: the host presents the
word (with TRANSPORT_OPS_ENABLE = 1 where R64 asks for it), or the byte stands on the shared wires at the place in
a transaction its format has (log entries 9, 11, 15). -/
def State.present (k : Code) (s : State) : State :=
  match k with
  | .host w =>
    { s with
      rst := false, wireIn := [], busy := false, host := w :: s.host,
      cfg :=
        match decode (.host w) with
        | .ok i => { s.cfg with transportOpsEnable := i.isTransport || s.cfg.transportOpsEnable }
        | .error _ => s.cfg }
  | .wireCommand b =>
    { s with rst := false, wireIn := [b], display := { s.display with phase := .command } }
  | .wirePayload b =>
    { s with rst := false, wireIn := [b], display := { s.display with phase := .data 0 0 } }

end Sys2Proof.Machine
end

