-- ==== Sys2Proof/Safety.lean ====
section
/-! DEFINITION. The terms the claims are stated in: premises on a state, frames, and the invariants. -/
namespace Sys2Proof.Machine

/-- Every countdown the block starts elapses, R147's fairness assumption on the timer. -/
def TimerFair (s : State) : Prop := s.tmrFuture = none

/-- Both pins do what is asked of them (R146: "unless the environment guarantees the pins"). -/
structure PinsSound (s : State) : Prop where
  clkReported : s.clkFault = false
  dioReported : s.dioFault = false
  clkUnreported : s.clkBroken = false
  dioUnreported : s.dioBroken = false

/-- The wire is as WRITE expects it: both lines high (R141), no transaction open, no request ever failed and none about
to fail, reported or not (R112, R146). -/
structure WireGood (s : State) : Prop where
  clk : s.clk = true
  dio : s.dio = true
  rx : s.rx = none
  trusted : s.wireLost = false
  pins : PinsSound s

/-- Every element of the ghost display is UNKNOWN (R43). -/
structure AllUnknown (d : Display) : Prop where
  cells : ∀ a, Memory.read d.cells a = none
  don : d.don = none
  dbr : d.dbr = none
  amode : d.amode = none

/-- What no operation changes: the parameters, the latched word, what the environment presents, and what the timer
will still do. -/
structure Frame (s t : State) : Prop where
  cfg : t.cfg = s.cfg
  opr : t.opr = s.opr
  host : t.host = s.host
  rst : t.rst = s.rst
  clkFault : t.clkFault = s.clkFault
  dioFault : t.dioFault = s.dioFault
  clkBroken : t.clkBroken = s.clkBroken
  dioBroken : t.dioBroken = s.dioBroken
  wireIn : t.wireIn = s.wireIn
  tmrFuture : t.tmrFuture = s.tmrFuture

/-- The wire and the display are as they were: both levels, the receiver, and every element of the ghost display,
each byte of its memory among them. -/
structure WireKept (s t : State) : Prop where
  clk : t.clk = s.clk
  dio : t.dio = s.dio
  rx : t.rx = s.rx
  wireLost : t.wireLost = s.wireLost
  cell : ∀ a, t.cell a = s.cell a
  don : t.display.don = s.display.don
  dbr : t.display.dbr = s.display.dbr
  amode : t.display.amode = s.display.amode
  phase : t.display.phase = s.display.phase

/-- The operation has run to its completion step (R81): exactly the events `es` were issued, in order (R80), and the
response byte is `r`. The timer was started at least once if an event was issued, and has expired since. That UPC is then
the final index, and OPR (in the frame) the word latched, is the model's choice: R23 leaves OPR open while BUSY = 0, and
nothing reads UPC then (log entry 4). -/
structure Ran (es : List Event) (r : Byte) (s t : State) : Prop where
  trace : t.trace = s.trace ++ es
  upc : t.upc = s.upc + es.length
  busy : t.busy = false
  rsp : t.rsp = some r
  tmrExpired : t.tmrExpired = if es = [] then s.tmrExpired else true
  tmrCount : t.tmrCount = if es = [] then s.tmrCount else none
  frame : Frame s t

/-- The levels of CLK and DIO after a list of events (R70). -/
def levelsFrom (clk dio : Bool) : List Event → Bool × Bool
  | [] => (clk, dio)
  | .pin p :: es => levelsFrom (p.clkAfter clk) (p.dioAfter dio) es
  | .ts _ :: es => levelsFrom clk dio es
  | .tw :: es => levelsFrom clk dio es

/-- How many DELAYs a list of events starts (R83: the number of `TS` events). -/
def quanta (es : List Event) : Nat := es.countP fun e => match e with
  | .ts _ => true
  | .pin _ => false
  | .tw => false

/-- The least duration of a list of events in microseconds (R84): the sum of its countdowns. -/
def leastMicros : List Event → Nat
  | [] => 0
  | .ts d :: es => d + leastMicros es
  | .pin _ :: es => leastMicros es
  | .tw :: es => leastMicros es

/-- The events the operation in progress has still to issue. -/
def State.remaining (s : State) : List Event := if s.busy then s.latched.drop s.upc else []

/-- A list made of DELAYs and of pin events each followed at once by one DELAY of `q` microseconds. -/
def pacedBy (q : Nat) : List Event → Bool
  | [] => true
  | .pin _ :: .ts d :: .tw :: rest => d == q && pacedBy q rest
  | .ts d :: .tw :: rest => d == q && pacedBy q rest
  | _ => false

/-- R84 as it stands: between any two pin events there is a complete DELAY. -/
def Spaced (q : Nat) (es : List Event) : Prop :=
  ∀ i j p p', i < j → es[i]? = some (.pin p) → es[j]? = some (.pin p') →
    ∃ k, i < k ∧ k + 1 < j ∧ es[k]? = some (.ts q) ∧ es[k + 1]? = some .tw

/-- How many start conditions a pin trace puts on the wire from the given levels (R45). -/
def starts (clk dio : Bool) : List Pin → Nat
  | [] => 0
  | p :: ps =>
    (match p.edge clk dio with
      | .start => 1
      | .stop | .sample | .other => 0)
      + starts (p.clkAfter clk) (p.dioAfter dio) ps

/-- The byte lists a WRITE or an operation composed of WRITEs transmits, in order (R46, R67, R85). -/
def transactions (c : Config) : Instr → List (List Byte)
  | .write1 b0 => [[b0]]
  | .write2 b0 b1 => [[b0, b1]]
  | .write3 b0 b1 b2 => [[b0, b1, b2]]
  | .write4 b0 b1 b2 b3 => [[b0, b1, b2, b3]]
  | .write5 b0 b1 b2 b3 b4 => [[b0, b1, b2, b3, b4]]
  | .setBrightness level => [[ctrl level.toNat]]
  | .showSegment segment pos => if 3 < pos.toNat then [] else [[0x44], [0xC0 + pos, segment]]
  | .showDigits s0 s1 s2 s3 => [[0x40], [0xC0, s0, s1, s2, s3]]
  | .showNumber n =>
    let d := digitsOf (numberOf c n)
    [[0x40], [0xC0, seg c d.d0, seg c d.d1, seg c d.d2, seg c d.d3]]
  | .delay | .start | .stop | .writeByte _ | .encBrightness _ | .getSegments _ => []
  | .datacmdAuto | .datacmdFixed | .addrcmd _ | .dispctrlOff | .dispctrlOn _ | .segpat _ => []

/-- The bytes of a WRITE, if the instruction is one. -/
def writtenBytes : Instr → Option (List Byte)
  | .write1 b0 => some [b0]
  | .write2 b0 b1 => some [b0, b1]
  | .write3 b0 b1 b2 => some [b0, b1, b2]
  | .write4 b0 b1 b2 b3 => some [b0, b1, b2, b3]
  | .write5 b0 b1 b2 b3 b4 => some [b0, b1, b2, b3, b4]
  | .delay | .start | .stop | .writeByte _ | .encBrightness _ | .setBrightness _ | .showSegment _ _ => none
  | .showDigits _ _ _ _ | .getSegments _ | .showNumber _ => none
  | .datacmdAuto | .datacmdFixed | .addrcmd _ | .dispctrlOff | .dispctrlOn _ | .segpat _ => none

/-- Instructions run one after another by their meanings. -/
def execAll : List Instr → State → Host.Outcome State Fault Refusal
  | [], s => .next s
  | i :: is, s =>
    match exec i s with
    | .next t => execAll is t
    | .fault f => .fault f
    | .refused r => .refused r

/-- The memory keeps its canonical form (R30, R36). -/
def MemoryInv (s : State) : Prop := Memory.wf s.display.cells

/-- CLK and DIO are the levels last asked for since reset (R20, R21, R26). -/
def LevelsInv (s : State) : Prop :=
  (s.clk, s.dio) = levelsFrom s.cfg.pinResetLevel s.cfg.pinResetLevel s.trace

/-- Every pin event issued, or still to be issued by the operation in progress, is followed by one quantum (R84). -/
def PacingInv (s : State) : Prop := pacedBy s.cfg.qUs (s.trace ++ s.remaining) = true

/-- Without the transport operations both lines are high before and after every operation (R85 (a)): they will be
once the operation in progress, if any, has issued the rest of its events. -/
def IdleHighInv (s : State) : Prop :=
  s.cfg.transportOpsEnable = false ∧ s.cfg.pinResetLevel = true
    ∧ levelsFrom s.clk s.dio s.remaining = (true, true)

/-- UPC never exceeds the length of the expansion (R24). -/
def UpcInv (s : State) : Prop := s.busy = true → s.upc ≤ s.latched.length

/-- From the first failed request on, reported or not, the ghost display is UNKNOWN (R112, R146). -/
def UnknownInv (s : State) : Prop := s.wireLost = true → AllUnknown s.display

end Sys2Proof.Machine
end

