-- ==== Sys2Proof/Certificates/Slice0/Obligations.lean ====
section
/-! DEFINITION. The statements for the provers, from the numbered rules of spec/. -/

open Sys2Proof Sys2Proof.Machine

/-! ## Encoding -/

/-- R57 to R63: decoding an encoded instruction gives it back, with every operand at every value. -/
def Obligations.DecodeOfEncode : Prop := ∀ i : Instr, decode (encode i) = .ok i

/-- R61 to R65: each code has one meaning. A word or byte that decodes is exactly what its instruction encodes to, so
no bit of a must-be-zero field is overlooked. -/
def Obligations.EncodeOfDecode : Prop := ∀ (k : Code) (i : Instr), decode k = .ok i → encode i = k

/-- Words written out in 95_test_vectors.md (V-H1 to V-H3) and wire bytes of R57 to R59. -/
def Obligations.SpecWordsDecode : Prop :=
  decode (.host 0x11000000000005) = .ok (.setBrightness 5)
    ∧ decode (.host 0x1202000000007F) = .ok (.showSegment 0x7F 2)
    ∧ decode (.host 0x130000664F5B06) = .ok (.showDigits 0x06 0x5B 0x4F 0x66)
    ∧ decode (.host 0x210000FFFFFFF4) = .ok (.showNumber (BitVec.ofInt 32 (-12)))
    ∧ decode (.host 0x20000000000003) = .ok (.getSegments 3)
    ∧ decode (.host 0x0505664F5B06C0) = .ok (.write5 0xC0 0x06 0x5B 0x4F 0x66)
    ∧ decode (.host 0x11010000000005) = .error (.auxNotZero 1)
    ∧ decode (.host 0x05010000004140) = .error .dataNotZero
    ∧ decode (.host 0x05060000000000) = .error (.badLength 6)
    ∧ decode (.wireCommand 0x44) = .ok .datacmdFixed
    ∧ decode (.wireCommand 0xC2) = .ok (.addrcmd 2)
    ∧ decode (.wireCommand 0x8C) = .ok (.dispctrlOn 4)

/-! ## Steps -/

/-- When the host's next word, or the next byte on the shared wires, decodes to `i`, a step is `exec i`; around it the
step only takes the word (R79: OPR, UPC, BUSY) or the byte. A byte that decodes to nothing (a reserved command) makes
every element of the display UNKNOWN (R44, last line) and changes nothing else. The model's choices here: one step is
the whole of `exec i`, where R79 to R81 have one step for each event (log entry 7); foreign bytes stand in a list that
the display takes byte by byte (log entries 14, 15); and they come first, even while BUSY or with a word presented (log
entry 21). -/
def Obligations.StepRunsDecoded : Prop :=
  ∀ s : State, s.rst = false →
    (∀ i w ws, s.wireIn = [] → s.busy = false → s.host = w :: ws → decode (.host w) = .ok i →
      step s = exec i { s with host := ws, opr := w, upc := 0, busy := true, rsp := none })
    ∧ (∀ i b bs, s.wireIn = b :: bs →
        decode (if s.display.phase = .command then .wireCommand b else .wirePayload b) = .ok i →
        step s = exec i { s with wireIn := bs })
    ∧ (∀ r b bs, s.wireIn = b :: bs →
        decode (if s.display.phase = .command then .wireCommand b else .wirePayload b) = .error r →
        ∃ t, step s = .next t ∧ t = { s with wireIn := bs, display := t.display } ∧ AllUnknown t.display)

/-- R64: an illegal word (one that decodes to nothing, or to a transport operation while TRANSPORT_OPS_ENABLE = 0) is
accepted and completes at once with no event and response 0x00. (That an illegal word is not refused is the spec's
decision D4, log entry 8; that OPR and UPC stand after completion as acceptance wrote them is log entry 4.) -/
def Obligations.IllegalWordIsEmpty : Prop :=
  ∀ (s : State) (w : HostWord) (ws : List HostWord),
    s.rst = false → s.wireIn = [] → s.busy = false → s.host = w :: ws →
    (∀ i, decode (.host w) = .ok i → i.isTransport = true ∧ s.cfg.transportOpsEnable = false) →
    step s = .next { s with host := ws, opr := w, upc := 0, busy := false, rsp := some 0x00 }

/-- R79, R80, R81: while BUSY = 1 a step accepts no word; it issues exactly the event `expand(OPR)[UPC]` if that is
enabled, and completes with the response byte when UPC is the length of the expansion. (That completion leaves OPR and
UPC as they are is log entry 4.) -/
def Obligations.SequencerSteps : Prop :=
  ∀ s : State, s.rst = false → s.wireIn = [] → s.busy = true →
    (∀ e, (expandWord s.cfg s.opr)[s.upc]? = some e → (e = .tw → s.tmrExpired = true) →
      ∃ t, step s = .next t ∧ t.trace = s.trace ++ [e] ∧ t.upc = s.upc + 1 ∧ t.busy = true ∧ t.rsp = none
        ∧ t.host = s.host ∧ t.opr = s.opr)
    ∧ (s.upc = (expandWord s.cfg s.opr).length →
      step s = .next { s with busy := false, rsp := some (responseWord s.cfg s.opr) })

/-- R72: at TW with TMR_EXPIRED = 1 the event is issued and changes nothing but UPC, TRACE and the response pulse; with
TMR_EXPIRED = 0 it is not issued: what happens is the timer's expiry, if the running countdown elapses. -/
def Obligations.TimerHolds : Prop :=
  ∀ s : State, s.rst = false → s.wireIn = [] → s.busy = true → (expandWord s.cfg s.opr)[s.upc]? = some .tw →
    (s.tmrExpired = true →
      step s = .next { s with traceRev := .tw :: s.traceRev, upc := s.upc + 1, rsp := none })
    ∧ (∀ d, s.tmrExpired = false → s.tmrCount = some d → TimerFair s →
      step s = .next { s with tmrExpired := true, tmrCount := none })

/-- R72, R147: if the timer never expires, the block stays BUSY at that TW for ever and nothing of it changes; R143, U3:
the display is left UNKNOWN. -/
def Obligations.HeldForever : Prop :=
  ∀ (s : State) (n : Nat), s.rst = false → s.wireIn = [] → s.busy = true →
    (expandWord s.cfg s.opr)[s.upc]? = some .tw → s.tmrExpired = false → s.tmrFuture = some 0 →
    ∃ t, Sys2Proof.core.run (n + 1) s = .next t ∧ t = { s with display := t.display } ∧ AllUnknown t.display

/-- R143, R147, U3: an operation that is begun when the timer has stopped is held at its first TW: the events up to it
are issued, no response is given, the block stays BUSY, and the display is UNKNOWN. -/
def Obligations.StoppedTimerUnknown : Prop :=
  ∀ (i : Instr) (s : State), i.isHost = true → expand s.cfg i ≠ [] → s.busy = true → s.tmrFuture = some 0 →
    ∃ t es rest, exec i s = .next t ∧ expand s.cfg i = es ++ .tw :: rest ∧ .tw ∉ es ∧ t.trace = s.trace ++ es
      ∧ t.upc = s.upc + es.length ∧ t.busy = true ∧ t.rsp = none ∧ t.tmrExpired = false ∧ AllUnknown t.display

/-- R79 to R81 and R25: the meaning of a host operation is where the sequencer's own steps and the timer's, taken one at
a time from the accepted state, end: no further such step changes that state, and either the operation is over (R81) or
the sequencer is held at a TW by a timer that has no step (R147). (That one step of the machine is this whole run is
log entry 7.) -/
def Obligations.ExecIsSequencerRun : Prop :=
  ∀ (s : State) (i : Instr), decode (.host s.opr) = .ok i → s.busy = true → s.upc = 0 →
    ∃ t n, exec i s = .next t ∧ (∀ m, n ≤ m → s.sequencerRun m = t)
      ∧ ((t.busy = false ∧ t.upc = (expandWord s.cfg s.opr).length)
        ∨ (t.busy = true ∧ (expandWord s.cfg s.opr)[t.upc]? = some .tw ∧ t.tmrExpired = false
          ∧ t.timerStep = none))

/-- R38: the host's words, legal or not, leave in TRACE the concatenation of their expansions in acceptance order. -/
def Obligations.ProgramTrace : Prop :=
  ∀ (ws : List HostWord) (s : State), TimerFair s → s.rst = false → s.wireIn = [] → s.busy = false → s.host = ws →
    ∃ t, Sys2Proof.core.run ws.length s = .next t ∧ t.busy = false ∧ t.host = []
      ∧ t.trace = s.trace ++ ws.flatMap (expandWord s.cfg)

/-- R29: with no word presented the block waits. -/
def Obligations.IdleWaits : Prop :=
  ∀ s : State, s.rst = false → s.wireIn = [] → s.busy = false → s.host = [] →
    step s = .next { s with rsp := none }

/-- R110: "No operation, with any operand, in any state, traps, aborts, reports an error, or stops early." Every step
and every meaning answers a next state; with a timer that expires, a host operation issues every one of its events
and completes, and its response is that of R68 whatever the state. -/
def Obligations.NoException : Prop :=
  (∀ s : State, ∃ t, step s = .next t)
    ∧ ∀ (i : Instr) (s : State), (∃ t, exec i s = .next t)
      ∧ (i.isHost = true → TimerFair s → ∃ t, exec i s = .next t ∧ t.busy = false
          ∧ t.trace = s.trace ++ expand s.cfg i ∧ t.rsp = some (response s.cfg i))

/-! ## Reset -/

/-- R29: what reset leaves, of the values the spec gives (OPR, UPC and TMR_EXPIRED are not among them). -/
def Obligations.ResetValues : Prop :=
  State.reset.clk = true ∧ State.reset.dio = true ∧ State.reset.busy = false ∧ State.reset.trace = []
    ∧ AllUnknown State.reset.display ∧ State.reset.cfg.qUs = 5 ∧ State.reset.cfg.bitOrder = .lsbFirst
    ∧ State.reset.cfg.transportOpsEnable = false

/-- R115, R131, R132: reset overrides everything, in mid-operation too: the latches take the reset level without an
event, no response is given, TRACE is empty and the ghost display is UNKNOWN. (That a reset in mid-operation is given
this effect, which D7 says a model should refuse, is log entry 19.) -/
def Obligations.ResetOverrides : Prop :=
  ∀ s : State, s.rst = true → ∃ t, step s = .next t ∧ t.clk = s.cfg.pinResetLevel ∧ t.dio = s.cfg.pinResetLevel
    ∧ t.busy = false ∧ t.trace = [] ∧ t.rsp = none ∧ AllUnknown t.display ∧ t.cfg = s.cfg ∧ t.host = s.host

/-! ## Primitive events and formats -/

/-- R70: a pin event drives its line to its level and is recorded whether or not the level changes; nothing else of
the block changes, and a failure, reported (R28) or not (R146; log entry 29), changes nothing in it. -/
def Obligations.PinEvents : Prop :=
  ∀ (s : State) (p : Pin),
    let t := s.emit (.pin p)
    t.clk = (match p with | .c0 => false | .c1 => true | .d0 => s.clk | .d1 => s.clk)
      ∧ t.dio = (match p with | .d0 => false | .d1 => true | .c0 => s.dio | .c1 => s.dio)
      ∧ t.trace = s.trace ++ [.pin p] ∧ t.busy = s.busy ∧ t.opr = s.opr ∧ t.upc = s.upc
      ∧ t.tmrExpired = s.tmrExpired ∧ t.tmrCount = s.tmrCount
      ∧ ∀ a b x y, let u := State.emit (.pin p) { s with clkFault := a, dioFault := b, clkBroken := x, dioBroken := y }
        u.clk = t.clk ∧ u.dio = t.dio ∧ u.trace = t.trace ∧ u.upc = t.upc ∧ u.tmrExpired = t.tmrExpired

/-- R71: `TS(d)` clears TMR_EXPIRED, starts a countdown of `d` and is recorded, pins untouched; every `TS` an
operation issues has `d = Q_US` and is followed immediately by `TW`. (In a state where a countdown already runs, which
R71 says cannot occur, that the new countdown takes the old one's place is the model's choice: log entry 30.) -/
def Obligations.TimerStarts : Prop :=
  (∀ (s : State) (d : Nat), State.emit (.ts d) s =
    { s with tmrExpired := false, tmrCount := some d, traceRev := .ts d :: s.traceRev, rsp := none })
    ∧ ∀ (c : Config) (i : Instr) (k d : Nat), (expand c i)[k]? = some (.ts d) →
      d = c.qUs ∧ (expand c i)[k + 1]? = some .tw

/-- R52, R53: a bit cell is six slots and nine events, an acknowledgement slot seven slots and eleven events; the
levels of CLK and DIO after each slot are the tables' from every state before. The data line changes in slot 3 of a bit
cell only, under a low clock, and holds `v` at slot 5; the acknowledgement slot has no data event. -/
def Obligations.FormatLevels : Prop :=
  ∀ (c : Config) (clk dio v : Bool),
    let W := [Event.ts c.qUs, .tw]
    let cell := [[Event.pin .c0], W, [.pin (if v then .d1 else .d0)], W, [.pin .c1], W]
    let ack := [[Event.pin .c0], W, [.pin .c1], W, W, [.pin .c0], W]
    let after := fun (slots : List (List Event)) k => levelsFrom clk dio (slots.take k).flatten
    bitCell c v = cell.flatten
      ∧ [1, 2, 3, 4, 5, 6].map (after cell)
        = [(false, dio), (false, dio), (false, v), (false, v), (true, v), (true, v)]
      ∧ (bitCell c v).length = 9 ∧ (pinsOf (bitCell c v)).length = 3 ∧ quanta (bitCell c v) = 3
      ∧ ackSlot c = ack.flatten
      ∧ [1, 2, 3, 4, 5, 6, 7].map (after ack)
        = [(false, dio), (false, dio), (true, dio), (true, dio), (true, dio), (false, dio), (false, dio)]
      ∧ (ackSlot c).length = 11 ∧ (pinsOf (ackSlot c)).length = 3 ∧ quanta (ackSlot c) = 4
      ∧ ∀ p ∈ pinsOf (ackSlot c), p ≠ .d0 ∧ p ≠ .d1

/-- R83: pin events, DELAYs and primitive events of every format and of every operation of the command and presentation
layers (and of WRITE, at any length, as TXNFRAME); no expansion is longer than 522 events; R84: the least duration is
Q_US times the number of DELAYs. -/
def Obligations.ExpansionSizes : Prop :=
  ∀ c : Config,
    let size := fun es : List Event => ((pinsOf es).length, quanta es, es.length)
    size (delaySeq c) = (0, 1, 2) ∧ size (startSeq c) = (1, 1, 3) ∧ size (stopSeq c) = (3, 3, 9)
    ∧ (∀ v, size (bitCell c v) = (3, 3, 9)) ∧ size (ackSlot c) = (3, 4, 11)
    ∧ (∀ b, size (byteFrame c b) = (27, 28, 83))
    ∧ (∀ bs, size (txnFrame c bs) = (4 + 27 * bs.length, 4 + 28 * bs.length, 12 + 83 * bs.length))
    ∧ (∀ level, size (expand c (.setBrightness level)) = (31, 32, 95))
    ∧ (∀ v pos, size (expand c (.showSegment v pos)) = if 3 < pos.toNat then (0, 0, 0) else (89, 92, 273))
    ∧ (∀ s0 s1 s2 s3, size (expand c (.showDigits s0 s1 s2 s3)) = (170, 176, 522))
    ∧ (∀ n, size (expand c (.showNumber n)) = (170, 176, 522))
    ∧ (∀ level, size (expand c (.encBrightness level)) = (0, 0, 0))
    ∧ (∀ digit, size (expand c (.getSegments digit)) = (0, 0, 0))
    ∧ (∀ i, (expand c i).length ≤ 522 ∧ leastMicros (expand c i) = c.qUs * quanta (expand c i))

/-- R84: between any two pin events of an operation there is a complete DELAY; and so in TRACE, across operations and
resets: a step from a state with the pacing invariant leaves a TRACE with that spacing. -/
def Obligations.TraceIsSpaced : Prop :=
  (∀ (c : Config) (i : Instr), Spaced c.qUs (expand c i))
    ∧ ∀ s t : State, PacingInv s → step s = .next t → Spaced t.cfg.qUs t.trace

/-! ## Transport operations from the host -/

/-- R62, R64: with TRANSPORT_OPS_ENABLE = 0 each of the transport operations is an empty operation with response
0x00. -/
def Obligations.TransportDisabled : Prop :=
  ∀ (i : Instr) (s : State), i.isTransport = true → s.cfg.transportOpsEnable = false →
    exec i s = .next { s with busy := false, rsp := some 0x00 }

/-- R73: DELAY issues `TS(Q_US)`, `TW`, and changes neither line nor the display. -/
def Obligations.DelayRuns : Prop :=
  ∀ s : State, TimerFair s → s.cfg.transportOpsEnable = true →
    ∃ t, exec .delay s = .next t ∧ Ran [.ts s.cfg.qUs, .tw] 0x00 s t ∧ WireKept s t

/-- R74: START drives DIO low and waits one quantum, whatever the state. A start condition appears only from idle-high
(corner cases (a), (b)); no cell of the display changes but by R142: a START right after a START leaves the display
UNKNOWN at once, and one after a WRITE_BYTE as soon as the next request shows that it was no STOP (log entry 16). A failed
request, reported or not, leaves the display UNKNOWN (R112, R146; log entries 18, 29). -/
def Obligations.StartRuns : Prop :=
  ∀ s : State, TimerFair s → s.cfg.transportOpsEnable = true →
    ∃ t, exec .start s = .next t ∧ Ran [.pin .d0, .ts s.cfg.qUs, .tw] 0x00 s t ∧ t.clk = s.clk ∧ t.dio = false
      ∧ (s.dioFault = false → s.dioBroken = false → t.wireLost = s.wireLost
          ∧ ((∀ ps, s.rx = some ps → breaksBracket ps .d0 = false) → t.display = s.display)
          ∧ (s.rx = some [.d0] → AllUnknown t.display)
          ∧ t.rx = match s.rx with
            | some ps => some (.d0 :: ps)
            | none => if s.clk = true ∧ s.dio = true then some [.d0] else none)
      ∧ (s.dioFault = true ∨ s.dioBroken = true → AllUnknown t.display ∧ t.wireLost = true)

/-- R75: STOP's events; whatever the state before, both lines are high after it and no transaction is open. In an open
transaction, at either level of the clock, the display takes the bytes that R45 reads off the wire (R44), after having
become UNKNOWN if the request before it was a second START's (R142; log entry 16). Right after a START (R77 corner case
(a)) that is an empty transaction and the display is UNKNOWN. With no transaction open the display is UNKNOWN: from
idle-high it is an empty transaction (corner case (b), V-T6), otherwise a STOP without a START (R142). -/
def Obligations.StopRuns : Prop :=
  ∀ s : State, TimerFair s → s.cfg.transportOpsEnable = true →
    let q := s.cfg.qUs
    ∃ t, exec .stop s = .next t
      ∧ Ran [.pin .d0, .ts q, .tw, .pin .c1, .ts q, .tw, .pin .d1, .ts q, .tw] 0x00 s t
      ∧ t.clk = true ∧ t.dio = true ∧ t.rx = none
      ∧ (∀ ps, PinsSound s → s.rx = some ps → s.wireLost = false →
          let d := if breaksBracket ps .d0 then s.display.forget else s.display
          t.wireLost = false ∧ t.display = d.takeTxn (decodeTxn s.cfg (ps.reverse ++ [.d0, .c1, .d1])))
      ∧ (s.rx = some [.d0] → AllUnknown t.display)
      ∧ (s.rx = none → AllUnknown t.display)

/-- R76: WRITE_BYTE sends eight bit cells, bit 0 first (LSB_FIRST), then the acknowledgement slot; the clock ends low
and DIO at the last bit sent. Inside a transaction the display is untouched, unless a second START came right before
(R142); outside one it is UNKNOWN (R142; log entry 16). -/
def Obligations.WriteByteRuns : Prop :=
  ∀ (b : Byte) (s : State), TimerFair s → s.cfg.transportOpsEnable = true →
    let W := [Event.ts s.cfg.qUs, .tw]
    let bit := fun i => if s.cfg.bitOrder = .lsbFirst then b.getLsbD i else b.getLsbD (7 - i)
    let cell := fun i => [Event.pin .c0] ++ W ++ [.pin (if bit i then .d1 else .d0)] ++ W ++ [.pin .c1] ++ W
    ∃ t, exec (.writeByte b) s = .next t
      ∧ Ran (cell 0 ++ cell 1 ++ cell 2 ++ cell 3 ++ cell 4 ++ cell 5 ++ cell 6 ++ cell 7
          ++ [.pin .c0] ++ W ++ [.pin .c1] ++ W ++ W ++ [.pin .c0] ++ W) 0x00 s t
      ∧ t.clk = false ∧ t.dio = bit 7
      ∧ (∀ p ps, PinsSound s → s.rx = some (p :: ps) →
          t.wireLost = s.wireLost ∧ t.rx ≠ none
            ∧ t.display = if breaksBracket (p :: ps) .c0 then s.display.forget else s.display)
      ∧ (s.rx = none → t.rx = none ∧ AllUnknown t.display)

/-- R142, R45, R44: a second START inside the bracket, before the first byte or between two bytes, makes every element
of the display UNKNOWN; the transaction is no less read as R45 says, and has R44's effect on what is then UNKNOWN: with
the one byte 0x44, AMODE alone is known after it. (That R142 comes first and R44 after it is log entry 16.) -/
def Obligations.SecondStartUnknown : Prop :=
  ∀ (b b' : Byte) (s : State), TimerFair s → s.cfg.transportOpsEnable = true → WireGood s →
    ∃ t u, execAll [.start, .start, .writeByte b, .stop] s = .next t
      ∧ execAll [.start, .writeByte b, .start, .writeByte b', .stop] s = .next u
      ∧ t.display = s.display.forget.ghostUpdate [b] ∧ u.display = s.display.forget.ghostUpdate [b, b']
      ∧ WireGood t ∧ WireGood u

/-- R77: WRITE, at each of its five lengths, is START, one WRITE_BYTE per byte in order, STOP; both lines end high. -/
def Obligations.WriteRuns : Prop :=
  ∀ (i : Instr) (bs : List Byte) (s : State), writtenBytes i = some bs → TimerFair s →
    s.cfg.transportOpsEnable = true →
    ∃ t, exec i s = .next t
      ∧ Ran (startSeq s.cfg ++ bs.flatMap (byteFrame s.cfg) ++ stopSeq s.cfg) 0x00 s t
      ∧ t.clk = true ∧ t.dio = true

/-- R142 (last sentence), R67: `WRITE b0, .., b(N-1)` and `START; WRITE_BYTE b0; ..; STOP` issued one by one have the
same events and leave the wire and the display the same, from every state. -/
def Obligations.WriteIsHandBuilt : Prop :=
  ∀ (i : Instr) (bs : List Byte) (s : State), writtenBytes i = some bs → TimerFair s →
    s.cfg.transportOpsEnable = true →
    ∃ t u, exec i s = .next t ∧ execAll (.start :: bs.map .writeByte ++ [.stop]) s = .next u
      ∧ t.trace = u.trace ∧ t.clk = u.clk ∧ t.dio = u.dio ∧ t.rx = u.rx ∧ t.wireLost = u.wireLost
      ∧ t.display = u.display

/-! ## Command layer -/

/-- R90: ENC_BRIGHTNESS, from its host word on: the response for every level, no event, no state written. -/
def Obligations.EncBrightnessResult : Prop :=
  ∀ (level : Byte) (s : State),
    decode (hostCode 0x10 0 0 0 0 0 level) = .ok (.encBrightness level)
    ∧ expand s.cfg (.encBrightness level) = []
    ∧ exec (.encBrightness level) s =
      .next { s with
        busy := false,
        rsp := some (if level.toNat = 0 then 0x80
          else if level.toNat ≤ 8 then BitVec.ofNat 8 (0x88 + (level.toNat - 1)) else 0x8F) }

/-- R91 (D8): SET_BRIGHTNESS transmits the encoded control byte, alone in its transaction. R46: on a good wire DON and
DBR change and nothing else of the display, in particular no cell. -/
def Obligations.SetBrightnessTransmits : Prop :=
  ∀ (level : Byte) (s : State), TimerFair s →
    let control : Byte := if level.toNat = 0 then 0x80
      else if level.toNat ≤ 8 then BitVec.ofNat 8 (0x88 + (level.toNat - 1)) else 0x8F
    ∃ t, exec (.setBrightness level) s = .next t ∧ Ran (txnFrame s.cfg [control]) 0x00 s t
      ∧ t.clk = true ∧ t.dio = true
      ∧ (WireGood s → WireGood t ∧ (∀ a, t.cell a = s.cell a) ∧ t.display.amode = s.display.amode
          ∧ t.display.don = some (decide (level.toNat ≠ 0))
          ∧ t.display.dbr = some (BitVec.ofNat 3 (min level.toNat 8 - 1)))

/-- R92: SHOW_SEGMENT, from its host word on. With `pos > 3` it does nothing at all, and is not reported. With
`pos <= 3` it sends `[0x44]` and then `[0xC0 + pos, segment]`, 89 pin events, 92 DELAYs, 273 events; both lines are
high at the end and the response is 0x00. On a good wire it sets AMODE to FIXED and stores the pattern, uninterpreted,
at `pos`; every other cell, DON and DBR are as before. -/
def Obligations.ShowSegmentResult : Prop :=
  ∀ (segment pos : Byte) (s : State),
    decode (hostCode 0x12 pos 0 0 0 0 segment) = .ok (.showSegment segment pos)
    ∧ (3 < pos.toNat → exec (.showSegment segment pos) s = .next { s with busy := false, rsp := some 0x00 })
    ∧ (TimerFair s → pos.toNat ≤ 3 →
      let es := txnFrame s.cfg [0x44] ++ txnFrame s.cfg [BitVec.ofNat 8 (0xC0 + pos.toNat), segment]
      (pinsOf es).length = 89 ∧ quanta es = 92 ∧ es.length = 273
      ∧ ∃ t, exec (.showSegment segment pos) s = .next t ∧ Ran es 0x00 s t
        ∧ t.clk = true ∧ t.dio = true
        ∧ (WireGood s → WireGood t ∧ t.cell pos.toNat = some segment
            ∧ (∀ a, a ≠ pos.toNat → t.cell a = s.cell a)
            ∧ t.display.amode = some .fixed ∧ t.display.don = s.display.don ∧ t.display.dbr = s.display.dbr))

/-- R93 (D9): SHOW_DIGITS sends `[0x40]` and then `[0xC0, s0, s1, s2, s3]`, the patterns as given. R46: on a good wire
it stores them at positions 0 to 3; DON and DBR are as before. -/
def Obligations.ShowDigitsStores : Prop :=
  ∀ (s0 s1 s2 s3 : Byte) (s : State), TimerFair s →
    ∃ t, exec (.showDigits s0 s1 s2 s3) s = .next t
      ∧ Ran (txnFrame s.cfg [0x40] ++ txnFrame s.cfg [0xC0, s0, s1, s2, s3]) 0x00 s t
      ∧ t.clk = true ∧ t.dio = true
      ∧ (WireGood s → WireGood t
          ∧ t.cell 0 = some s0 ∧ t.cell 1 = some s1 ∧ t.cell 2 = some s2 ∧ t.cell 3 = some s3
          ∧ (∀ a, 3 < a → t.cell a = s.cell a)
          ∧ t.display.amode = some .auto ∧ t.display.don = s.display.don ∧ t.display.dbr = s.display.dbr)

/-- R36, R57 to R59, R64: whatever a command- or presentation-layer operation sends is a list of whole transactions,
each a data or display-control command alone or an address in `0xC0..0xC3` with payload that does not run past position
3; and every byte the decoder knows in command position is sent by one of them. -/
def Obligations.CommandBytesOnWire : Prop :=
  ∀ c : Config,
    (∀ i : Instr, i.isHost = true → i.isTransport = false →
      ∃ Bs : List (List Byte), expand c i = Bs.flatMap (txnFrame c) ∧ ∀ B ∈ Bs, ∃ b payload, B = b :: payload
        ∧ (((b = 0x40 ∨ b = 0x44 ∨ b = 0x80 ∨ (0x88 ≤ b.toNat ∧ b.toNat ≤ 0x8F)) ∧ payload = [])
          ∨ (0xC0 ≤ b.toNat ∧ 1 ≤ payload.length ∧ b.toNat - 0xC0 + payload.length ≤ 4)))
    ∧ ∀ (b : Byte) (j : Instr), decode (.wireCommand b) = .ok j →
      ∃ i payload pre post, i.isHost = true ∧ i.isTransport = false
        ∧ expand c i = pre ++ txnFrame c (b :: payload) ++ post

/-! ## Presentation layer -/

/-- R100: GET_SEGMENTS responds the table's entry for 0 to 9 and 0x00 for every other digit; bit 7 is 0 in every result
(R60); no event, no state written. The other seven bits of the six entries no source gives are the parameter's, whatever
it is (D14; log entry 3); where none of them is blank, a blank is no digit's pattern. -/
def Obligations.GetSegmentsResult : Prop :=
  ∀ (digit : Byte) (s : State), ∃ r, exec (.getSegments digit) s = .next { s with busy := false, rsp := some r }
    ∧ expand s.cfg (.getSegments digit) = []
    ∧ r.getLsbD 7 = false
    ∧ (digit = 0 → r = s.cfg.openSegments.d0.setWidth 8) ∧ (digit = 1 → r = 0x06) ∧ (digit = 2 → r = 0x5B)
    ∧ (digit = 3 → r = 0x4F) ∧ (digit = 4 → r = 0x66) ∧ (digit = 5 → r = s.cfg.openSegments.d5.setWidth 8)
    ∧ (digit = 6 → r = s.cfg.openSegments.d6.setWidth 8) ∧ (digit = 7 → r = s.cfg.openSegments.d7.setWidth 8)
    ∧ (digit = 8 → r = s.cfg.openSegments.d8.setWidth 8) ∧ (digit = 9 → r = s.cfg.openSegments.d9.setWidth 8)
    ∧ (9 < digit.toNat → r = 0x00)
    ∧ (s.cfg.Wf → r = 0x00 → 9 < digit.toNat)

/-- R101: DIGITS_OF is repeated truncating remainder and quotient, `d3` first; on 0..9999 it is the decimal
representation, most significant digit at `d0`. -/
def Obligations.DigitsOfNumber : Prop :=
  ∀ n : Int,
    digitsOf n = { d3 := n.tmod 10, d2 := (n.tdiv 10).tmod 10, d1 := ((n.tdiv 10).tdiv 10).tmod 10,
                   d0 := (((n.tdiv 10).tdiv 10).tdiv 10).tmod 10 }
    ∧ (0 ≤ n → n ≤ 9999 →
        digitsOf n = { d0 := n / 1000, d1 := n / 100 % 10, d2 := n / 10 % 10, d3 := n % 10 })

/-- R103, R104: above 9999 the low four decimal digits are shown; below 0 every digit is the negated digit of `-n`, so
a zero digit shows entry 0 and every other digit is blank. -/
def Obligations.DigitsOutsideRange : Prop :=
  ∀ n : Int,
    (9999 < n → digitsOf n = digitsOf (n % 10000))
    ∧ (n < 0 →
        digitsOf n = { d0 := -(digitsOf (-n)).d0, d1 := -(digitsOf (-n)).d1, d2 := -(digitsOf (-n)).d2,
                       d3 := -(digitsOf (-n)).d3 }
        ∧ ∀ c : Config, ∀ d ∈ [(digitsOf n).d0, (digitsOf n).d1, (digitsOf n).d2, (digitsOf n).d3],
            -9 ≤ d ∧ d ≤ 0 ∧ seg c d = if d = 0 then c.openSegments.d0.setWidth 8 else 0x00)

/-- R102 (D10), R103: SHOW_NUMBER, for every `n`, is SHOW_DIGITS of the patterns of its four digits, one mode command
and one five-byte transaction; on a good wire it stores them. (Negative `n` has this effect by R103 (b), which U1
lets a model refuse; log entry 10. With NUM_WIDTH = 32, R63's value, the number is the operand field as a two's
complement integer; log entry 2 for other widths.) -/
def Obligations.ShowNumberStores : Prop :=
  ∀ (n : Number) (s : State), TimerFair s →
    let v := numberOf s.cfg n
    let d := digitsOf v
    let p0 := seg s.cfg d.d0
    let p1 := seg s.cfg d.d1
    let p2 := seg s.cfg d.d2
    let p3 := seg s.cfg d.d3
    (s.cfg.numWidth = 32 → v = n.toInt)
    ∧ ∃ t, exec (.showNumber n) s = .next t
      ∧ Ran (txnFrame s.cfg [0x40] ++ txnFrame s.cfg [0xC0, p0, p1, p2, p3]) 0x00 s t
      ∧ t.clk = true ∧ t.dio = true
      ∧ (WireGood s → WireGood t
          ∧ t.cell 0 = some p0 ∧ t.cell 1 = some p1 ∧ t.cell 2 = some p2 ∧ t.cell 3 = some p3
          ∧ (∀ a, 3 < a → t.cell a = s.cell a)
          ∧ t.display.amode = some .auto ∧ t.display.don = s.display.don ∧ t.display.dbr = s.display.dbr)

/-- R60 (C3): the segments the source's own table entries light; GET_SEGMENTS lights the decimal point for no input,
whatever the six open entries are. -/
def Obligations.SegmentShapes : Prop :=
  ∀ (c : Config) (g : Segment),
    segmentLit (segLut c 1) g = decide (g ∈ [.topRight, .bottomRight])
    ∧ segmentLit (segLut c 2) g = decide (g ∈ [.top, .topRight, .bottom, .bottomLeft, .middle])
    ∧ segmentLit (segLut c 3) g = decide (g ∈ [.top, .topRight, .bottomRight, .bottom, .middle])
    ∧ segmentLit (segLut c 4) g = decide (g ∈ [.topRight, .bottomRight, .topLeft, .middle])
    ∧ ∀ digit : Int, segmentLit (seg c digit) .decimalPoint = false

/-! ## The display -/

/-- R57, R59, R44: the data and display-control commands, as the display takes them on a wire that can be trusted: each
changes its own elements and nothing else of the state. R44 gives the effect to a complete transaction of that one
byte; that a command acts when it is taken, that its meaning does not look at its place, that the place is kept in
`phase`, and that bytes to follow find the display past a command that stands alone are log entry 14; that the last
byte of `wireIn` ends the transaction is log entry 15. -/
def Obligations.WireCommandsAct : Prop :=
  ∀ s : State, s.wireLost = false →
    let after := if s.wireIn = [] then Phase.command else .closed
    exec .datacmdAuto s = .next { s with display := { s.display with amode := some .auto, phase := after } }
    ∧ exec .datacmdFixed s = .next { s with display := { s.display with amode := some .fixed, phase := after } }
    ∧ exec .dispctrlOff s =
      .next { s with display := { s.display with don := some false, dbr := some 0, phase := after } }
    ∧ ∀ f, exec (.dispctrlOn f) s =
      .next { s with display := { s.display with don := some true, dbr := some f, phase := after } }

/-- R58, R44: an address command with a payload to follow selects its position; with AMODE UNKNOWN, or with nothing
to follow, every element is UNKNOWN. R44 speaks of complete transactions: the selected position as a `phase`, and
everything UNKNOWN already at the address byte, are log entry 14; where the transaction ends is log entry 15. -/
def Obligations.WireAddressSelects : Prop :=
  ∀ (a : BitVec 2) (s : State), s.wireLost = false →
    (s.wireIn ≠ [] → s.display.amode ≠ none →
      exec (.addrcmd a) s = .next { s with display := { s.display with phase := .data a.toNat 0 } })
    ∧ (s.wireIn = [] ∨ s.display.amode = none → ∃ d, exec (.addrcmd a) s = .next { s with display := d }
        ∧ AllUnknown d)

/-- R60, R44: a payload pattern is stored at the selected position, one in fixed mode, up to position 3 in
auto-increment mode; all other cells are as before. Anything else leaves every element UNKNOWN. R44 speaks of complete
transactions: storing at the payload byte, before the transaction is complete, and the position and count held in
`phase` are log entry 14; where the transaction ends is log entry 15. -/
def Obligations.WirePatternStores : Prop :=
  ∀ (v : Byte) (s : State), s.wireLost = false →
    (∀ next count, s.display.phase = .data next count → next ≤ 3 →
      (s.display.amode = some .auto ∨ (s.display.amode = some .fixed ∧ count = 0)) →
      ∃ t, exec (.segpat v) s = .next t ∧ t = { s with display := t.display }
        ∧ t.cell next = some v ∧ (∀ a, a ≠ next → t.cell a = s.cell a)
        ∧ t.display.don = s.display.don ∧ t.display.dbr = s.display.dbr ∧ t.display.amode = s.display.amode
        ∧ t.display.phase = if s.wireIn = [] then .command else .data (next + 1) (count + 1))
    ∧ ((∀ next count, s.display.phase = .data next count →
          3 < next ∨ s.display.amode = none ∨ (s.display.amode = some .fixed ∧ 0 < count)) →
        ∃ t, exec (.segpat v) s = .next t ∧ t = { s with display := t.display } ∧ AllUnknown t.display)

/-- R112: while the wire cannot be trusted no wire byte makes anything known. -/
def Obligations.WireLostStaysUnknown : Prop :=
  ∀ (i : Instr) (s : State), i.isHost = false → s.wireLost = true →
    ∃ t, exec i s = .next t ∧ t = { s with display := t.display } ∧ AllUnknown t.display

/-- R44: taking a transaction byte by byte is R44's table, for every byte list and every display. -/
def Obligations.BytewiseIsTable : Prop :=
  ∀ (B : List Byte) (d : Display), d.takeTxn (some B) = d.ghostUpdate B

/-- R45, R54, R55: a transaction is read back as exactly the bytes WRITE was given, and keeps R142's bracket. (For
MSB_FIRST the reading is the model's: log entry 17.) -/
def Obligations.TransactionReadsBack : Prop :=
  ∀ (c : Config) (bs : List Byte), bs ≠ [] →
    decodeTxn c (pinsOf (txnFrame c bs)) = some bs ∧ keepsBracket [] (pinsOf (txnFrame c bs)) = true

/-- R46, R85: on a good wire every host operation but START, STOP and WRITE_BYTE leaves a good wire and has exactly
the ghost effect of the transactions it is made of. -/
def Obligations.OperationsDeliver : Prop :=
  ∀ (i : Instr) (s : State), i.isHost = true → i.legal s.cfg = true →
    (i ≠ .start ∧ i ≠ .stop ∧ ∀ b, i ≠ .writeByte b) → TimerFair s → WireGood s →
    ∃ t, exec i s = .next t ∧ WireGood t
      ∧ t.display = (transactions s.cfg i).foldl (fun d B => d.ghostUpdate B) s.display

/-- 95_test_vectors.md P5, R45, R141: a transmitting operation (SET_BRIGHTNESS, SHOW_SEGMENT with `pos <= 3`,
SHOW_DIGITS, SHOW_NUMBER, and WRITE where it is enabled) begun with the clock low and no transaction open puts no start
condition on the wire for its first transaction; it completes as ever, with both lines high and no transaction open,
and the ghost display is UNKNOWN. -/
def Obligations.BrokenFramingUnknown : Prop :=
  ∀ (i : Instr) (s : State), i.isHost = true → i.legal s.cfg = true → transactions s.cfg i ≠ [] →
    TimerFair s → s.rx = none → s.clk = false →
    ∃ t, exec i s = .next t ∧ Ran (expand s.cfg i) 0x00 s t ∧ t.clk = true ∧ t.dio = true ∧ t.rx = none
      ∧ starts s.clk s.dio (pinsOf (expand s.cfg i)) + 1 = (transactions s.cfg i).length
      ∧ AllUnknown t.display

/-- R112, R146: an operation that asks something of a pin that fails, whether the pin reports it or not, runs as ever
(R110) and leaves the display UNKNOWN and the wire untrusted; no later step makes the wire trusted again (log entries
18 and 29), so that by `StepKeepsUnknown` nothing becomes known again. -/
def Obligations.PinFailureIsSilent : Prop :=
  (∀ (i : Instr) (p : Pin) (s : State), i.isHost = true → TimerFair s → p ∈ pinsOf (expand s.cfg i) →
    ((p = .c0 ∨ p = .c1) ∧ (s.clkFault = true ∨ s.clkBroken = true)
      ∨ (p = .d0 ∨ p = .d1) ∧ (s.dioFault = true ∨ s.dioBroken = true)) →
    ∃ t, exec i s = .next t ∧ Ran (expand s.cfg i) (response s.cfg i) s t ∧ t.wireLost = true
      ∧ AllUnknown t.display)
  ∧ ∀ s t : State, s.wireLost = true → step s = .next t → t.wireLost = true

/-- R28, R112, R145, R146: what the block does depends neither on pin failures, reported or not, nor on anything of the
display or the wire. -/
def Obligations.BlockIgnoresOutside : Prop :=
  ∀ (i : Instr) (s : State) (a b x y lost : Bool) (r : Option (List Pin)) (d : Display), i.isHost = true →
    ∃ t u, exec i s = .next t
      ∧ exec i { s with
          clkFault := a, dioFault := b, clkBroken := x, dioBroken := y, wireLost := lost, rx := r, display := d } = .next u
      ∧ t.trace = u.trace ∧ t.clk = u.clk ∧ t.dio = u.dio ∧ t.busy = u.busy ∧ t.opr = u.opr ∧ t.upc = u.upc
      ∧ t.rsp = u.rsp ∧ t.tmrExpired = u.tmrExpired ∧ t.tmrCount = u.tmrCount

/-- R35: an operation's transmission depends on nothing but its operands and the parameters: from any two states the
same events, and twice in a row the same events twice. -/
def Obligations.SameOperationSameEvents : Prop :=
  ∀ (i : Instr) (s s' : State), i.isHost = true → s.cfg = s'.cfg → TimerFair s → TimerFair s' →
    ∃ es t t' t2, exec i s = .next t ∧ exec i s' = .next t' ∧ exec i t = .next t2
      ∧ t.trace = s.trace ++ es ∧ t'.trace = s'.trace ++ es ∧ t2.trace = s.trace ++ es ++ es

/-! ## Invariants -/

/-- R5: "None can be changed while the block runs": no step changes a parameter. -/
def Obligations.StepKeepsConfig : Prop := ∀ s t : State, step s = .next t → t.cfg = s.cfg

/-- R30, R36: the memory keeps its canonical form and lists no position but 0 to 3. -/
def Obligations.StepKeepsMemory : Prop := ∀ s t : State, MemoryInv s → step s = .next t → MemoryInv t

/-- R20, R21, R26: CLK and DIO are always the levels last asked for in TRACE. -/
def Obligations.StepKeepsLevels : Prop := ∀ s t : State, LevelsInv s → step s = .next t → LevelsInv t

/-- R84: TRACE, with what the operation in progress has still to issue, stays paced, across operations too. -/
def Obligations.StepKeepsPacing : Prop := ∀ s t : State, PacingInv s → step s = .next t → PacingInv t

/-- R85 (a): with TRANSPORT_OPS_ENABLE = 0 both lines are high before and after every operation. -/
def Obligations.StepKeepsIdleHigh : Prop := ∀ s t : State, IdleHighInv s → step s = .next t → IdleHighInv t

/-- R24: UPC never exceeds the length of the expansion. -/
def Obligations.StepKeepsUpc : Prop := ∀ s t : State, UpcInv s → step s = .next t → UpcInv t

/-- R112, R146: from the first failed request on the ghost display is UNKNOWN. -/
def Obligations.StepKeepsUnknown : Prop := ∀ s t : State, UnknownInv s → step s = .next t → UnknownInv t

/-- Each of the invariants holds right after reset. -/
def Obligations.InvariantsAtReset : Prop :=
  MemoryInv State.reset ∧ LevelsInv State.reset ∧ PacingInv State.reset ∧ IdleHighInv State.reset
    ∧ UpcInv State.reset ∧ UnknownInv State.reset
end

