-- ==== Sys2Proof/Laws/Encoding.lean ====
section
/-! SUPPORT. The host word is exactly its seven fields, and a number exactly its four bytes. -/
namespace Sys2Proof

theorem splitHost_joinHost (f : HostFields) : splitHost (joinHost f) = f := by
  obtain ⟨op, aux, b4, b3, b2, b1, b0⟩ := f
  simp only [splitHost, joinHost, HostFields.mk.injEq]
  refine ⟨?_, ?_, ?_, ?_, ?_, ?_, ?_⟩ <;>
    (apply BitVec.eq_of_getLsbD_eq; intro i hi
     simp only [BitVec.getLsbD_extractLsb', BitVec.getLsbD_append]
     simp only [hi, decide_true, Bool.true_and]
     repeat' split
     all_goals first | omega | (congr 1; omega))

theorem joinHost_splitHost (w : HostWord) : joinHost (splitHost w) = w := by
  simp only [splitHost, joinHost]
  apply BitVec.eq_of_getLsbD_eq
  intro i hi
  simp only [BitVec.getLsbD_append, BitVec.getLsbD_extractLsb']
  repeat' split
  all_goals
    rw [decide_eq_true (by omega), Bool.true_and]
    congr 1
    omega

theorem numberOfBytes_extract (n : Number) :
    numberOfBytes (n.extractLsb' 0 8) (n.extractLsb' 8 8) (n.extractLsb' 16 8) (n.extractLsb' 24 8) = n := by
  simp only [numberOfBytes]
  apply BitVec.eq_of_getLsbD_eq
  intro i hi
  simp only [BitVec.getLsbD_append, BitVec.getLsbD_extractLsb']
  repeat' split
  all_goals
    rw [decide_eq_true (by omega), Bool.true_and]
    congr 1
    omega

theorem extract_numberOfBytes (b0 b1 b2 b3 : Byte) :
    (numberOfBytes b0 b1 b2 b3).extractLsb' 0 8 = b0 ∧ (numberOfBytes b0 b1 b2 b3).extractLsb' 8 8 = b1
      ∧ (numberOfBytes b0 b1 b2 b3).extractLsb' 16 8 = b2 ∧ (numberOfBytes b0 b1 b2 b3).extractLsb' 24 8 = b3 := by
  refine ⟨?_, ?_, ?_, ?_⟩ <;>
    (apply BitVec.eq_of_getLsbD_eq; intro i hi
     simp only [numberOfBytes, BitVec.getLsbD_extractLsb', BitVec.getLsbD_append]
     simp only [hi, decide_true, Bool.true_and]
     repeat' split
     all_goals first | omega | (congr 1; omega))

/-! ## What each part of the decoder accepts -/

/-- A guarded answer is accepted only where the guard does not hold. -/
theorem guard_ok {p : Prop} [Decidable p] {e : Reject} {d : Decoded} {j : Instr}
    (h : (if p then .error e else d) = .ok j) : ¬p ∧ d = .ok j := by
  by_cases hp : p
  · rw [if_pos hp] at h
    cases h
  · exact ⟨hp, by rwa [if_neg hp] at h⟩

theorem decodeBare_ok {f : HostFields} {i j : Instr} (h : decodeBare f i = .ok j) :
    j = i ∧ f.aux = 0 ∧ f.b4 = 0 ∧ f.b3 = 0 ∧ f.b2 = 0 ∧ f.b1 = 0 ∧ f.b0 = 0 := by
  obtain ⟨ha, h⟩ := guard_ok h
  obtain ⟨hb, h⟩ := guard_ok h
  simp only [not_or, Decidable.not_not, ne_eq] at ha hb
  exact ⟨(Decoded.ok.inj h).symm, ha, hb⟩

theorem decodeByte_ok {f : HostFields} {i : Byte → Instr} {j : Instr} (h : decodeByte f i = .ok j) :
    j = i f.b0 ∧ f.aux = 0 ∧ f.b4 = 0 ∧ f.b3 = 0 ∧ f.b2 = 0 ∧ f.b1 = 0 := by
  obtain ⟨ha, h⟩ := guard_ok h
  obtain ⟨hb, h⟩ := guard_ok h
  simp only [not_or, Decidable.not_not, ne_eq] at ha hb
  exact ⟨(Decoded.ok.inj h).symm, ha, hb⟩

theorem decodeShowSegment_ok {f : HostFields} {j : Instr} (h : decodeShowSegment f = .ok j) :
    j = .showSegment f.b0 f.aux ∧ f.b4 = 0 ∧ f.b3 = 0 ∧ f.b2 = 0 ∧ f.b1 = 0 := by
  obtain ⟨hb, h⟩ := guard_ok h
  simp only [not_or, Decidable.not_not, ne_eq] at hb
  exact ⟨(Decoded.ok.inj h).symm, hb⟩

theorem decodeQuad_ok {f : HostFields} {i : Byte → Byte → Byte → Byte → Instr} {j : Instr}
    (h : decodeQuad f i = .ok j) : j = i f.b0 f.b1 f.b2 f.b3 ∧ f.aux = 0 ∧ f.b4 = 0 := by
  obtain ⟨ha, h⟩ := guard_ok h
  obtain ⟨hb, h⟩ := guard_ok h
  simp only [Decidable.not_not, ne_eq] at ha hb
  exact ⟨(Decoded.ok.inj h).symm, ha, hb⟩

/-- A write word's length is one of the five, and the bytes beyond it are zero (R63). -/
theorem decodeWrite_ok {f : HostFields} {j : Instr} (h : decodeWrite f = .ok j) :
    (f.aux = 1 ∧ j = .write1 f.b0 ∧ f.b4 = 0 ∧ f.b3 = 0 ∧ f.b2 = 0 ∧ f.b1 = 0)
      ∨ (f.aux = 2 ∧ j = .write2 f.b0 f.b1 ∧ f.b4 = 0 ∧ f.b3 = 0 ∧ f.b2 = 0)
      ∨ (f.aux = 3 ∧ j = .write3 f.b0 f.b1 f.b2 ∧ f.b4 = 0 ∧ f.b3 = 0)
      ∨ (f.aux = 4 ∧ j = .write4 f.b0 f.b1 f.b2 f.b3 ∧ f.b4 = 0)
      ∨ (f.aux = 5 ∧ j = .write5 f.b0 f.b1 f.b2 f.b3 f.b4) := by
  unfold decodeWrite at h
  by_cases h1 : f.aux = 1
  · rw [if_pos h1] at h
    obtain ⟨hb, h⟩ := guard_ok h
    simp only [not_or, Decidable.not_not, ne_eq] at hb
    exact .inl ⟨h1, (Decoded.ok.inj h).symm, hb⟩
  rw [if_neg h1] at h
  by_cases h2 : f.aux = 2
  · rw [if_pos h2] at h
    obtain ⟨hb, h⟩ := guard_ok h
    simp only [not_or, Decidable.not_not, ne_eq] at hb
    exact .inr (.inl ⟨h2, (Decoded.ok.inj h).symm, hb⟩)
  rw [if_neg h2] at h
  by_cases h3 : f.aux = 3
  · rw [if_pos h3] at h
    obtain ⟨hb, h⟩ := guard_ok h
    simp only [not_or, Decidable.not_not, ne_eq] at hb
    exact .inr (.inr (.inl ⟨h3, (Decoded.ok.inj h).symm, hb⟩))
  rw [if_neg h3] at h
  by_cases h4 : f.aux = 4
  · rw [if_pos h4] at h
    obtain ⟨hb, h⟩ := guard_ok h
    simp only [Decidable.not_not, ne_eq] at hb
    exact .inr (.inr (.inr (.inl ⟨h4, (Decoded.ok.inj h).symm, hb⟩)))
  rw [if_neg h4] at h
  by_cases h5 : f.aux = 5
  · rw [if_pos h5] at h
    exact .inr (.inr (.inr (.inr ⟨h5, (Decoded.ok.inj h).symm⟩)))
  · rw [if_neg h5] at h
    cases h

end Sys2Proof
end

