-- ==== Sys2Proof/Laws/State.lean ====
section
/-! SUPPORT. What each field is after each primitive update of the state, true by definition: later proofs never
unfold a record update. -/
namespace Sys2Proof.Machine

@[simp] theorem State.setPins_cfg (clk dio : Bool) (s : State) : (s.setPins clk dio).cfg = s.cfg := rfl
@[simp] theorem State.setPins_clk (clk dio : Bool) (s : State) : (s.setPins clk dio).clk = clk := rfl
@[simp] theorem State.setPins_dio (clk dio : Bool) (s : State) : (s.setPins clk dio).dio = dio := rfl
@[simp] theorem State.setPins_busy (clk dio : Bool) (s : State) : (s.setPins clk dio).busy = s.busy := rfl
@[simp] theorem State.setPins_opr (clk dio : Bool) (s : State) : (s.setPins clk dio).opr = s.opr := rfl
@[simp] theorem State.setPins_upc (clk dio : Bool) (s : State) : (s.setPins clk dio).upc = s.upc := rfl
@[simp] theorem State.setPins_tmrExpired (clk dio : Bool) (s : State) : (s.setPins clk dio).tmrExpired = s.tmrExpired := rfl
@[simp] theorem State.setPins_tmrCount (clk dio : Bool) (s : State) : (s.setPins clk dio).tmrCount = s.tmrCount := rfl
@[simp] theorem State.setPins_tmrFuture (clk dio : Bool) (s : State) : (s.setPins clk dio).tmrFuture = s.tmrFuture := rfl
@[simp] theorem State.setPins_traceRev (clk dio : Bool) (s : State) : (s.setPins clk dio).traceRev = s.traceRev := rfl
@[simp] theorem State.setPins_rsp (clk dio : Bool) (s : State) : (s.setPins clk dio).rsp = s.rsp := rfl
@[simp] theorem State.setPins_host (clk dio : Bool) (s : State) : (s.setPins clk dio).host = s.host := rfl
@[simp] theorem State.setPins_rst (clk dio : Bool) (s : State) : (s.setPins clk dio).rst = s.rst := rfl
@[simp] theorem State.setPins_clkFault (clk dio : Bool) (s : State) : (s.setPins clk dio).clkFault = s.clkFault := rfl
@[simp] theorem State.setPins_clkBroken (clk dio : Bool) (s : State) : (s.setPins clk dio).clkBroken = s.clkBroken := rfl
@[simp] theorem State.setPins_dioFault (clk dio : Bool) (s : State) : (s.setPins clk dio).dioFault = s.dioFault := rfl
@[simp] theorem State.setPins_dioBroken (clk dio : Bool) (s : State) : (s.setPins clk dio).dioBroken = s.dioBroken := rfl
@[simp] theorem State.setPins_wireIn (clk dio : Bool) (s : State) : (s.setPins clk dio).wireIn = s.wireIn := rfl
@[simp] theorem State.setPins_rx (clk dio : Bool) (s : State) : (s.setPins clk dio).rx = s.rx := rfl
@[simp] theorem State.setPins_wireLost (clk dio : Bool) (s : State) : (s.setPins clk dio).wireLost = s.wireLost := rfl
@[simp] theorem State.setPins_display (clk dio : Bool) (s : State) : (s.setPins clk dio).display = s.display := rfl

@[simp] theorem State.setRx_cfg (r : Option (List Pin)) (s : State) : (s.setRx r).cfg = s.cfg := rfl
@[simp] theorem State.setRx_clk (r : Option (List Pin)) (s : State) : (s.setRx r).clk = s.clk := rfl
@[simp] theorem State.setRx_dio (r : Option (List Pin)) (s : State) : (s.setRx r).dio = s.dio := rfl
@[simp] theorem State.setRx_busy (r : Option (List Pin)) (s : State) : (s.setRx r).busy = s.busy := rfl
@[simp] theorem State.setRx_opr (r : Option (List Pin)) (s : State) : (s.setRx r).opr = s.opr := rfl
@[simp] theorem State.setRx_upc (r : Option (List Pin)) (s : State) : (s.setRx r).upc = s.upc := rfl
@[simp] theorem State.setRx_tmrExpired (r : Option (List Pin)) (s : State) : (s.setRx r).tmrExpired = s.tmrExpired := rfl
@[simp] theorem State.setRx_tmrCount (r : Option (List Pin)) (s : State) : (s.setRx r).tmrCount = s.tmrCount := rfl
@[simp] theorem State.setRx_tmrFuture (r : Option (List Pin)) (s : State) : (s.setRx r).tmrFuture = s.tmrFuture := rfl
@[simp] theorem State.setRx_traceRev (r : Option (List Pin)) (s : State) : (s.setRx r).traceRev = s.traceRev := rfl
@[simp] theorem State.setRx_rsp (r : Option (List Pin)) (s : State) : (s.setRx r).rsp = s.rsp := rfl
@[simp] theorem State.setRx_host (r : Option (List Pin)) (s : State) : (s.setRx r).host = s.host := rfl
@[simp] theorem State.setRx_rst (r : Option (List Pin)) (s : State) : (s.setRx r).rst = s.rst := rfl
@[simp] theorem State.setRx_clkFault (r : Option (List Pin)) (s : State) : (s.setRx r).clkFault = s.clkFault := rfl
@[simp] theorem State.setRx_clkBroken (r : Option (List Pin)) (s : State) : (s.setRx r).clkBroken = s.clkBroken := rfl
@[simp] theorem State.setRx_dioFault (r : Option (List Pin)) (s : State) : (s.setRx r).dioFault = s.dioFault := rfl
@[simp] theorem State.setRx_dioBroken (r : Option (List Pin)) (s : State) : (s.setRx r).dioBroken = s.dioBroken := rfl
@[simp] theorem State.setRx_wireIn (r : Option (List Pin)) (s : State) : (s.setRx r).wireIn = s.wireIn := rfl
@[simp] theorem State.setRx_rx (r : Option (List Pin)) (s : State) : (s.setRx r).rx = r := rfl
@[simp] theorem State.setRx_wireLost (r : Option (List Pin)) (s : State) : (s.setRx r).wireLost = s.wireLost := rfl
@[simp] theorem State.setRx_display (r : Option (List Pin)) (s : State) : (s.setRx r).display = s.display := rfl

@[simp] theorem State.setDisplay_cfg (d : Display) (s : State) : (s.setDisplay d).cfg = s.cfg := rfl
@[simp] theorem State.setDisplay_clk (d : Display) (s : State) : (s.setDisplay d).clk = s.clk := rfl
@[simp] theorem State.setDisplay_dio (d : Display) (s : State) : (s.setDisplay d).dio = s.dio := rfl
@[simp] theorem State.setDisplay_busy (d : Display) (s : State) : (s.setDisplay d).busy = s.busy := rfl
@[simp] theorem State.setDisplay_opr (d : Display) (s : State) : (s.setDisplay d).opr = s.opr := rfl
@[simp] theorem State.setDisplay_upc (d : Display) (s : State) : (s.setDisplay d).upc = s.upc := rfl
@[simp] theorem State.setDisplay_tmrExpired (d : Display) (s : State) : (s.setDisplay d).tmrExpired = s.tmrExpired := rfl
@[simp] theorem State.setDisplay_tmrCount (d : Display) (s : State) : (s.setDisplay d).tmrCount = s.tmrCount := rfl
@[simp] theorem State.setDisplay_tmrFuture (d : Display) (s : State) : (s.setDisplay d).tmrFuture = s.tmrFuture := rfl
@[simp] theorem State.setDisplay_traceRev (d : Display) (s : State) : (s.setDisplay d).traceRev = s.traceRev := rfl
@[simp] theorem State.setDisplay_rsp (d : Display) (s : State) : (s.setDisplay d).rsp = s.rsp := rfl
@[simp] theorem State.setDisplay_host (d : Display) (s : State) : (s.setDisplay d).host = s.host := rfl
@[simp] theorem State.setDisplay_rst (d : Display) (s : State) : (s.setDisplay d).rst = s.rst := rfl
@[simp] theorem State.setDisplay_clkFault (d : Display) (s : State) : (s.setDisplay d).clkFault = s.clkFault := rfl
@[simp] theorem State.setDisplay_clkBroken (d : Display) (s : State) : (s.setDisplay d).clkBroken = s.clkBroken := rfl
@[simp] theorem State.setDisplay_dioFault (d : Display) (s : State) : (s.setDisplay d).dioFault = s.dioFault := rfl
@[simp] theorem State.setDisplay_dioBroken (d : Display) (s : State) : (s.setDisplay d).dioBroken = s.dioBroken := rfl
@[simp] theorem State.setDisplay_wireIn (d : Display) (s : State) : (s.setDisplay d).wireIn = s.wireIn := rfl
@[simp] theorem State.setDisplay_rx (d : Display) (s : State) : (s.setDisplay d).rx = s.rx := rfl
@[simp] theorem State.setDisplay_wireLost (d : Display) (s : State) : (s.setDisplay d).wireLost = s.wireLost := rfl
@[simp] theorem State.setDisplay_display (d : Display) (s : State) : (s.setDisplay d).display =
    if s.wireLost then d.forget else d := rfl

@[simp] theorem State.checkBracket_cfg (ps : List Pin) (p : Pin) (s : State) : (s.checkBracket ps p).cfg = s.cfg := rfl
@[simp] theorem State.checkBracket_clk (ps : List Pin) (p : Pin) (s : State) : (s.checkBracket ps p).clk = s.clk := rfl
@[simp] theorem State.checkBracket_dio (ps : List Pin) (p : Pin) (s : State) : (s.checkBracket ps p).dio = s.dio := rfl
@[simp] theorem State.checkBracket_busy (ps : List Pin) (p : Pin) (s : State) : (s.checkBracket ps p).busy = s.busy := rfl
@[simp] theorem State.checkBracket_opr (ps : List Pin) (p : Pin) (s : State) : (s.checkBracket ps p).opr = s.opr := rfl
@[simp] theorem State.checkBracket_upc (ps : List Pin) (p : Pin) (s : State) : (s.checkBracket ps p).upc = s.upc := rfl
@[simp] theorem State.checkBracket_tmrExpired (ps : List Pin) (p : Pin) (s : State) : (s.checkBracket ps p).tmrExpired = s.tmrExpired := rfl
@[simp] theorem State.checkBracket_tmrCount (ps : List Pin) (p : Pin) (s : State) : (s.checkBracket ps p).tmrCount = s.tmrCount := rfl
@[simp] theorem State.checkBracket_tmrFuture (ps : List Pin) (p : Pin) (s : State) : (s.checkBracket ps p).tmrFuture = s.tmrFuture := rfl
@[simp] theorem State.checkBracket_traceRev (ps : List Pin) (p : Pin) (s : State) : (s.checkBracket ps p).traceRev = s.traceRev := rfl
@[simp] theorem State.checkBracket_rsp (ps : List Pin) (p : Pin) (s : State) : (s.checkBracket ps p).rsp = s.rsp := rfl
@[simp] theorem State.checkBracket_host (ps : List Pin) (p : Pin) (s : State) : (s.checkBracket ps p).host = s.host := rfl
@[simp] theorem State.checkBracket_rst (ps : List Pin) (p : Pin) (s : State) : (s.checkBracket ps p).rst = s.rst := rfl
@[simp] theorem State.checkBracket_clkFault (ps : List Pin) (p : Pin) (s : State) : (s.checkBracket ps p).clkFault = s.clkFault := rfl
@[simp] theorem State.checkBracket_clkBroken (ps : List Pin) (p : Pin) (s : State) : (s.checkBracket ps p).clkBroken = s.clkBroken := rfl
@[simp] theorem State.checkBracket_dioFault (ps : List Pin) (p : Pin) (s : State) : (s.checkBracket ps p).dioFault = s.dioFault := rfl
@[simp] theorem State.checkBracket_dioBroken (ps : List Pin) (p : Pin) (s : State) : (s.checkBracket ps p).dioBroken = s.dioBroken := rfl
@[simp] theorem State.checkBracket_wireIn (ps : List Pin) (p : Pin) (s : State) : (s.checkBracket ps p).wireIn = s.wireIn := rfl
@[simp] theorem State.checkBracket_rx (ps : List Pin) (p : Pin) (s : State) : (s.checkBracket ps p).rx = s.rx := rfl
@[simp] theorem State.checkBracket_wireLost (ps : List Pin) (p : Pin) (s : State) : (s.checkBracket ps p).wireLost = s.wireLost := rfl
@[simp] theorem State.checkBracket_display (ps : List Pin) (p : Pin) (s : State) : (s.checkBracket ps p).display =
    if breaksBracket ps p then s.display.forget else s.display := rfl

/-- Where the bracket is kept nothing happens. -/
theorem State.checkBracket_of_kept {ps : List Pin} {p : Pin} {s : State} (h : breaksBracket ps p = false) :
    s.checkBracket ps p = s := by simp [State.checkBracket, h]

@[simp] theorem State.loseWire_cfg (s : State) : s.loseWire.cfg = s.cfg := rfl
@[simp] theorem State.loseWire_clk (s : State) : s.loseWire.clk = s.clk := rfl
@[simp] theorem State.loseWire_dio (s : State) : s.loseWire.dio = s.dio := rfl
@[simp] theorem State.loseWire_busy (s : State) : s.loseWire.busy = s.busy := rfl
@[simp] theorem State.loseWire_opr (s : State) : s.loseWire.opr = s.opr := rfl
@[simp] theorem State.loseWire_upc (s : State) : s.loseWire.upc = s.upc := rfl
@[simp] theorem State.loseWire_tmrExpired (s : State) : s.loseWire.tmrExpired = s.tmrExpired := rfl
@[simp] theorem State.loseWire_tmrCount (s : State) : s.loseWire.tmrCount = s.tmrCount := rfl
@[simp] theorem State.loseWire_tmrFuture (s : State) : s.loseWire.tmrFuture = s.tmrFuture := rfl
@[simp] theorem State.loseWire_traceRev (s : State) : s.loseWire.traceRev = s.traceRev := rfl
@[simp] theorem State.loseWire_rsp (s : State) : s.loseWire.rsp = s.rsp := rfl
@[simp] theorem State.loseWire_host (s : State) : s.loseWire.host = s.host := rfl
@[simp] theorem State.loseWire_rst (s : State) : s.loseWire.rst = s.rst := rfl
@[simp] theorem State.loseWire_clkFault (s : State) : s.loseWire.clkFault = s.clkFault := rfl
@[simp] theorem State.loseWire_clkBroken (s : State) : s.loseWire.clkBroken = s.clkBroken := rfl
@[simp] theorem State.loseWire_dioFault (s : State) : s.loseWire.dioFault = s.dioFault := rfl
@[simp] theorem State.loseWire_dioBroken (s : State) : s.loseWire.dioBroken = s.dioBroken := rfl
@[simp] theorem State.loseWire_wireIn (s : State) : s.loseWire.wireIn = s.wireIn := rfl
@[simp] theorem State.loseWire_rx (s : State) : s.loseWire.rx = s.rx := rfl
@[simp] theorem State.loseWire_wireLost (s : State) : s.loseWire.wireLost = true := rfl
@[simp] theorem State.loseWire_display (s : State) : s.loseWire.display = s.display.forget := rfl

@[simp] theorem State.record_cfg (e : Event) (s : State) : (s.record e).cfg = s.cfg := rfl
@[simp] theorem State.record_clk (e : Event) (s : State) : (s.record e).clk = s.clk := rfl
@[simp] theorem State.record_dio (e : Event) (s : State) : (s.record e).dio = s.dio := rfl
@[simp] theorem State.record_busy (e : Event) (s : State) : (s.record e).busy = s.busy := rfl
@[simp] theorem State.record_opr (e : Event) (s : State) : (s.record e).opr = s.opr := rfl
@[simp] theorem State.record_upc (e : Event) (s : State) : (s.record e).upc = s.upc := rfl
@[simp] theorem State.record_tmrExpired (e : Event) (s : State) : (s.record e).tmrExpired = s.tmrExpired := rfl
@[simp] theorem State.record_tmrCount (e : Event) (s : State) : (s.record e).tmrCount = s.tmrCount := rfl
@[simp] theorem State.record_tmrFuture (e : Event) (s : State) : (s.record e).tmrFuture = s.tmrFuture := rfl
@[simp] theorem State.record_traceRev (e : Event) (s : State) : (s.record e).traceRev = e :: s.traceRev := rfl
@[simp] theorem State.record_rsp (e : Event) (s : State) : (s.record e).rsp = none := rfl
@[simp] theorem State.record_host (e : Event) (s : State) : (s.record e).host = s.host := rfl
@[simp] theorem State.record_rst (e : Event) (s : State) : (s.record e).rst = s.rst := rfl
@[simp] theorem State.record_clkFault (e : Event) (s : State) : (s.record e).clkFault = s.clkFault := rfl
@[simp] theorem State.record_clkBroken (e : Event) (s : State) : (s.record e).clkBroken = s.clkBroken := rfl
@[simp] theorem State.record_dioFault (e : Event) (s : State) : (s.record e).dioFault = s.dioFault := rfl
@[simp] theorem State.record_dioBroken (e : Event) (s : State) : (s.record e).dioBroken = s.dioBroken := rfl
@[simp] theorem State.record_wireIn (e : Event) (s : State) : (s.record e).wireIn = s.wireIn := rfl
@[simp] theorem State.record_rx (e : Event) (s : State) : (s.record e).rx = s.rx := rfl
@[simp] theorem State.record_wireLost (e : Event) (s : State) : (s.record e).wireLost = s.wireLost := rfl
@[simp] theorem State.record_display (e : Event) (s : State) : (s.record e).display = s.display := rfl

@[simp] theorem State.armTimer_cfg (d : Nat) (s : State) : (s.armTimer d).cfg = s.cfg := rfl
@[simp] theorem State.armTimer_clk (d : Nat) (s : State) : (s.armTimer d).clk = s.clk := rfl
@[simp] theorem State.armTimer_dio (d : Nat) (s : State) : (s.armTimer d).dio = s.dio := rfl
@[simp] theorem State.armTimer_busy (d : Nat) (s : State) : (s.armTimer d).busy = s.busy := rfl
@[simp] theorem State.armTimer_opr (d : Nat) (s : State) : (s.armTimer d).opr = s.opr := rfl
@[simp] theorem State.armTimer_upc (d : Nat) (s : State) : (s.armTimer d).upc = s.upc := rfl
@[simp] theorem State.armTimer_tmrExpired (d : Nat) (s : State) : (s.armTimer d).tmrExpired = false := rfl
@[simp] theorem State.armTimer_tmrCount (d : Nat) (s : State) : (s.armTimer d).tmrCount = some d := rfl
@[simp] theorem State.armTimer_tmrFuture (d : Nat) (s : State) : (s.armTimer d).tmrFuture = s.tmrFuture := rfl
@[simp] theorem State.armTimer_traceRev (d : Nat) (s : State) : (s.armTimer d).traceRev = s.traceRev := rfl
@[simp] theorem State.armTimer_rsp (d : Nat) (s : State) : (s.armTimer d).rsp = s.rsp := rfl
@[simp] theorem State.armTimer_host (d : Nat) (s : State) : (s.armTimer d).host = s.host := rfl
@[simp] theorem State.armTimer_rst (d : Nat) (s : State) : (s.armTimer d).rst = s.rst := rfl
@[simp] theorem State.armTimer_clkFault (d : Nat) (s : State) : (s.armTimer d).clkFault = s.clkFault := rfl
@[simp] theorem State.armTimer_clkBroken (d : Nat) (s : State) : (s.armTimer d).clkBroken = s.clkBroken := rfl
@[simp] theorem State.armTimer_dioFault (d : Nat) (s : State) : (s.armTimer d).dioFault = s.dioFault := rfl
@[simp] theorem State.armTimer_dioBroken (d : Nat) (s : State) : (s.armTimer d).dioBroken = s.dioBroken := rfl
@[simp] theorem State.armTimer_wireIn (d : Nat) (s : State) : (s.armTimer d).wireIn = s.wireIn := rfl
@[simp] theorem State.armTimer_rx (d : Nat) (s : State) : (s.armTimer d).rx = s.rx := rfl
@[simp] theorem State.armTimer_wireLost (d : Nat) (s : State) : (s.armTimer d).wireLost = s.wireLost := rfl
@[simp] theorem State.armTimer_display (d : Nat) (s : State) : (s.armTimer d).display = s.display := rfl

@[simp] theorem State.advance_cfg (s : State) : s.advance.cfg = s.cfg := rfl
@[simp] theorem State.advance_clk (s : State) : s.advance.clk = s.clk := rfl
@[simp] theorem State.advance_dio (s : State) : s.advance.dio = s.dio := rfl
@[simp] theorem State.advance_busy (s : State) : s.advance.busy = s.busy := rfl
@[simp] theorem State.advance_opr (s : State) : s.advance.opr = s.opr := rfl
@[simp] theorem State.advance_upc (s : State) : s.advance.upc = s.upc + 1 := rfl
@[simp] theorem State.advance_tmrExpired (s : State) : s.advance.tmrExpired = s.tmrExpired := rfl
@[simp] theorem State.advance_tmrCount (s : State) : s.advance.tmrCount = s.tmrCount := rfl
@[simp] theorem State.advance_tmrFuture (s : State) : s.advance.tmrFuture = s.tmrFuture := rfl
@[simp] theorem State.advance_traceRev (s : State) : s.advance.traceRev = s.traceRev := rfl
@[simp] theorem State.advance_rsp (s : State) : s.advance.rsp = s.rsp := rfl
@[simp] theorem State.advance_host (s : State) : s.advance.host = s.host := rfl
@[simp] theorem State.advance_rst (s : State) : s.advance.rst = s.rst := rfl
@[simp] theorem State.advance_clkFault (s : State) : s.advance.clkFault = s.clkFault := rfl
@[simp] theorem State.advance_clkBroken (s : State) : s.advance.clkBroken = s.clkBroken := rfl
@[simp] theorem State.advance_dioFault (s : State) : s.advance.dioFault = s.dioFault := rfl
@[simp] theorem State.advance_dioBroken (s : State) : s.advance.dioBroken = s.dioBroken := rfl
@[simp] theorem State.advance_wireIn (s : State) : s.advance.wireIn = s.wireIn := rfl
@[simp] theorem State.advance_rx (s : State) : s.advance.rx = s.rx := rfl
@[simp] theorem State.advance_wireLost (s : State) : s.advance.wireLost = s.wireLost := rfl
@[simp] theorem State.advance_display (s : State) : s.advance.display = s.display := rfl

@[simp] theorem State.accept_cfg (w : HostWord) (s : State) : (s.accept w).cfg = s.cfg := rfl
@[simp] theorem State.accept_clk (w : HostWord) (s : State) : (s.accept w).clk = s.clk := rfl
@[simp] theorem State.accept_dio (w : HostWord) (s : State) : (s.accept w).dio = s.dio := rfl
@[simp] theorem State.accept_busy (w : HostWord) (s : State) : (s.accept w).busy = true := rfl
@[simp] theorem State.accept_opr (w : HostWord) (s : State) : (s.accept w).opr = w := rfl
@[simp] theorem State.accept_upc (w : HostWord) (s : State) : (s.accept w).upc = 0 := rfl
@[simp] theorem State.accept_tmrExpired (w : HostWord) (s : State) : (s.accept w).tmrExpired = s.tmrExpired := rfl
@[simp] theorem State.accept_tmrCount (w : HostWord) (s : State) : (s.accept w).tmrCount = s.tmrCount := rfl
@[simp] theorem State.accept_tmrFuture (w : HostWord) (s : State) : (s.accept w).tmrFuture = s.tmrFuture := rfl
@[simp] theorem State.accept_traceRev (w : HostWord) (s : State) : (s.accept w).traceRev = s.traceRev := rfl
@[simp] theorem State.accept_rsp (w : HostWord) (s : State) : (s.accept w).rsp = none := rfl
@[simp] theorem State.accept_host (w : HostWord) (s : State) : (s.accept w).host = s.host := rfl
@[simp] theorem State.accept_rst (w : HostWord) (s : State) : (s.accept w).rst = s.rst := rfl
@[simp] theorem State.accept_clkFault (w : HostWord) (s : State) : (s.accept w).clkFault = s.clkFault := rfl
@[simp] theorem State.accept_clkBroken (w : HostWord) (s : State) : (s.accept w).clkBroken = s.clkBroken := rfl
@[simp] theorem State.accept_dioFault (w : HostWord) (s : State) : (s.accept w).dioFault = s.dioFault := rfl
@[simp] theorem State.accept_dioBroken (w : HostWord) (s : State) : (s.accept w).dioBroken = s.dioBroken := rfl
@[simp] theorem State.accept_wireIn (w : HostWord) (s : State) : (s.accept w).wireIn = s.wireIn := rfl
@[simp] theorem State.accept_rx (w : HostWord) (s : State) : (s.accept w).rx = s.rx := rfl
@[simp] theorem State.accept_wireLost (w : HostWord) (s : State) : (s.accept w).wireLost = s.wireLost := rfl
@[simp] theorem State.accept_display (w : HostWord) (s : State) : (s.accept w).display = s.display := rfl

@[simp] theorem State.complete_cfg (r : Byte) (s : State) : (s.complete r).cfg = s.cfg := rfl
@[simp] theorem State.complete_clk (r : Byte) (s : State) : (s.complete r).clk = s.clk := rfl
@[simp] theorem State.complete_dio (r : Byte) (s : State) : (s.complete r).dio = s.dio := rfl
@[simp] theorem State.complete_busy (r : Byte) (s : State) : (s.complete r).busy = false := rfl
@[simp] theorem State.complete_opr (r : Byte) (s : State) : (s.complete r).opr = s.opr := rfl
@[simp] theorem State.complete_upc (r : Byte) (s : State) : (s.complete r).upc = s.upc := rfl
@[simp] theorem State.complete_tmrExpired (r : Byte) (s : State) : (s.complete r).tmrExpired = s.tmrExpired := rfl
@[simp] theorem State.complete_tmrCount (r : Byte) (s : State) : (s.complete r).tmrCount = s.tmrCount := rfl
@[simp] theorem State.complete_tmrFuture (r : Byte) (s : State) : (s.complete r).tmrFuture = s.tmrFuture := rfl
@[simp] theorem State.complete_traceRev (r : Byte) (s : State) : (s.complete r).traceRev = s.traceRev := rfl
@[simp] theorem State.complete_rsp (r : Byte) (s : State) : (s.complete r).rsp = some r := rfl
@[simp] theorem State.complete_host (r : Byte) (s : State) : (s.complete r).host = s.host := rfl
@[simp] theorem State.complete_rst (r : Byte) (s : State) : (s.complete r).rst = s.rst := rfl
@[simp] theorem State.complete_clkFault (r : Byte) (s : State) : (s.complete r).clkFault = s.clkFault := rfl
@[simp] theorem State.complete_clkBroken (r : Byte) (s : State) : (s.complete r).clkBroken = s.clkBroken := rfl
@[simp] theorem State.complete_dioFault (r : Byte) (s : State) : (s.complete r).dioFault = s.dioFault := rfl
@[simp] theorem State.complete_dioBroken (r : Byte) (s : State) : (s.complete r).dioBroken = s.dioBroken := rfl
@[simp] theorem State.complete_wireIn (r : Byte) (s : State) : (s.complete r).wireIn = s.wireIn := rfl
@[simp] theorem State.complete_rx (r : Byte) (s : State) : (s.complete r).rx = s.rx := rfl
@[simp] theorem State.complete_wireLost (r : Byte) (s : State) : (s.complete r).wireLost = s.wireLost := rfl
@[simp] theorem State.complete_display (r : Byte) (s : State) : (s.complete r).display = s.display := rfl

@[simp] theorem State.expire_cfg (f : Option Nat) (s : State) : (s.expire f).cfg = s.cfg := rfl
@[simp] theorem State.expire_clk (f : Option Nat) (s : State) : (s.expire f).clk = s.clk := rfl
@[simp] theorem State.expire_dio (f : Option Nat) (s : State) : (s.expire f).dio = s.dio := rfl
@[simp] theorem State.expire_busy (f : Option Nat) (s : State) : (s.expire f).busy = s.busy := rfl
@[simp] theorem State.expire_opr (f : Option Nat) (s : State) : (s.expire f).opr = s.opr := rfl
@[simp] theorem State.expire_upc (f : Option Nat) (s : State) : (s.expire f).upc = s.upc := rfl
@[simp] theorem State.expire_tmrExpired (f : Option Nat) (s : State) : (s.expire f).tmrExpired = true := rfl
@[simp] theorem State.expire_tmrCount (f : Option Nat) (s : State) : (s.expire f).tmrCount = none := rfl
@[simp] theorem State.expire_tmrFuture (f : Option Nat) (s : State) : (s.expire f).tmrFuture = f := rfl
@[simp] theorem State.expire_traceRev (f : Option Nat) (s : State) : (s.expire f).traceRev = s.traceRev := rfl
@[simp] theorem State.expire_rsp (f : Option Nat) (s : State) : (s.expire f).rsp = s.rsp := rfl
@[simp] theorem State.expire_host (f : Option Nat) (s : State) : (s.expire f).host = s.host := rfl
@[simp] theorem State.expire_rst (f : Option Nat) (s : State) : (s.expire f).rst = s.rst := rfl
@[simp] theorem State.expire_clkFault (f : Option Nat) (s : State) : (s.expire f).clkFault = s.clkFault := rfl
@[simp] theorem State.expire_clkBroken (f : Option Nat) (s : State) : (s.expire f).clkBroken = s.clkBroken := rfl
@[simp] theorem State.expire_dioFault (f : Option Nat) (s : State) : (s.expire f).dioFault = s.dioFault := rfl
@[simp] theorem State.expire_dioBroken (f : Option Nat) (s : State) : (s.expire f).dioBroken = s.dioBroken := rfl
@[simp] theorem State.expire_wireIn (f : Option Nat) (s : State) : (s.expire f).wireIn = s.wireIn := rfl
@[simp] theorem State.expire_rx (f : Option Nat) (s : State) : (s.expire f).rx = s.rx := rfl
@[simp] theorem State.expire_wireLost (f : Option Nat) (s : State) : (s.expire f).wireLost = s.wireLost := rfl
@[simp] theorem State.expire_display (f : Option Nat) (s : State) : (s.expire f).display = s.display := rfl

@[simp] theorem State.stall_cfg (s : State) : s.stall.cfg = s.cfg := rfl
@[simp] theorem State.stall_clk (s : State) : s.stall.clk = s.clk := rfl
@[simp] theorem State.stall_dio (s : State) : s.stall.dio = s.dio := rfl
@[simp] theorem State.stall_busy (s : State) : s.stall.busy = s.busy := rfl
@[simp] theorem State.stall_opr (s : State) : s.stall.opr = s.opr := rfl
@[simp] theorem State.stall_upc (s : State) : s.stall.upc = s.upc := rfl
@[simp] theorem State.stall_tmrExpired (s : State) : s.stall.tmrExpired = s.tmrExpired := rfl
@[simp] theorem State.stall_tmrCount (s : State) : s.stall.tmrCount = s.tmrCount := rfl
@[simp] theorem State.stall_tmrFuture (s : State) : s.stall.tmrFuture = s.tmrFuture := rfl
@[simp] theorem State.stall_traceRev (s : State) : s.stall.traceRev = s.traceRev := rfl
@[simp] theorem State.stall_rsp (s : State) : s.stall.rsp = s.rsp := rfl
@[simp] theorem State.stall_host (s : State) : s.stall.host = s.host := rfl
@[simp] theorem State.stall_rst (s : State) : s.stall.rst = s.rst := rfl
@[simp] theorem State.stall_clkFault (s : State) : s.stall.clkFault = s.clkFault := rfl
@[simp] theorem State.stall_dioFault (s : State) : s.stall.dioFault = s.dioFault := rfl
@[simp] theorem State.stall_clkBroken (s : State) : s.stall.clkBroken = s.clkBroken := rfl
@[simp] theorem State.stall_dioBroken (s : State) : s.stall.dioBroken = s.dioBroken := rfl
@[simp] theorem State.stall_wireIn (s : State) : s.stall.wireIn = s.wireIn := rfl
@[simp] theorem State.stall_rx (s : State) : s.stall.rx = s.rx := rfl
@[simp] theorem State.stall_wireLost (s : State) : s.stall.wireLost = s.wireLost := rfl
@[simp] theorem State.stall_display (s : State) : s.stall.display = s.display.forget := rfl
@[simp] theorem State.stall_stall (s : State) : s.stall.stall = s.stall := rfl

@[simp] theorem State.resetBlock_cfg (s : State) : s.resetBlock.cfg = s.cfg := rfl
@[simp] theorem State.resetBlock_clk (s : State) : s.resetBlock.clk = s.cfg.pinResetLevel := rfl
@[simp] theorem State.resetBlock_dio (s : State) : s.resetBlock.dio = s.cfg.pinResetLevel := rfl
@[simp] theorem State.resetBlock_busy (s : State) : s.resetBlock.busy = false := rfl
@[simp] theorem State.resetBlock_opr (s : State) : s.resetBlock.opr = 0 := rfl
@[simp] theorem State.resetBlock_upc (s : State) : s.resetBlock.upc = 0 := rfl
@[simp] theorem State.resetBlock_tmrExpired (s : State) : s.resetBlock.tmrExpired = s.tmrExpired := rfl
@[simp] theorem State.resetBlock_tmrCount (s : State) : s.resetBlock.tmrCount = s.tmrCount := rfl
@[simp] theorem State.resetBlock_tmrFuture (s : State) : s.resetBlock.tmrFuture = s.tmrFuture := rfl
@[simp] theorem State.resetBlock_traceRev (s : State) : s.resetBlock.traceRev = [] := rfl
@[simp] theorem State.resetBlock_rsp (s : State) : s.resetBlock.rsp = none := rfl
@[simp] theorem State.resetBlock_host (s : State) : s.resetBlock.host = s.host := rfl
@[simp] theorem State.resetBlock_rst (s : State) : s.resetBlock.rst = false := rfl
@[simp] theorem State.resetBlock_clkFault (s : State) : s.resetBlock.clkFault = s.clkFault := rfl
@[simp] theorem State.resetBlock_clkBroken (s : State) : s.resetBlock.clkBroken = s.clkBroken := rfl
@[simp] theorem State.resetBlock_dioFault (s : State) : s.resetBlock.dioFault = s.dioFault := rfl
@[simp] theorem State.resetBlock_dioBroken (s : State) : s.resetBlock.dioBroken = s.dioBroken := rfl
@[simp] theorem State.resetBlock_wireIn (s : State) : s.resetBlock.wireIn = s.wireIn := rfl
@[simp] theorem State.resetBlock_rx (s : State) : s.resetBlock.rx = none := rfl
@[simp] theorem State.resetBlock_wireLost (s : State) : s.resetBlock.wireLost = s.wireLost := rfl
@[simp] theorem State.resetBlock_display (s : State) : s.resetBlock.display = s.display.forget := rfl

@[simp] theorem State.idle_cfg (s : State) : s.idle.cfg = s.cfg := rfl
@[simp] theorem State.idle_clk (s : State) : s.idle.clk = s.clk := rfl
@[simp] theorem State.idle_dio (s : State) : s.idle.dio = s.dio := rfl
@[simp] theorem State.idle_busy (s : State) : s.idle.busy = s.busy := rfl
@[simp] theorem State.idle_opr (s : State) : s.idle.opr = s.opr := rfl
@[simp] theorem State.idle_upc (s : State) : s.idle.upc = s.upc := rfl
@[simp] theorem State.idle_tmrExpired (s : State) : s.idle.tmrExpired = s.tmrExpired := rfl
@[simp] theorem State.idle_tmrCount (s : State) : s.idle.tmrCount = s.tmrCount := rfl
@[simp] theorem State.idle_tmrFuture (s : State) : s.idle.tmrFuture = s.tmrFuture := rfl
@[simp] theorem State.idle_traceRev (s : State) : s.idle.traceRev = s.traceRev := rfl
@[simp] theorem State.idle_rsp (s : State) : s.idle.rsp = none := rfl
@[simp] theorem State.idle_host (s : State) : s.idle.host = s.host := rfl
@[simp] theorem State.idle_rst (s : State) : s.idle.rst = s.rst := rfl
@[simp] theorem State.idle_clkFault (s : State) : s.idle.clkFault = s.clkFault := rfl
@[simp] theorem State.idle_clkBroken (s : State) : s.idle.clkBroken = s.clkBroken := rfl
@[simp] theorem State.idle_dioFault (s : State) : s.idle.dioFault = s.dioFault := rfl
@[simp] theorem State.idle_dioBroken (s : State) : s.idle.dioBroken = s.dioBroken := rfl
@[simp] theorem State.idle_wireIn (s : State) : s.idle.wireIn = s.wireIn := rfl
@[simp] theorem State.idle_rx (s : State) : s.idle.rx = s.rx := rfl
@[simp] theorem State.idle_wireLost (s : State) : s.idle.wireLost = s.wireLost := rfl
@[simp] theorem State.idle_display (s : State) : s.idle.display = s.display := rfl

@[simp] theorem Display.forget_cells (d : Display) : d.forget.cells = [] := rfl
@[simp] theorem Display.forget_don (d : Display) : d.forget.don = none := rfl
@[simp] theorem Display.forget_dbr (d : Display) : d.forget.dbr = none := rfl
@[simp] theorem Display.forget_amode (d : Display) : d.forget.amode = none := rfl
@[simp] theorem Display.forget_phase (d : Display) : d.forget.phase = d.phase := rfl

@[simp] theorem Display.forget_forget (d : Display) : d.forget.forget = d.forget := rfl

@[simp] theorem Display.lose_cells (d : Display) : d.lose.cells = [] := rfl
@[simp] theorem Display.lose_don (d : Display) : d.lose.don = none := rfl
@[simp] theorem Display.lose_dbr (d : Display) : d.lose.dbr = none := rfl
@[simp] theorem Display.lose_amode (d : Display) : d.lose.amode = none := rfl
@[simp] theorem Display.lose_phase (d : Display) : d.lose.phase = .lost := rfl

end Sys2Proof.Machine
end

