-- ==== Sys2Proof/Laws/Memory.lean ====
section
/-! SUPPORT. The laws of the ghost display's memory: read after write, and that every operation on it keeps the
canonical form. -/
namespace Sys2Proof.Machine

@[simp] theorem Memory.read_nil (a : Nat) : Memory.read [] a = none := rfl

@[simp] theorem Memory.read_write_same (m : List Host.Cell) (a : Nat) (v : Byte) :
    Memory.read (Memory.write m a v) a = some v := by
  induction m with
  | nil => simp [Memory.write, Memory.read]
  | cons c m ih =>
    obtain ⟨k, w⟩ := c
    simp only [Memory.write]
    split
    · simp [Memory.read]
    · split
      · simp [Memory.read]
      · rename_i h
        simp [Memory.read, Ne.symm h, ih]

theorem Memory.read_write_of_ne {m : List Host.Cell} {a b : Nat} {v : Byte} (h : b ≠ a) :
    Memory.read (Memory.write m a v) b = Memory.read m b := by
  induction m with
  | nil => simp [Memory.write, Memory.read, Ne.symm h]
  | cons c m ih =>
    obtain ⟨k, w⟩ := c
    simp only [Memory.write]
    split
    · simp [Memory.read, Ne.symm h]
    · split
      · rename_i hk
        subst hk
        simp [Memory.read, Ne.symm h]
      · simp [Memory.read, ih]

theorem Memory.mem_write {m : List Host.Cell} {a : Nat} {v : Byte} {x : Host.Cell}
    (h : x ∈ Memory.write m a v) : x = (a, v) ∨ x ∈ m := by
  induction m with
  | nil => simpa [Memory.write] using h
  | cons c m ih =>
    obtain ⟨k, w⟩ := c
    simp only [Memory.write] at h
    split at h
    · simpa using h
    · split at h
      · rcases List.mem_cons.mp h with h | h
        · exact .inl h
        · exact .inr (List.mem_cons_of_mem _ h)
      · rcases List.mem_cons.mp h with h | h
        · exact .inr (h ▸ List.mem_cons_self ..)
        · rcases ih h with h | h
          · exact .inl h
          · exact .inr (List.mem_cons_of_mem _ h)

theorem Memory.wf_nil : Memory.wf [] := by simp [Memory.wf]

/-- A write inside the address space keeps the canonical form. -/
theorem Memory.wf_write {m : List Host.Cell} {a : Nat} {v : Byte} (h : Memory.wf m) (ha : a < Config.nDigits) :
    Memory.wf (Memory.write m a v) := by
  constructor
  · have hp := h.1
    clear h
    induction m with
    | nil => simp [Memory.write]
    | cons c m ih =>
      obtain ⟨k, w⟩ := c
      rw [List.pairwise_cons] at hp
      simp only [Memory.write]
      split
      · rename_i hak
        refine List.pairwise_cons.mpr ⟨?_, List.pairwise_cons.mpr hp⟩
        intro x hx
        rcases List.mem_cons.mp hx with hx | hx
        · exact hx ▸ hak
        · exact Nat.lt_trans hak (hp.1 x hx)
      · split
        · rename_i hk
          subst hk
          exact List.pairwise_cons.mpr hp
        · refine List.pairwise_cons.mpr ⟨?_, ih hp.2⟩
          intro x hx
          rcases Memory.mem_write hx with hx | hx
          · subst hx
            show k < a
            omega
          · exact hp.1 x hx
  · intro x hx
    rcases Memory.mem_write hx with hx | hx
    · exact hx ▸ ha
    · exact h.2 x hx

theorem Memory.wf_reset : Memory.wf State.reset.display.cells := Memory.wf_nil

theorem Display.wf_forget (d : Display) : Memory.wf d.forget.cells := Memory.wf_nil

theorem Display.wf_payload {d : Display} (v : Byte) (h : Memory.wf d.cells) : Memory.wf (d.payload v).cells := by
  unfold Display.payload
  split
  · split
    · split
      · rename_i hn
        exact Memory.wf_write h hn.2
      · exact Memory.wf_nil
    · split
      · rename_i hn
        exact Memory.wf_write h hn
      · exact Memory.wf_nil
    · exact Memory.wf_nil
  all_goals exact Memory.wf_nil

theorem Display.wf_endTxn {d : Display} (h : Memory.wf d.cells) : Memory.wf d.endTxn.cells := by
  unfold Display.endTxn
  split <;> first | exact h | exact Memory.wf_nil

/-- Every wire byte keeps the canonical form. -/
theorem wireEffect_wf {d : Display} (i : Instr) (h : Memory.wf d.cells) : Memory.wf (wireEffect i d).cells := by
  cases i
  case addrcmd a =>
    simp only [wireEffect, Display.address]
    split
    · exact Memory.wf_nil
    · exact h
  case segpat v => exact Display.wf_payload v h
  all_goals first | exact h | exact Memory.wf_nil

theorem Display.wf_takeByte {d : Display} (b : Byte) (h : Memory.wf d.cells) : Memory.wf (d.takeByte b).cells := by
  unfold Display.takeByte
  split
  · exact wireEffect_wf _ h
  · exact Memory.wf_nil

/-- A whole transaction keeps the canonical form. -/
theorem Display.wf_takeTxn {d : Display} (B : Option (List Byte)) (h : Memory.wf d.cells) :
    Memory.wf (d.takeTxn B).cells := by
  cases B with
  | none => exact Memory.wf_nil
  | some bs =>
    refine Display.wf_endTxn ?_
    generalize hd : ({ d with phase := .command } : Display) = d'
    replace h : Memory.wf d'.cells := hd ▸ h
    clear hd
    induction bs generalizing d' with
    | nil => exact h
    | cons b bs ih => exact ih _ (Display.wf_takeByte b h)

end Sys2Proof.Machine
end

