-- ==== Sys2Proof/Laws/Ops.lean ====
section
/-! SUPPORT. What each shared operation can do, once: the wire receiver, the pin request, the primitive events, the
timer's step and the event step. -/
namespace Sys2Proof.Machine

/-- The receiver changes nothing but its own record and the ghost display. -/
theorem State.receive_eq (p : Pin) (e : Edge) (s : State) :
    s.receive p e = { s with rx := (s.receive p e).rx, display := (s.receive p e).display } := by
  unfold State.receive
  split <;> split <;> rfl

@[simp] theorem State.receive_cfg (p : Pin) (e : Edge) (s : State) : (s.receive p e).cfg = s.cfg := by
  rw [State.receive_eq]

@[simp] theorem State.receive_clk (p : Pin) (e : Edge) (s : State) : (s.receive p e).clk = s.clk := by
  rw [State.receive_eq]

@[simp] theorem State.receive_dio (p : Pin) (e : Edge) (s : State) : (s.receive p e).dio = s.dio := by
  rw [State.receive_eq]

@[simp] theorem State.receive_busy (p : Pin) (e : Edge) (s : State) : (s.receive p e).busy = s.busy := by
  rw [State.receive_eq]

@[simp] theorem State.receive_opr (p : Pin) (e : Edge) (s : State) : (s.receive p e).opr = s.opr := by
  rw [State.receive_eq]

@[simp] theorem State.receive_upc (p : Pin) (e : Edge) (s : State) : (s.receive p e).upc = s.upc := by
  rw [State.receive_eq]

@[simp] theorem State.receive_tmrExpired (p : Pin) (e : Edge) (s : State) : (s.receive p e).tmrExpired = s.tmrExpired := by
  rw [State.receive_eq]

@[simp] theorem State.receive_tmrCount (p : Pin) (e : Edge) (s : State) : (s.receive p e).tmrCount = s.tmrCount := by
  rw [State.receive_eq]

@[simp] theorem State.receive_tmrFuture (p : Pin) (e : Edge) (s : State) : (s.receive p e).tmrFuture = s.tmrFuture := by
  rw [State.receive_eq]

@[simp] theorem State.receive_traceRev (p : Pin) (e : Edge) (s : State) : (s.receive p e).traceRev = s.traceRev := by
  rw [State.receive_eq]

@[simp] theorem State.receive_rsp (p : Pin) (e : Edge) (s : State) : (s.receive p e).rsp = s.rsp := by
  rw [State.receive_eq]

@[simp] theorem State.receive_host (p : Pin) (e : Edge) (s : State) : (s.receive p e).host = s.host := by
  rw [State.receive_eq]

@[simp] theorem State.receive_rst (p : Pin) (e : Edge) (s : State) : (s.receive p e).rst = s.rst := by
  rw [State.receive_eq]

@[simp] theorem State.receive_clkFault (p : Pin) (e : Edge) (s : State) : (s.receive p e).clkFault = s.clkFault := by
  rw [State.receive_eq]

@[simp] theorem State.receive_clkBroken (p : Pin) (e : Edge) (s : State) : (s.receive p e).clkBroken = s.clkBroken := by
  rw [State.receive_eq]

@[simp] theorem State.receive_dioFault (p : Pin) (e : Edge) (s : State) : (s.receive p e).dioFault = s.dioFault := by
  rw [State.receive_eq]

@[simp] theorem State.receive_dioBroken (p : Pin) (e : Edge) (s : State) : (s.receive p e).dioBroken = s.dioBroken := by
  rw [State.receive_eq]

@[simp] theorem State.receive_wireIn (p : Pin) (e : Edge) (s : State) : (s.receive p e).wireIn = s.wireIn := by
  rw [State.receive_eq]

@[simp] theorem State.receive_wireLost (p : Pin) (e : Edge) (s : State) : (s.receive p e).wireLost = s.wireLost := by
  rw [State.receive_eq]

/-- One pin request: the line's level (R70), the receiver's record and display, and the wire's trust change. -/
theorem State.drive_eq (p : Pin) (s : State) :
    s.drive p =
      { s with
        clk := p.clkAfter s.clk, dio := p.dioAfter s.dio, rx := (s.drive p).rx, display := (s.drive p).display,
        wireLost := s.wireLost || s.requestFails p } := by
  have h := State.receive_eq p (p.edge s.clk s.dio) (s.setPins (p.clkAfter s.clk) (p.dioAfter s.dio))
  unfold State.drive
  split
  · rename_i hf
    rw [h]
    simp [State.loseWire, State.setPins, hf]
  · rename_i hf
    rw [h]
    simp [State.setPins, hf]

@[simp] theorem State.drive_cfg (p : Pin) (s : State) : (s.drive p).cfg = s.cfg := by
  rw [State.drive_eq]

@[simp] theorem State.drive_clk (p : Pin) (s : State) : (s.drive p).clk = p.clkAfter s.clk := by
  rw [State.drive_eq]

@[simp] theorem State.drive_dio (p : Pin) (s : State) : (s.drive p).dio = p.dioAfter s.dio := by
  rw [State.drive_eq]

@[simp] theorem State.drive_busy (p : Pin) (s : State) : (s.drive p).busy = s.busy := by
  rw [State.drive_eq]

@[simp] theorem State.drive_opr (p : Pin) (s : State) : (s.drive p).opr = s.opr := by
  rw [State.drive_eq]

@[simp] theorem State.drive_upc (p : Pin) (s : State) : (s.drive p).upc = s.upc := by
  rw [State.drive_eq]

@[simp] theorem State.drive_tmrExpired (p : Pin) (s : State) : (s.drive p).tmrExpired = s.tmrExpired := by
  rw [State.drive_eq]

@[simp] theorem State.drive_tmrCount (p : Pin) (s : State) : (s.drive p).tmrCount = s.tmrCount := by
  rw [State.drive_eq]

@[simp] theorem State.drive_tmrFuture (p : Pin) (s : State) : (s.drive p).tmrFuture = s.tmrFuture := by
  rw [State.drive_eq]

@[simp] theorem State.drive_traceRev (p : Pin) (s : State) : (s.drive p).traceRev = s.traceRev := by
  rw [State.drive_eq]

@[simp] theorem State.drive_rsp (p : Pin) (s : State) : (s.drive p).rsp = s.rsp := by
  rw [State.drive_eq]

@[simp] theorem State.drive_host (p : Pin) (s : State) : (s.drive p).host = s.host := by
  rw [State.drive_eq]

@[simp] theorem State.drive_rst (p : Pin) (s : State) : (s.drive p).rst = s.rst := by
  rw [State.drive_eq]

@[simp] theorem State.drive_clkFault (p : Pin) (s : State) : (s.drive p).clkFault = s.clkFault := by
  rw [State.drive_eq]

@[simp] theorem State.drive_clkBroken (p : Pin) (s : State) : (s.drive p).clkBroken = s.clkBroken := by
  rw [State.drive_eq]

@[simp] theorem State.drive_dioFault (p : Pin) (s : State) : (s.drive p).dioFault = s.dioFault := by
  rw [State.drive_eq]

@[simp] theorem State.drive_dioBroken (p : Pin) (s : State) : (s.drive p).dioBroken = s.dioBroken := by
  rw [State.drive_eq]

@[simp] theorem State.drive_wireIn (p : Pin) (s : State) : (s.drive p).wireIn = s.wireIn := by
  rw [State.drive_eq]

@[simp] theorem State.drive_wireLost (p : Pin) (s : State) : (s.drive p).wireLost = (s.wireLost || s.requestFails p) := by
  rw [State.drive_eq]

/-- The level of CLK after an event. -/
def Event.clkAfter (clk : Bool) : Event → Bool
  | .pin p => p.clkAfter clk
  | .ts _ => clk
  | .tw => clk

/-- The level of DIO after an event. -/
def Event.dioAfter (dio : Bool) : Event → Bool
  | .pin p => p.dioAfter dio
  | .ts _ => dio
  | .tw => dio

@[simp] theorem State.issue_cfg (e : Event) (s : State) : (s.issue e).cfg = s.cfg := by
  cases e <;> simp [State.issue, State.emit]

@[simp] theorem State.issue_clk (e : Event) (s : State) : (s.issue e).clk = e.clkAfter s.clk := by
  cases e <;> simp [State.issue, State.emit, Event.clkAfter]

@[simp] theorem State.issue_dio (e : Event) (s : State) : (s.issue e).dio = e.dioAfter s.dio := by
  cases e <;> simp [State.issue, State.emit, Event.dioAfter]

@[simp] theorem State.issue_busy (e : Event) (s : State) : (s.issue e).busy = s.busy := by
  cases e <;> simp [State.issue, State.emit]

@[simp] theorem State.issue_opr (e : Event) (s : State) : (s.issue e).opr = s.opr := by
  cases e <;> simp [State.issue, State.emit]

@[simp] theorem State.issue_upc (e : Event) (s : State) : (s.issue e).upc = s.upc + 1 := by
  cases e <;> simp [State.issue, State.emit]

@[simp] theorem State.issue_tmrFuture (e : Event) (s : State) : (s.issue e).tmrFuture = s.tmrFuture := by
  cases e <;> simp [State.issue, State.emit]

@[simp] theorem State.issue_traceRev (e : Event) (s : State) : (s.issue e).traceRev = e :: s.traceRev := by
  cases e <;> simp [State.issue, State.emit]

@[simp] theorem State.issue_rsp (e : Event) (s : State) : (s.issue e).rsp = none := by
  cases e <;> simp [State.issue, State.emit]

@[simp] theorem State.issue_host (e : Event) (s : State) : (s.issue e).host = s.host := by
  cases e <;> simp [State.issue, State.emit]

@[simp] theorem State.issue_rst (e : Event) (s : State) : (s.issue e).rst = s.rst := by
  cases e <;> simp [State.issue, State.emit]

@[simp] theorem State.issue_clkFault (e : Event) (s : State) : (s.issue e).clkFault = s.clkFault := by
  cases e <;> simp [State.issue, State.emit]

@[simp] theorem State.issue_clkBroken (e : Event) (s : State) : (s.issue e).clkBroken = s.clkBroken := by
  cases e <;> simp [State.issue, State.emit]

@[simp] theorem State.issue_dioFault (e : Event) (s : State) : (s.issue e).dioFault = s.dioFault := by
  cases e <;> simp [State.issue, State.emit]

@[simp] theorem State.issue_dioBroken (e : Event) (s : State) : (s.issue e).dioBroken = s.dioBroken := by
  cases e <;> simp [State.issue, State.emit]

@[simp] theorem State.issue_wireIn (e : Event) (s : State) : (s.issue e).wireIn = s.wireIn := by
  cases e <;> simp [State.issue, State.emit]

@[simp] theorem State.issue_trace (e : Event) (s : State) : (s.issue e).trace = s.trace ++ [e] := by
  simp [State.trace]

@[simp] theorem State.complete_trace (r : Byte) (s : State) : (s.complete r).trace = s.trace := rfl

@[simp] theorem State.stall_trace (s : State) : s.stall.trace = s.trace := rfl

@[simp] theorem State.expire_trace (f : Option Nat) (s : State) : (s.expire f).trace = s.trace := rfl

@[simp] theorem State.accept_trace (w : HostWord) (s : State) : (s.accept w).trace = s.trace := rfl

theorem State.issue_ts (d : Nat) (s : State) :
    (s.issue (.ts d)).tmrExpired = false ∧ (s.issue (.ts d)).tmrCount = some d := ⟨rfl, rfl⟩

/-- The timer's step, when it takes one: a countdown was running and its expiry is recorded. -/
theorem State.timerStep_eq_some {s t : State} (h : s.timerStep = some t) :
    ∃ d f, s.tmrCount = some d ∧ t = s.expire f ∧ (s.tmrFuture = none → f = none) := by
  unfold State.timerStep at h
  split at h
  · cases h
  · rename_i d hd
    split at h
    · exact ⟨d, none, hd, by cases h; rfl, fun _ => rfl⟩
    · cases h
    · rename_i k hk
      exact ⟨d, some k, hd, by cases h; rfl, fun hn => by rw [hk] at hn; cases hn⟩

theorem State.timerStep_fair {s : State} {d : Nat} (hc : s.tmrCount = some d) (hf : s.tmrFuture = none) :
    s.timerStep = some (s.expire none) := by simp [State.timerStep, hc, hf]

/-- The state an event is issued from is the state at hand, or it after the timer's step. -/
theorem State.release_eq_some {e : Event} {s t : State} (h : s.release e = some t) :
    t = s ∨ ∃ f, t = s.expire f ∧ (s.tmrFuture = none → f = none) := by
  unfold State.release at h
  split at h
  · obtain ⟨d, f, -, ht, hf⟩ := State.timerStep_eq_some h
    exact .inr ⟨f, ht, hf⟩
  · exact .inl (by cases h; rfl)

/-- Induction over an operation's run: what holds before and is kept by the timer's step, by its stopping, by every event
step for an event of the list, and by completion, holds of where the run ends. -/
theorem State.runOp_induct {P : State → Prop} {es : List Event} {r : Byte} {s : State} (h : P s)
    (hx : ∀ f u, P u → P (u.expire f)) (hs : ∀ u, P u → P u.stall) (hi : ∀ e ∈ es, ∀ u, P u → P (u.issue e))
    (hc : ∀ u, P u → P (u.complete r)) : P (s.runOp es r) := by
  induction es generalizing s with
  | nil => exact hc _ h
  | cons e es ih =>
    simp only [State.runOp]
    split
    · rename_i t ht
      refine ih (hi e (List.mem_cons_self ..) _ ?_) fun e' he' => hi e' (List.mem_cons_of_mem _ he')
      rcases State.release_eq_some ht with h' | ⟨f, h', -⟩
      · exact h' ▸ h
      · exact h' ▸ hx f _ h
    · exact hs _ h

end Sys2Proof.Machine
end

