-- ==== Sys2Proof/Laws/PerInstr.lean ====
section
/-! SUPPORT. Statements made of every instruction as syntax, one lemma per constructor. -/
namespace Sys2Proof.Laws

/-- The bits of a code as one number, bit 0 the least significant (opcode table). -/
def codeBits : Code → Nat
  | .host w => w.toNat
  | .wireCommand b => b.toNat
  | .wirePayload b => b.toNat

/-- `mask` and `match` of the instruction's row, copied from spec/opcode_table.json (for a wire row, read off its
bit string: a letter is a 0 of the mask). -/
def tableRow : Instr → Nat × Nat
  | .delay => (0xFFFFFFFFFFFFFF, 0x01000000000000)
  | .start => (0xFFFFFFFFFFFFFF, 0x02000000000000)
  | .stop => (0xFFFFFFFFFFFFFF, 0x03000000000000)
  | .writeByte _ => (0xFFFFFFFFFFFF00, 0x04000000000000)
  | .write1 _ => (0xFFFFFFFFFFFF00, 0x05010000000000)
  | .write2 _ _ => (0xFFFFFFFFFF0000, 0x05020000000000)
  | .write3 _ _ _ => (0xFFFFFFFF000000, 0x05030000000000)
  | .write4 _ _ _ _ => (0xFFFFFF00000000, 0x05040000000000)
  | .write5 _ _ _ _ _ => (0xFFFF0000000000, 0x05050000000000)
  | .encBrightness _ => (0xFFFFFFFFFFFF00, 0x10000000000000)
  | .setBrightness _ => (0xFFFFFFFFFFFF00, 0x11000000000000)
  | .showSegment _ _ => (0xFF00FFFFFFFF00, 0x12000000000000)
  | .showDigits _ _ _ _ => (0xFFFFFF00000000, 0x13000000000000)
  | .getSegments _ => (0xFFFFFFFFFFFF00, 0x20000000000000)
  | .showNumber _ => (0xFFFFFF00000000, 0x21000000000000)
  | .datacmdAuto => (0b11111111, 0b01000000)
  | .datacmdFixed => (0b11111111, 0b01000100)
  | .addrcmd _ => (0b11111100, 0b11000000)
  | .dispctrlOff => (0b11111111, 0b10000000)
  | .dispctrlOn _ => (0b11111000, 0b10001000)
  | .segpat _ => (0b00000000, 0b00000000)

/-- The fields a mask covers, and the fields of the row's match. -/
theorem host_row {f m g : HostFields} {mask value : Nat}
    (hm : (joinHost m).toNat = mask) (hg : (joinHost g).toNat = value)
    (h0 : f.op &&& m.op = g.op) (h1 : f.aux &&& m.aux = g.aux) (h2 : f.b4 &&& m.b4 = g.b4)
    (h3 : f.b3 &&& m.b3 = g.b3) (h4 : f.b2 &&& m.b2 = g.b2) (h5 : f.b1 &&& m.b1 = g.b1)
    (h6 : f.b0 &&& m.b0 = g.b0) :
    (joinHost f).toNat &&& mask = value := by
  have hj : joinHost f &&& joinHost m = joinHost g := by
    refine (BitVec.and_append (w := 48) (v := 8)).trans (congr (congrArg HAppend.hAppend ?_) h6)
    refine (BitVec.and_append (w := 40) (v := 8)).trans (congr (congrArg HAppend.hAppend ?_) h5)
    refine (BitVec.and_append (w := 32) (v := 8)).trans (congr (congrArg HAppend.hAppend ?_) h4)
    refine (BitVec.and_append (w := 24) (v := 8)).trans (congr (congrArg HAppend.hAppend ?_) h3)
    refine (BitVec.and_append (w := 16) (v := 8)).trans (congr (congrArg HAppend.hAppend ?_) h2)
    exact (BitVec.and_append (w := 8) (v := 8)).trans (congr (congrArg HAppend.hAppend h0) h1)
  rw [← hm, ← hg, ← BitVec.toNat_and, hj]

namespace TableRow

/-- The instruction's code has the fixed bits of its row of the opcode table (R57 to R63). -/
def Statement (i : Instr) : Prop := codeBits (encode i) &&& (tableRow i).1 = (tableRow i).2

theorem delay : Statement .delay :=
  host_row (m := ⟨0xFF, 0xFF, 0xFF, 0xFF, 0xFF, 0xFF, 0xFF⟩) (g := ⟨0x1, 0, 0, 0, 0, 0, 0⟩) rfl rfl
    (by simp) (by simp) (by simp) (by simp) (by simp) (by simp) (by simp)

theorem start : Statement .start :=
  host_row (m := ⟨0xFF, 0xFF, 0xFF, 0xFF, 0xFF, 0xFF, 0xFF⟩) (g := ⟨0x2, 0, 0, 0, 0, 0, 0⟩) rfl rfl
    (by simp) (by simp) (by simp) (by simp) (by simp) (by simp) (by simp)

theorem stop : Statement .stop :=
  host_row (m := ⟨0xFF, 0xFF, 0xFF, 0xFF, 0xFF, 0xFF, 0xFF⟩) (g := ⟨0x3, 0, 0, 0, 0, 0, 0⟩) rfl rfl
    (by simp) (by simp) (by simp) (by simp) (by simp) (by simp) (by simp)

theorem writeByte (b : Byte) : Statement (.writeByte b) :=
  host_row (m := ⟨0xFF, 0xFF, 0xFF, 0xFF, 0xFF, 0xFF, 0⟩) (g := ⟨0x4, 0, 0, 0, 0, 0, 0⟩) rfl rfl
    (by simp) (by simp) (by simp) (by simp) (by simp) (by simp) (by simp)

theorem write1 (b0 : Byte) : Statement (.write1 b0) :=
  host_row (m := ⟨0xFF, 0xFF, 0xFF, 0xFF, 0xFF, 0xFF, 0⟩) (g := ⟨0x5, 1, 0, 0, 0, 0, 0⟩) rfl rfl
    (by simp) (by simp) (by simp) (by simp) (by simp) (by simp) (by simp)

theorem write2 (b0 b1 : Byte) : Statement (.write2 b0 b1) :=
  host_row (m := ⟨0xFF, 0xFF, 0xFF, 0xFF, 0xFF, 0, 0⟩) (g := ⟨0x5, 2, 0, 0, 0, 0, 0⟩) rfl rfl
    (by simp) (by simp) (by simp) (by simp) (by simp) (by simp) (by simp)

theorem write3 (b0 b1 b2 : Byte) : Statement (.write3 b0 b1 b2) :=
  host_row (m := ⟨0xFF, 0xFF, 0xFF, 0xFF, 0, 0, 0⟩) (g := ⟨0x5, 3, 0, 0, 0, 0, 0⟩) rfl rfl
    (by simp) (by simp) (by simp) (by simp) (by simp) (by simp) (by simp)

theorem write4 (b0 b1 b2 b3 : Byte) : Statement (.write4 b0 b1 b2 b3) :=
  host_row (m := ⟨0xFF, 0xFF, 0xFF, 0, 0, 0, 0⟩) (g := ⟨0x5, 4, 0, 0, 0, 0, 0⟩) rfl rfl
    (by simp) (by simp) (by simp) (by simp) (by simp) (by simp) (by simp)

theorem write5 (b0 b1 b2 b3 b4 : Byte) : Statement (.write5 b0 b1 b2 b3 b4) :=
  host_row (m := ⟨0xFF, 0xFF, 0, 0, 0, 0, 0⟩) (g := ⟨0x5, 5, 0, 0, 0, 0, 0⟩) rfl rfl
    (by simp) (by simp) (by simp) (by simp) (by simp) (by simp) (by simp)

theorem encBrightness (level : Byte) : Statement (.encBrightness level) :=
  host_row (m := ⟨0xFF, 0xFF, 0xFF, 0xFF, 0xFF, 0xFF, 0⟩) (g := ⟨0x10, 0, 0, 0, 0, 0, 0⟩) rfl rfl
    (by simp) (by simp) (by simp) (by simp) (by simp) (by simp) (by simp)

theorem setBrightness (level : Byte) : Statement (.setBrightness level) :=
  host_row (m := ⟨0xFF, 0xFF, 0xFF, 0xFF, 0xFF, 0xFF, 0⟩) (g := ⟨0x11, 0, 0, 0, 0, 0, 0⟩) rfl rfl
    (by simp) (by simp) (by simp) (by simp) (by simp) (by simp) (by simp)

theorem showSegment (segment pos : Byte) : Statement (.showSegment segment pos) :=
  host_row (m := ⟨0xFF, 0, 0xFF, 0xFF, 0xFF, 0xFF, 0⟩) (g := ⟨0x12, 0, 0, 0, 0, 0, 0⟩) rfl rfl
    (by simp) (by simp) (by simp) (by simp) (by simp) (by simp) (by simp)

theorem showDigits (s0 s1 s2 s3 : Byte) : Statement (.showDigits s0 s1 s2 s3) :=
  host_row (m := ⟨0xFF, 0xFF, 0xFF, 0, 0, 0, 0⟩) (g := ⟨0x13, 0, 0, 0, 0, 0, 0⟩) rfl rfl
    (by simp) (by simp) (by simp) (by simp) (by simp) (by simp) (by simp)

theorem getSegments (digit : Byte) : Statement (.getSegments digit) :=
  host_row (m := ⟨0xFF, 0xFF, 0xFF, 0xFF, 0xFF, 0xFF, 0⟩) (g := ⟨0x20, 0, 0, 0, 0, 0, 0⟩) rfl rfl
    (by simp) (by simp) (by simp) (by simp) (by simp) (by simp) (by simp)

theorem showNumber (n : Number) : Statement (.showNumber n) :=
  host_row (m := ⟨0xFF, 0xFF, 0xFF, 0, 0, 0, 0⟩) (g := ⟨0x21, 0, 0, 0, 0, 0, 0⟩) rfl rfl
    (by simp) (by simp) (by simp) (by simp) (by simp) (by simp) (by simp)

theorem datacmdAuto : Statement .datacmdAuto := rfl

theorem datacmdFixed : Statement .datacmdFixed := rfl

theorem addrcmd (a : BitVec 2) : Statement (.addrcmd a) := by
  show (addressByte a).toNat &&& 0b11111100 = 0b11000000
  revert a
  decide

theorem dispctrlOff : Statement .dispctrlOff := rfl

theorem dispctrlOn (f : BitVec 3) : Statement (.dispctrlOn f) := by
  show (displayOnByte f).toNat &&& 0b11111000 = 0b10001000
  revert f
  decide

theorem segpat (pattern : Byte) : Statement (.segpat pattern) := Nat.and_zero _

end TableRow

end Sys2Proof.Laws
end

