-- ==== Sys2Proof/Laws/Run.lean ====
section
/-! SUPPORT. An operation's run under the timer's fairness (R147) as a plain replay of its event list, and what the
replay does to each part of the state. -/
namespace Sys2Proof.Machine

/-- One event issued by a block whose timer always expires. -/
def State.playEvent (s : State) (e : Event) : State := (if s.held e then s.expire none else s).issue e

/-- A list of events issued by a block whose timer always expires. -/
def State.play (es : List Event) (s : State) : State := es.foldl State.playEvent s

@[simp] theorem State.play_nil (s : State) : s.play [] = s := rfl

theorem State.play_cons (e : Event) (es : List Event) (s : State) :
    s.play (e :: es) = (s.playEvent e).play es := rfl

theorem State.play_append (es fs : List Event) (s : State) : s.play (es ++ fs) = (s.play es).play fs :=
  List.foldl_append

theorem State.playEvent_of_held {e : Event} {s : State} (h : s.held e = true) :
    s.playEvent e = (s.expire none).issue e := by simp [State.playEvent, h]

theorem State.playEvent_of_free {e : Event} {s : State} (h : s.held e = false) : s.playEvent e = s.issue e := by
  simp [State.playEvent, h]

/-- An event is issued from the state at hand or from it after the timer's expiry. -/
theorem State.playEvent_cases (e : Event) (s : State) :
    s.playEvent e = s.issue e ∨ s.playEvent e = (s.expire none).issue e := by
  unfold State.playEvent
  split
  · exact .inr rfl
  · exact .inl rfl

@[simp] theorem State.playEvent_cfg (e : Event) (s : State) : (s.playEvent e).cfg = s.cfg := by
  rcases s.playEvent_cases e with h | h <;> simp [h]

@[simp] theorem State.playEvent_opr (e : Event) (s : State) : (s.playEvent e).opr = s.opr := by
  rcases s.playEvent_cases e with h | h <;> simp [h]

@[simp] theorem State.playEvent_host (e : Event) (s : State) : (s.playEvent e).host = s.host := by
  rcases s.playEvent_cases e with h | h <;> simp [h]

@[simp] theorem State.playEvent_rst (e : Event) (s : State) : (s.playEvent e).rst = s.rst := by
  rcases s.playEvent_cases e with h | h <;> simp [h]

@[simp] theorem State.playEvent_clkFault (e : Event) (s : State) : (s.playEvent e).clkFault = s.clkFault := by
  rcases s.playEvent_cases e with h | h <;> simp [h]

@[simp] theorem State.playEvent_clkBroken (e : Event) (s : State) : (s.playEvent e).clkBroken = s.clkBroken := by
  rcases s.playEvent_cases e with h | h <;> simp [h]

@[simp] theorem State.playEvent_dioFault (e : Event) (s : State) : (s.playEvent e).dioFault = s.dioFault := by
  rcases s.playEvent_cases e with h | h <;> simp [h]

@[simp] theorem State.playEvent_dioBroken (e : Event) (s : State) : (s.playEvent e).dioBroken = s.dioBroken := by
  rcases s.playEvent_cases e with h | h <;> simp [h]

@[simp] theorem State.playEvent_wireIn (e : Event) (s : State) : (s.playEvent e).wireIn = s.wireIn := by
  rcases s.playEvent_cases e with h | h <;> simp [h]

@[simp] theorem State.playEvent_busy (e : Event) (s : State) : (s.playEvent e).busy = s.busy := by
  rcases s.playEvent_cases e with h | h <;> simp [h]

@[simp] theorem State.playEvent_clk (e : Event) (s : State) : (s.playEvent e).clk = e.clkAfter s.clk := by
  rcases s.playEvent_cases e with h | h <;> simp [h]

@[simp] theorem State.playEvent_dio (e : Event) (s : State) : (s.playEvent e).dio = e.dioAfter s.dio := by
  rcases s.playEvent_cases e with h | h <;> simp [h]

@[simp] theorem State.playEvent_trace (e : Event) (s : State) : (s.playEvent e).trace = s.trace ++ [e] := by
  rcases s.playEvent_cases e with h | h <;> simp [h]

@[simp] theorem State.playEvent_upc (e : Event) (s : State) : (s.playEvent e).upc = s.upc + 1 := by
  rcases s.playEvent_cases e with h | h <;> simp [h]

theorem State.playEvent_tmrFuture {e : Event} {s : State} (h : s.tmrFuture = none) :
    (s.playEvent e).tmrFuture = none := by
  rcases s.playEvent_cases e with h' | h' <;> simp [h', h]

@[simp] theorem State.play_cfg (es : List Event) (s : State) : (s.play es).cfg = s.cfg := by
  induction es generalizing s with
  | nil => rfl
  | cons e es ih => rw [State.play_cons, ih, State.playEvent_cfg]

@[simp] theorem State.play_opr (es : List Event) (s : State) : (s.play es).opr = s.opr := by
  induction es generalizing s with
  | nil => rfl
  | cons e es ih => rw [State.play_cons, ih, State.playEvent_opr]

@[simp] theorem State.play_host (es : List Event) (s : State) : (s.play es).host = s.host := by
  induction es generalizing s with
  | nil => rfl
  | cons e es ih => rw [State.play_cons, ih, State.playEvent_host]

@[simp] theorem State.play_rst (es : List Event) (s : State) : (s.play es).rst = s.rst := by
  induction es generalizing s with
  | nil => rfl
  | cons e es ih => rw [State.play_cons, ih, State.playEvent_rst]

@[simp] theorem State.play_clkFault (es : List Event) (s : State) : (s.play es).clkFault = s.clkFault := by
  induction es generalizing s with
  | nil => rfl
  | cons e es ih => rw [State.play_cons, ih, State.playEvent_clkFault]

@[simp] theorem State.play_clkBroken (es : List Event) (s : State) : (s.play es).clkBroken = s.clkBroken := by
  induction es generalizing s with
  | nil => rfl
  | cons e es ih => rw [State.play_cons, ih, State.playEvent_clkBroken]

@[simp] theorem State.play_dioFault (es : List Event) (s : State) : (s.play es).dioFault = s.dioFault := by
  induction es generalizing s with
  | nil => rfl
  | cons e es ih => rw [State.play_cons, ih, State.playEvent_dioFault]

@[simp] theorem State.play_dioBroken (es : List Event) (s : State) : (s.play es).dioBroken = s.dioBroken := by
  induction es generalizing s with
  | nil => rfl
  | cons e es ih => rw [State.play_cons, ih, State.playEvent_dioBroken]

@[simp] theorem State.play_wireIn (es : List Event) (s : State) : (s.play es).wireIn = s.wireIn := by
  induction es generalizing s with
  | nil => rfl
  | cons e es ih => rw [State.play_cons, ih, State.playEvent_wireIn]

@[simp] theorem State.play_busy (es : List Event) (s : State) : (s.play es).busy = s.busy := by
  induction es generalizing s with
  | nil => rfl
  | cons e es ih => rw [State.play_cons, ih, State.playEvent_busy]

theorem State.play_tmrFuture (es : List Event) {s : State} (h : s.tmrFuture = none) :
    (s.play es).tmrFuture = none := by
  induction es generalizing s with
  | nil => exact h
  | cons e es ih => exact ih (State.playEvent_tmrFuture h)

theorem State.play_trace (es : List Event) (s : State) : (s.play es).trace = s.trace ++ es := by
  induction es generalizing s with
  | nil => simp
  | cons e es ih => simp [State.play_cons, ih]

theorem State.play_upc (es : List Event) (s : State) : (s.play es).upc = s.upc + es.length := by
  induction es generalizing s with
  | nil => rfl
  | cons e es ih => simp only [State.play_cons, ih, State.playEvent_upc, List.length_cons]; omega

theorem levelsFrom_cons (clk dio : Bool) (e : Event) (es : List Event) :
    levelsFrom clk dio (e :: es) = levelsFrom (e.clkAfter clk) (e.dioAfter dio) es := by
  cases e <;> rfl

theorem levelsFrom_append (clk dio : Bool) (es fs : List Event) :
    levelsFrom clk dio (es ++ fs) = levelsFrom (levelsFrom clk dio es).1 (levelsFrom clk dio es).2 fs := by
  induction es generalizing clk dio with
  | nil => rfl
  | cons e es ih => rw [List.cons_append, levelsFrom_cons, levelsFrom_cons, ih]

/-- The levels after a replay are those of its events (R70). -/
theorem State.play_levels (es : List Event) (s : State) :
    ((s.play es).clk, (s.play es).dio) = levelsFrom s.clk s.dio es := by
  induction es generalizing s with
  | nil => rfl
  | cons e es ih => rw [State.play_cons, ih, levelsFrom_cons, State.playEvent_clk, State.playEvent_dio]

theorem State.play_clk (es : List Event) (s : State) : (s.play es).clk = (levelsFrom s.clk s.dio es).1 := by
  rw [← State.play_levels]

theorem State.play_dio (es : List Event) (s : State) : (s.play es).dio = (levelsFrom s.clk s.dio es).2 := by
  rw [← State.play_levels]

/-- A paced list of events, of a block whose timer always expires, runs to its end and completes. -/
theorem State.runOp_fair {q : Nat} {es : List Event} (r : Byte) {s : State} (hp : pacedBy q es = true)
    (hf : s.tmrFuture = none) : s.runOp es r = (s.play es).complete r := by
  induction es using pacedBy.induct generalizing s with
  | case1 => rfl
  | case2 p d rest ih =>
    simp only [pacedBy, Bool.and_eq_true] at hp
    have h1 : (s.issue (.pin p)).tmrFuture = none := by simpa using hf
    have h2 : ((s.issue (.pin p)).issue (.ts d)).timerStep
        = some (((s.issue (.pin p)).issue (.ts d)).expire none) :=
      State.timerStep_fair rfl (by simpa using hf)
    have h3 : ((s.issue (.pin p)).issue (.ts d)).held .tw = true := rfl
    have hl : s.runOp (.pin p :: .ts d :: .tw :: rest) r
        = ((((s.issue (.pin p)).issue (.ts d)).expire none).issue .tw).runOp rest r := by
      simp [State.runOp, State.release, State.held, h2]
      simp [State.issue, State.emit]
    have hr : s.play (.pin p :: .ts d :: .tw :: rest)
        = ((((s.issue (.pin p)).issue (.ts d)).expire none).issue .tw).play rest := by
      rw [State.play_cons, State.play_cons, State.play_cons, State.playEvent_of_free (e := .pin p) rfl,
        State.playEvent_of_free (e := .ts d) rfl, State.playEvent_of_held h3]
    rw [hl, hr]
    exact ih hp.2 (by simp)
  | case3 d rest ih =>
    simp only [pacedBy, Bool.and_eq_true] at hp
    have h2 : (s.issue (.ts d)).timerStep = some ((s.issue (.ts d)).expire none) :=
      State.timerStep_fair rfl (by simpa using hf)
    have h3 : (s.issue (.ts d)).held .tw = true := rfl
    have hl : s.runOp (.ts d :: .tw :: rest) r = (((s.issue (.ts d)).expire none).issue .tw).runOp rest r := by
      simp [State.runOp, State.release, State.held, h2]
      simp [State.issue, State.emit]
    have hr : s.play (.ts d :: .tw :: rest) = (((s.issue (.ts d)).expire none).issue .tw).play rest := by
      rw [State.play_cons, State.play_cons, State.playEvent_of_free (e := .ts d) rfl, State.playEvent_of_held h3]
    rw [hl, hr]
    exact ih hp.2 (by simp)
  | case4 es h1 h2 h3 => simp [pacedBy] at hp

/-! ## Every format is paced -/

theorem pacedBy_append {q : Nat} {es fs : List Event} (he : pacedBy q es = true) (hf : pacedBy q fs = true) :
    pacedBy q (es ++ fs) = true := by
  induction es using pacedBy.induct with
  | case1 => exact hf
  | case2 p d rest ih =>
    simp only [pacedBy, Bool.and_eq_true] at he
    simp [pacedBy, he.1, ih he.2]
  | case3 d rest ih =>
    simp only [pacedBy, Bool.and_eq_true] at he
    simp [pacedBy, he.1, ih he.2]
  | case4 es h1 h2 h3 => simp [pacedBy] at he

theorem pacedBy_flatMap {α : Type} {q : Nat} {f : α → List Event} {xs : List α}
    (h : ∀ x ∈ xs, pacedBy q (f x) = true) : pacedBy q (xs.flatMap f) = true := by
  induction xs with
  | nil => rfl
  | cons x xs ih =>
    rw [List.flatMap_cons]
    exact pacedBy_append (h x (List.mem_cons_self ..)) (ih fun y hy => h y (List.mem_cons_of_mem _ hy))

theorem pacedBy_delaySeq (c : Config) : pacedBy c.qUs (delaySeq c) = true := by simp [delaySeq, pacedBy]

theorem pacedBy_paced (c : Config) (p : Pin) : pacedBy c.qUs (paced c p) = true := by
  simp [paced, delaySeq, pacedBy]

theorem pacedBy_startSeq (c : Config) : pacedBy c.qUs (startSeq c) = true := pacedBy_paced c _

theorem pacedBy_stopSeq (c : Config) : pacedBy c.qUs (stopSeq c) = true :=
  pacedBy_append (pacedBy_append (pacedBy_paced c _) (pacedBy_paced c _)) (pacedBy_paced c _)

theorem pacedBy_bitCell (c : Config) (v : Bool) : pacedBy c.qUs (bitCell c v) = true :=
  pacedBy_append (pacedBy_append (pacedBy_paced c _) (pacedBy_paced c _)) (pacedBy_paced c _)

theorem pacedBy_ackSlot (c : Config) : pacedBy c.qUs (ackSlot c) = true :=
  pacedBy_append (pacedBy_append (pacedBy_append (pacedBy_paced c _) (pacedBy_paced c _)) (pacedBy_delaySeq c))
    (pacedBy_paced c _)

theorem pacedBy_byteFrame (c : Config) (b : Byte) : pacedBy c.qUs (byteFrame c b) = true :=
  pacedBy_append (pacedBy_flatMap fun _ _ => pacedBy_bitCell c _) (pacedBy_ackSlot c)

theorem pacedBy_txnFrame (c : Config) (bs : List Byte) : pacedBy c.qUs (txnFrame c bs) = true :=
  pacedBy_append (pacedBy_append (pacedBy_startSeq c) (pacedBy_flatMap fun b _ => pacedBy_byteFrame c b))
    (pacedBy_stopSeq c)

theorem pacedBy_segmentEvents (c : Config) (v pos : Byte) : pacedBy c.qUs (segmentEvents c v pos) = true := by
  unfold segmentEvents
  split
  · rfl
  · exact pacedBy_append (pacedBy_txnFrame c _) (pacedBy_txnFrame c _)

theorem pacedBy_digitsEvents (c : Config) (s0 s1 s2 s3 : Byte) :
    pacedBy c.qUs (digitsEvents c s0 s1 s2 s3) = true :=
  pacedBy_append (pacedBy_txnFrame c _) (pacedBy_txnFrame c _)

theorem pacedBy_enabledEvents {c : Config} {es : List Event} (h : pacedBy c.qUs es = true) :
    pacedBy c.qUs (enabledEvents c es) = true := by
  unfold enabledEvents
  split
  · exact h
  · rfl

/-- Every operation's expansion is paced. -/
theorem pacedBy_expand (c : Config) (i : Instr) : pacedBy c.qUs (expand c i) = true := by
  cases i with
  | delay => exact pacedBy_enabledEvents (pacedBy_delaySeq c)
  | start => exact pacedBy_enabledEvents (pacedBy_startSeq c)
  | stop => exact pacedBy_enabledEvents (pacedBy_stopSeq c)
  | writeByte b => exact pacedBy_enabledEvents (pacedBy_byteFrame c b)
  | write1 _ => exact pacedBy_enabledEvents (pacedBy_txnFrame c _)
  | write2 _ _ => exact pacedBy_enabledEvents (pacedBy_txnFrame c _)
  | write3 _ _ _ => exact pacedBy_enabledEvents (pacedBy_txnFrame c _)
  | write4 _ _ _ _ => exact pacedBy_enabledEvents (pacedBy_txnFrame c _)
  | write5 _ _ _ _ _ => exact pacedBy_enabledEvents (pacedBy_txnFrame c _)
  | encBrightness _ => rfl
  | setBrightness _ => exact pacedBy_txnFrame c _
  | showSegment _ _ => exact pacedBy_segmentEvents c _ _
  | showDigits _ _ _ _ => exact pacedBy_digitsEvents c _ _ _ _
  | getSegments _ => rfl
  | showNumber _ => exact pacedBy_digitsEvents c _ _ _ _
  | datacmdAuto => rfl
  | datacmdFixed => rfl
  | addrcmd _ => rfl
  | dispctrlOff => rfl
  | dispctrlOn _ => rfl
  | segpat _ => rfl

/-- A host operation's meaning is the run of its expansion with the response of R68. -/
theorem exec_host {i : Instr} (hi : i.isHost = true) (s : State) :
    exec i s = .next (s.runOp (expand s.cfg i) (response s.cfg i)) := by
  cases i <;> first | rfl | cases hi

/-- After a paced replay the timer has expired since its last start. -/
theorem State.play_timer {q : Nat} {es : List Event} {s : State} (hp : pacedBy q es = true) :
    (s.play es).tmrExpired = (if es = [] then s.tmrExpired else true)
      ∧ (s.play es).tmrCount = (if es = [] then s.tmrCount else none) := by
  induction es using pacedBy.induct generalizing s with
  | case1 => exact ⟨rfl, rfl⟩
  | case2 p d rest ih =>
    simp only [pacedBy, Bool.and_eq_true] at hp
    have h := ih (s := s.play [.pin p, .ts d, .tw]) hp.2
    rw [← State.play_append] at h
    simp only [List.cons_append, List.nil_append] at h
    rw [h.1, h.2]
    have h3 : ((s.issue (.pin p)).issue (.ts d)).held .tw = true := rfl
    have hr : s.play [.pin p, .ts d, .tw] = (((s.issue (.pin p)).issue (.ts d)).expire none).issue .tw := by
      rw [State.play_cons, State.play_cons, State.play_cons, State.playEvent_of_free (e := .pin p) rfl,
        State.playEvent_of_free (e := .ts d) rfl, State.playEvent_of_held h3, State.play_nil]
    rw [hr]
    by_cases hn : rest = [] <;> simp only [hn, if_true, if_false, reduceCtorEq] <;>
      exact ⟨by trivial, by trivial⟩
  | case3 d rest ih =>
    simp only [pacedBy, Bool.and_eq_true] at hp
    have h := ih (s := s.play [.ts d, .tw]) hp.2
    rw [← State.play_append] at h
    simp only [List.cons_append, List.nil_append] at h
    rw [h.1, h.2]
    have h3 : (s.issue (.ts d)).held .tw = true := rfl
    have hr : s.play [.ts d, .tw] = ((s.issue (.ts d)).expire none).issue .tw := by
      rw [State.play_cons, State.play_cons, State.playEvent_of_free (e := .ts d) rfl, State.playEvent_of_held h3,
        State.play_nil]
    rw [hr]
    by_cases hn : rest = [] <;> simp only [hn, if_true, if_false, reduceCtorEq] <;>
      exact ⟨by trivial, by trivial⟩
  | case4 es h1 h2 h3 => simp [pacedBy] at hp

/-- A paced replay followed by completion has run the operation (R80, R81). -/
theorem State.ran_play {q : Nat} {es : List Event} (r : Byte) {s : State} (hp : pacedBy q es = true)
    (hf : TimerFair s) : Ran es r s ((s.play es).complete r) where
  trace := State.play_trace es s
  upc := State.play_upc es s
  busy := rfl
  rsp := rfl
  tmrExpired := (State.play_timer hp).1
  tmrCount := (State.play_timer hp).2
  frame :=
    { cfg := State.play_cfg es s, opr := State.play_opr es s, host := State.play_host es s, rst := State.play_rst es s,
      clkFault := State.play_clkFault es s, dioFault := State.play_dioFault es s,
      clkBroken := State.play_clkBroken es s, dioBroken := State.play_dioBroken es s,
      wireIn := State.play_wireIn es s, tmrFuture := (State.play_tmrFuture es hf).trans hf.symm }

/-- Under the timer's fairness (R147) a host operation's meaning is the replay of its expansion, then completion. -/
theorem exec_fair {i : Instr} (hi : i.isHost = true) {s : State} (hf : TimerFair s) :
    exec i s = .next ((s.play (expand s.cfg i)).complete (response s.cfg i)) := by
  rw [exec_host hi, State.runOp_fair _ (pacedBy_expand s.cfg i) hf]

/-- Every host word's expansion is paced, an illegal word's too (R64, R84). -/
theorem pacedBy_expandWord (c : Config) (w : HostWord) : pacedBy c.qUs (expandWord c w) = true := by
  unfold expandWord
  split
  · exact pacedBy_expand c _
  · rfl

/-- In a paced list each pin event is followed at once by one quantum. -/
theorem pacedBy_after_pin {q i : Nat} {p : Pin} {es : List Event} (h : pacedBy q es = true)
    (hi : es[i]? = some (.pin p)) : es[i + 1]? = some (.ts q) ∧ es[i + 2]? = some .tw := by
  induction es using pacedBy.induct generalizing i with
  | case1 => simp at hi
  | case2 p' d rest ih =>
    simp only [pacedBy, Bool.and_eq_true, beq_iff_eq] at h
    match i with
    | 0 => simp [h.1]
    | 1 => simp at hi
    | 2 => simp at hi
    | k + 3 => exact ih h.2 hi
  | case3 d rest ih =>
    simp only [pacedBy, Bool.and_eq_true, beq_iff_eq] at h
    match i with
    | 0 => simp at hi
    | 1 => simp at hi
    | k + 2 => exact ih h.2 hi
  | case4 es h1 h2 h3 => simp [pacedBy] at h

end Sys2Proof.Machine
end

