-- ==== Sys2Proof/Laws/Step.lean ====
section
/-! SUPPORT. Everything a step can do, once: five ways to go on, and what an operation's run leaves to do. -/
namespace Sys2Proof.Machine

theorem isHost_of_decodeBare {f : HostFields} {i j : Instr} (hi : i.isHost = true) (h : decodeBare f i = .ok j) :
    j.isHost = true := by
  unfold decodeBare at h
  split at h
  · cases h
  · split at h
    · cases h
    · exact Decoded.ok.inj h ▸ hi

theorem isHost_of_decodeByte {f : HostFields} {g : Byte → Instr} {j : Instr} (hg : ∀ b, (g b).isHost = true)
    (h : decodeByte f g = .ok j) : j.isHost = true := by
  unfold decodeByte at h
  split at h
  · cases h
  · split at h
    · cases h
    · exact Decoded.ok.inj h ▸ hg _

theorem isHost_of_decodeQuad {f : HostFields} {g : Byte → Byte → Byte → Byte → Instr} {j : Instr}
    (hg : ∀ a b c d, (g a b c d).isHost = true) (h : decodeQuad f g = .ok j) : j.isHost = true := by
  unfold decodeQuad at h
  split at h
  · cases h
  · split at h
    · cases h
    · exact Decoded.ok.inj h ▸ hg _ _ _ _

theorem isHost_of_decodeShowSegment {f : HostFields} {j : Instr} (h : decodeShowSegment f = .ok j) :
    j.isHost = true := by
  unfold decodeShowSegment at h
  split at h
  · cases h
  · exact Decoded.ok.inj h ▸ rfl

theorem isHost_of_decodeWrite {f : HostFields} {j : Instr} (h : decodeWrite f = .ok j) : j.isHost = true := by
  unfold decodeWrite at h
  repeat' split at h
  all_goals first
    | exact Decoded.ok.inj h ▸ rfl
    | cases h

/-- Only a host operation stands on the host port. -/
theorem isHost_of_decode {w : HostWord} {i : Instr} (h : decode (.host w) = .ok i) : i.isHost = true := by
  simp only [decode, decodeFields] at h
  by_cases h1 : (splitHost w).op = 0x01
  · exact isHost_of_decodeBare rfl (by rwa [if_pos h1] at h)
  rw [if_neg h1] at h
  by_cases h2 : (splitHost w).op = 0x02
  · exact isHost_of_decodeBare rfl (by rwa [if_pos h2] at h)
  rw [if_neg h2] at h
  by_cases h3 : (splitHost w).op = 0x03
  · exact isHost_of_decodeBare rfl (by rwa [if_pos h3] at h)
  rw [if_neg h3] at h
  by_cases h4 : (splitHost w).op = 0x04
  · exact isHost_of_decodeByte (fun _ => rfl) (by rwa [if_pos h4] at h)
  rw [if_neg h4] at h
  by_cases h5 : (splitHost w).op = 0x05
  · exact isHost_of_decodeWrite (by rwa [if_pos h5] at h)
  rw [if_neg h5] at h
  by_cases h6 : (splitHost w).op = 0x10
  · exact isHost_of_decodeByte (fun _ => rfl) (by rwa [if_pos h6] at h)
  rw [if_neg h6] at h
  by_cases h7 : (splitHost w).op = 0x11
  · exact isHost_of_decodeByte (fun _ => rfl) (by rwa [if_pos h7] at h)
  rw [if_neg h7] at h
  by_cases h8 : (splitHost w).op = 0x12
  · exact isHost_of_decodeShowSegment (by rwa [if_pos h8] at h)
  rw [if_neg h8] at h
  by_cases h9 : (splitHost w).op = 0x13
  · exact isHost_of_decodeQuad (fun _ _ _ _ => rfl) (by rwa [if_pos h9] at h)
  rw [if_neg h9] at h
  by_cases h10 : (splitHost w).op = 0x20
  · exact isHost_of_decodeByte (fun _ => rfl) (by rwa [if_pos h10] at h)
  rw [if_neg h10] at h
  by_cases h11 : (splitHost w).op = 0x21
  · exact isHost_of_decodeQuad (fun _ _ _ _ => rfl) (by rwa [if_pos h11] at h)
  rw [if_neg h11] at h
  cases h

/-- Only a wire byte stands on the wire. -/
theorem not_isHost_of_decode {d : Display} {b : Byte} {i : Instr} (h : decode (d.codeOf b) = .ok i) :
    i.isHost = false := by
  have hc : ∀ j, decodeCommandByte b = .ok j → j.isHost = false := by
    intro j hj
    simp only [decodeCommandByte] at hj
    repeat' split at hj
    all_goals cases hj
    all_goals rfl
  unfold Display.codeOf at h
  split at h
  · exact hc i h
  all_goals
    cases h
    rfl

/-- A wire byte's meaning is that the display takes its effect. -/
theorem exec_wire {i : Instr} (hi : i.isHost = false) (s : State) :
    exec i s = .next (s.takeWire (wireEffect i)) := by
  cases i <;> first | rfl | cases hi

/-- A step is one of five things: reset, a wire byte, a step of the operation in progress, a whole operation from its
word, or waiting. -/
theorem step_cases {s t : State} (h : step s = .next t) :
    (s.rst = true ∧ t = s.resetBlock)
    ∨ (s.rst = false ∧ ∃ b bs f, s.wireIn = b :: bs ∧ t = State.takeWire f { s with wireIn := bs }
        ∧ (f = Display.lose ∨ ∃ i, i.isHost = false ∧ f = wireEffect i))
    ∨ (s.rst = false ∧ s.wireIn = [] ∧ s.busy = true ∧ t = s.sequencerStep)
    ∨ (s.rst = false ∧ s.wireIn = [] ∧ s.busy = false ∧ ∃ w ws, s.host = w :: ws
        ∧ t = (State.accept w { s with host := ws }).runOp (expandWord s.cfg w) (responseWord s.cfg w))
    ∨ (s.rst = false ∧ s.wireIn = [] ∧ s.busy = false ∧ s.host = [] ∧ t = s.idle) := by
  unfold step State.turn at h
  cases hr : s.rst with
  | true =>
    simp only [hr, if_true] at h
    exact .inl ⟨rfl, (Host.Outcome.next.inj h).symm⟩
  | false =>
    refine .inr ?_
    simp only [hr, Bool.false_eq_true, if_false] at h
    cases hw : s.wireIn with
    | cons b bs =>
      refine .inl ⟨rfl, b, bs, ?_⟩
      simp only [hw, State.wireTurn] at h
      split at h
      · rename_i hd
        split at hd
        · cases hd
        · cases hd
          exact ⟨_, rfl, (Host.Outcome.next.inj h).symm, .inl rfl⟩
      · rename_i i u hd
        split at hd
        · rename_i j hj
          cases hd
          have hh := not_isHost_of_decode hj
          rw [exec_wire hh] at h
          exact ⟨_, rfl, (Host.Outcome.next.inj h).symm, .inr ⟨_, hh, rfl⟩⟩
        · cases hd
    | nil =>
      refine .inr ?_
      simp only [hw] at h
      cases hb : s.busy with
      | true =>
        simp only [hb, if_true] at h
        exact .inl ⟨rfl, rfl, rfl, (Host.Outcome.next.inj h).symm⟩
      | false =>
        refine .inr ?_
        simp only [hb, Bool.false_eq_true, if_false] at h
        cases hh : s.host with
        | nil =>
          simp only [hh] at h
          exact .inr ⟨rfl, rfl, rfl, rfl, (Host.Outcome.next.inj h).symm⟩
        | cons w ws =>
          refine .inl ⟨rfl, rfl, rfl, w, ws, rfl, ?_⟩
          simp only [hh, State.hostTurn] at h
          cases hd : decode (.host w) with
          | error r =>
            simp only [hd] at h
            rw [← Host.Outcome.next.inj h]
            simp [expandWord, responseWord, hd, State.runOp]
          | ok i =>
            simp only [hd] at h
            rw [exec_host (isHost_of_decode hd)] at h
            rw [← Host.Outcome.next.inj h]
            simp [expandWord, responseWord, hd]

/-- What every kind of step keeps: a property kept by each primitive update of the state is kept by a step. -/
theorem step_induct {P : State → Prop} {s t : State} (h : step s = .next t) (h0 : P s)
    (hreset : ∀ u, P u → P u.resetBlock)
    (hwire : ∀ u bs f, P u → (f = Display.lose ∨ ∃ i, i.isHost = false ∧ f = wireEffect i) →
      P (State.takeWire f { u with wireIn := bs }))
    (haccept : ∀ u w ws, P u → P (State.accept w { u with host := ws }))
    (hissue : ∀ u e, P u → P (u.issue e)) (hexpire : ∀ u f, P u → P (u.expire f))
    (hstall : ∀ u, P u → P u.stall) (hcomplete : ∀ u r, P u → P (u.complete r)) (hidle : ∀ u, P u → P u.idle) : P t := by
  rcases step_cases h with ⟨-, rfl⟩ | ⟨-, b, bs, f, -, rfl, hf⟩ | ⟨-, -, -, rfl⟩ | ⟨-, -, -, w, ws, -, rfl⟩
      | ⟨-, -, -, -, rfl⟩
  · exact hreset _ h0
  · exact hwire _ _ _ h0 hf
  · unfold State.sequencerStep
    split
    · split
      · split
        · rename_i ht
          obtain ⟨d, f, -, rfl, -⟩ := State.timerStep_eq_some ht
          exact hexpire _ _ h0
        · exact hstall _ h0
      · exact hissue _ _ h0
    · split
      · exact hcomplete _ _ h0
      · exact h0
  · exact State.runOp_induct (haccept _ _ _ h0) (fun f u => hexpire u f) hstall (fun e _ u => hissue u e)
      (fun u => hcomplete u _)
  · exact hidle _ h0

/-- An operation's run from its own list of events: events issued and events left are together the list, and the
parameters, the latched word and UPC's bound are kept. -/
theorem State.runOp_remaining {es : List Event} {r : Byte} {s : State} (hb : s.busy = true)
    (hu : s.upc ≤ s.latched.length) (he : s.latched.drop s.upc = es) :
    (s.runOp es r).trace ++ (s.runOp es r).remaining = s.trace ++ es
      ∧ levelsFrom (s.runOp es r).clk (s.runOp es r).dio (s.runOp es r).remaining = levelsFrom s.clk s.dio es
      ∧ (s.runOp es r).cfg = s.cfg
      ∧ ((s.runOp es r).busy = true → (s.runOp es r).upc ≤ (s.runOp es r).latched.length) := by
  induction es generalizing s with
  | nil => simp [State.runOp, State.remaining, State.complete, State.trace]
  | cons e es ih =>
    have hlt : s.upc < s.latched.length := by
      rcases Nat.lt_or_ge s.upc s.latched.length with h | h
      · exact h
      · rw [List.drop_eq_nil_of_le h] at he
        cases he
    have hd : s.latched.drop (s.upc + 1) = es := by
      rw [← List.tail_drop, he]
      rfl
    have next : ∀ u : State, u.busy = true → u.upc = s.upc → u.cfg = s.cfg → u.opr = s.opr → u.trace = s.trace →
        u.clk = s.clk → u.dio = s.dio → _ := fun u h1 h2 h3 h4 h5 h6 h7 =>
      have hl : (u.issue e).latched = s.latched := by simp [State.latched, h3, h4]
      ih (s := u.issue e) (by simpa using h1) (by rw [hl]; simp [h2]; omega) (by rw [hl]; simpa [h2] using hd)
    have fin : ∀ u : State, u.busy = true → u.upc = s.upc → u.cfg = s.cfg → u.opr = s.opr → u.trace = s.trace →
        u.clk = s.clk → u.dio = s.dio →
        ((u.issue e).runOp es r).trace ++ ((u.issue e).runOp es r).remaining = s.trace ++ e :: es
        ∧ levelsFrom ((u.issue e).runOp es r).clk ((u.issue e).runOp es r).dio ((u.issue e).runOp es r).remaining
            = levelsFrom s.clk s.dio (e :: es)
        ∧ ((u.issue e).runOp es r).cfg = s.cfg
        ∧ (((u.issue e).runOp es r).busy = true →
            ((u.issue e).runOp es r).upc ≤ ((u.issue e).runOp es r).latched.length) := by
      intro u h1 h2 h3 h4 h5 h6 h7
      obtain ⟨a, b, c, d⟩ := next u h1 h2 h3 h4 h5 h6 h7
      refine ⟨?_, ?_, ?_, d⟩
      · rw [a, State.issue_trace, h5]
        simp
      · rw [b, levelsFrom_cons, State.issue_clk, State.issue_dio, h6, h7]
      · rw [c, State.issue_cfg, h3]
    simp only [State.runOp]
    split
    · rename_i t ht
      rcases State.release_eq_some ht with rfl | ⟨f, rfl, -⟩
      · exact fin _ hb rfl rfl rfl rfl rfl rfl
      · exact fin _ hb rfl rfl rfl rfl rfl rfl
    · have hl : s.stall.latched = s.latched := rfl
      refine ⟨?_, ?_, rfl, fun _ => hu⟩
      · simp [State.remaining, hb, hl, he]
      · simp [State.remaining, hb, hl, he]

end Sys2Proof.Machine
end

