-- ==== Sys2Proof/Laws/Wire.lean ====
section
/-! SUPPORT. The wire side of a replay: it depends on the pin events only, an open transaction collects them, and the
readings of R45 of a pin trace are those of its parts. -/
namespace Sys2Proof.Machine

/-- The pin requests of a list, one after another. -/
def State.driveAll (ps : List Pin) (s : State) : State := ps.foldl (fun u p => u.drive p) s

theorem State.driveAll_cons (p : Pin) (ps : List Pin) (s : State) :
    s.driveAll (p :: ps) = (s.drive p).driveAll ps := rfl

theorem State.driveAll_append (ps qs : List Pin) (s : State) :
    s.driveAll (ps ++ qs) = (s.driveAll ps).driveAll qs := List.foldl_append

/-- Two states agree on everything the wire and the display depend on. -/
structure SameWire (s t : State) : Prop where
  cfg : t.cfg = s.cfg
  clk : t.clk = s.clk
  dio : t.dio = s.dio
  rx : t.rx = s.rx
  wireLost : t.wireLost = s.wireLost
  display : t.display = s.display
  clkFault : t.clkFault = s.clkFault
  dioFault : t.dioFault = s.dioFault
  clkBroken : t.clkBroken = s.clkBroken
  dioBroken : t.dioBroken = s.dioBroken

theorem SameWire.refl (s : State) : SameWire s s := ⟨rfl, rfl, rfl, rfl, rfl, rfl, rfl, rfl, rfl, rfl⟩

theorem SameWire.symm {s t : State} (h : SameWire s t) : SameWire t s :=
  ⟨h.cfg.symm, h.clk.symm, h.dio.symm, h.rx.symm, h.wireLost.symm, h.display.symm, h.clkFault.symm, h.dioFault.symm,
    h.clkBroken.symm, h.dioBroken.symm⟩

theorem SameWire.trans {s t u : State} (h : SameWire s t) (k : SameWire t u) : SameWire s u :=
  ⟨k.cfg.trans h.cfg, k.clk.trans h.clk, k.dio.trans h.dio, k.rx.trans h.rx, k.wireLost.trans h.wireLost,
    k.display.trans h.display, k.clkFault.trans h.clkFault, k.dioFault.trans h.dioFault,
    k.clkBroken.trans h.clkBroken, k.dioBroken.trans h.dioBroken⟩

/-- A pin request does the same to the wire from states that agree on it. -/
theorem SameWire.drive {s t : State} (h : SameWire s t) (p : Pin) : SameWire (s.drive p) (t.drive p) := by
  have hf : t.requestFails p = s.requestFails p := by
    cases p <;> simp [State.requestFails, h.clkFault, h.dioFault, h.clkBroken, h.dioBroken]
  have hr : ∀ e a b, ((t.setPins a b).receive p e).rx = ((s.setPins a b).receive p e).rx
      ∧ ((t.setPins a b).receive p e).display = ((s.setPins a b).receive p e).display := by
    intro e a b
    unfold State.receive
    simp only [State.setPins_rx, h.rx]
    have hl := h.wireLost
    cases hs : s.wireLost <;> rw [hs] at hl <;> split <;> split <;>
      simp [h.rx, h.display, hs, hl, h.cfg]
  refine ⟨by simp [h.cfg], by simp [h.clk], by simp [h.dio], ?_, by simp [h.wireLost, hf], ?_, by simp [h.clkFault],
    by simp [h.dioFault], by simp [h.clkBroken], by simp [h.dioBroken]⟩
  · unfold State.drive
    rw [hf, h.clk, h.dio]
    split <;> simp [(hr _ _ _).1]
  · unfold State.drive
    rw [hf, h.clk, h.dio]
    split <;> simp [(hr _ _ _).2]

theorem SameWire.driveAll {s t : State} (h : SameWire s t) (ps : List Pin) :
    SameWire (s.driveAll ps) (t.driveAll ps) := by
  induction ps generalizing s t with
  | nil => exact h
  | cons p ps ih => exact ih (h.drive p)

/-- Issuing an event does to the wire what its pin request does, if it is one. -/
theorem State.playEvent_wire (e : Event) (s : State) : SameWire (s.driveAll e.pin?.toList) (s.playEvent e) := by
  cases e with
  | pin p =>
    rw [State.playEvent_of_free rfl]
    exact ⟨rfl, rfl, rfl, rfl, rfl, rfl, rfl, rfl, rfl, rfl⟩
  | ts d =>
    rw [State.playEvent_of_free rfl]
    exact ⟨rfl, rfl, rfl, rfl, rfl, rfl, rfl, rfl, rfl, rfl⟩
  | tw => rcases s.playEvent_cases .tw with h | h <;> rw [h] <;> exact ⟨rfl, rfl, rfl, rfl, rfl, rfl, rfl, rfl, rfl, rfl⟩

theorem pinsOf_append (es fs : List Event) : pinsOf (es ++ fs) = pinsOf es ++ pinsOf fs := List.filterMap_append

theorem pinsOf_cons (e : Event) (es : List Event) : pinsOf (e :: es) = e.pin?.toList ++ pinsOf es := by
  cases e <;> rfl

/-- A replay does to the wire what its pin events do. -/
theorem State.play_wire (es : List Event) (s : State) : SameWire (s.driveAll (pinsOf es)) (s.play es) := by
  induction es generalizing s with
  | nil => exact SameWire.refl s
  | cons e es ih =>
    rw [pinsOf_cons, State.driveAll_append, State.play_cons]
    exact ((s.playEvent_wire e).driveAll _).trans (ih _)

/-! ## Pin traces -/

/-- The levels after a pin trace. -/
def pinLevels (clk dio : Bool) : List Pin → Bool × Bool
  | [] => (clk, dio)
  | p :: ps => pinLevels (p.clkAfter clk) (p.dioAfter dio) ps

/-- No stop condition occurs in the pin trace (R45). -/
def stopFree (clk dio : Bool) : List Pin → Bool
  | [] => true
  | p :: ps => p.edge clk dio != .stop && stopFree (p.clkAfter clk) (p.dioAfter dio) ps

theorem levelsFrom_pins (clk dio : Bool) (es : List Event) : levelsFrom clk dio es = pinLevels clk dio (pinsOf es) := by
  induction es generalizing clk dio with
  | nil => rfl
  | cons e es ih => cases e <;> exact ih _ _

theorem pinLevels_append (clk dio : Bool) (ps qs : List Pin) :
    pinLevels clk dio (ps ++ qs) = pinLevels (pinLevels clk dio ps).1 (pinLevels clk dio ps).2 qs := by
  induction ps generalizing clk dio with
  | nil => rfl
  | cons p ps ih => exact ih _ _

theorem stopFree_append (clk dio : Bool) (ps qs : List Pin) :
    stopFree clk dio (ps ++ qs)
      = (stopFree clk dio ps && stopFree (pinLevels clk dio ps).1 (pinLevels clk dio ps).2 qs) := by
  induction ps generalizing clk dio with
  | nil => simp [stopFree, pinLevels]
  | cons p ps ih => simp [stopFree, pinLevels, ih, Bool.and_assoc]

theorem samplesFrom_append (clk dio : Bool) (ps qs : List Pin) :
    samplesFrom clk dio (ps ++ qs)
      = samplesFrom clk dio ps ++ samplesFrom (pinLevels clk dio ps).1 (pinLevels clk dio ps).2 qs := by
  induction ps generalizing clk dio with
  | nil => rfl
  | cons p ps ih =>
    simp only [List.cons_append, samplesFrom, pinLevels, ih]
    split <;> rfl

theorem dataEdgesFrom_append (clk dio : Bool) (ps qs : List Pin) :
    dataEdgesFrom clk dio (ps ++ qs)
      = dataEdgesFrom clk dio ps + dataEdgesFrom (pinLevels clk dio ps).1 (pinLevels clk dio ps).2 qs := by
  induction ps generalizing clk dio with
  | nil => simp [dataEdgesFrom, pinLevels]
  | cons p ps ih =>
    simp only [List.cons_append, dataEdgesFrom, pinLevels, ih]
    split <;> omega

/-- Where the pins are sound no request fails. -/
theorem State.requestFails_sound (s : State) (h : PinsSound s) (p : Pin) : s.requestFails p = false := by
  cases p <;> simp [State.requestFails, h.clkReported, h.dioReported, h.clkUnreported, h.dioUnreported]

/-- In an open transaction, without a stop condition and without a failed request, the receiver collects the pin events;
the display is untouched where R142's bracket is kept, and UNKNOWN where it is not. -/
theorem State.driveAll_open {s : State} {acc ps : List Pin} (hr : s.rx = some acc) (hc : PinsSound s)
    (hs : stopFree s.clk s.dio ps = true) :
    s.driveAll ps =
      { s with
        clk := (pinLevels s.clk s.dio ps).1, dio := (pinLevels s.clk s.dio ps).2, rx := some (ps.reverse ++ acc),
        display := if keepsBracket acc ps then s.display else s.display.forget } := by
  induction ps generalizing s acc with
  | nil =>
    cases s
    simp_all [State.driveAll, pinLevels, keepsBracket]
  | cons p ps ih =>
    simp only [stopFree, Bool.and_eq_true, bne_iff_ne, ne_eq] at hs
    have hf : s.requestFails p = false := s.requestFails_sound hc p
    have h1 : s.drive p =
        { s with
          clk := p.clkAfter s.clk, dio := p.dioAfter s.dio, rx := some (p :: acc),
          display := if breaksBracket acc p then s.display.forget else s.display } := by
      unfold State.drive State.receive
      simp only [State.setPins_rx, hr, hf]
      cases hE : p.edge s.clk s.dio with
      | stop => exact absurd hE hs.1
      | start => simp [State.setRx, State.setPins, State.checkBracket]
      | sample => simp [State.setRx, State.setPins, State.checkBracket]
      | other => simp [State.setRx, State.setPins, State.checkBracket]
    rw [State.driveAll_cons, h1, ih (s := { s with
      clk := p.clkAfter s.clk, dio := p.dioAfter s.dio, rx := some (p :: acc),
      display := if breaksBracket acc p then s.display.forget else s.display })
      (acc := p :: acc) rfl ⟨hc.1, hc.2, hc.3, hc.4⟩ hs.2]
    cases hb : breaksBracket acc p <;> cases hk : keepsBracket (p :: acc) ps <;>
      simp [pinLevels, keepsBracket, hb, hk, Display.forget]

theorem keepsBracket_append (acc ps qs : List Pin) :
    keepsBracket acc (ps ++ qs) = (keepsBracket acc ps && keepsBracket (ps.reverse ++ acc) qs) := by
  induction ps generalizing acc with
  | nil => simp [keepsBracket]
  | cons p ps ih => simp [keepsBracket, ih, Bool.and_assoc]

/-- A transaction from the idle-high wire: from its start to its stop the display takes what R45 reads off the wire, being
UNKNOWN by then if R142's bracket was broken. -/
theorem State.driveAll_bracket {s : State} (hc : s.clk = true) (hd : s.dio = true) (hr : s.rx = none)
    (hs : PinsSound s) {mid : List Pin} (hf : stopFree true false mid = true)
    (hl : pinLevels true false mid = (true, false)) :
    SameWire
      (s.setDisplay ((if keepsBracket [] (.d0 :: (mid ++ [.d1])) then s.display else s.display.forget).takeTxn
        (decodeTxn s.cfg (.d0 :: (mid ++ [.d1])))))
      (s.driveAll (.d0 :: (mid ++ [.d1]))) := by
  have nf := State.requestFails_sound s hs
  have h1 : s.drive .d0 = { s with dio := false, rx := some [.d0] } := by
    simp [State.drive, State.receive, nf, hc, hd, hr, Pin.edge, Pin.clkAfter, Pin.dioAfter, State.setRx, State.setPins]
  have hk : keepsBracket [] (.d0 :: (mid ++ [.d1]))
      = (keepsBracket [.d0] mid && !breaksBracket (mid.reverse ++ [.d0]) .d1) := by
    rw [keepsBracket, keepsBracket_append]
    simp [breaksBracket, keepsBracket]
  have hp : (Pin.d1 :: (mid.reverse ++ [.d0])).reverse = .d0 :: (mid ++ [.d1]) := by simp
  rw [State.driveAll_cons, State.driveAll_append, h1, State.driveAll_open
    (s := { s with dio := false, rx := some [.d0] }) (acc := [.d0]) rfl ⟨hs.1, hs.2, hs.3, hs.4⟩ (by simpa [hc] using hf)]
  simp only [hc, hl, hk]
  generalize hacc : mid.reverse ++ [Pin.d0] = acc at hp ⊢
  generalize keepsBracket [.d0] mid = k
  have nf1 : (s.dioFault || s.dioBroken) = false := nf .d1
  refine ⟨?_, ?_, ?_, ?_, ?_, ?_, ?_, ?_, ?_, ?_⟩
  all_goals simp only [State.driveAll, List.foldl, State.drive, State.receive, Pin.edge, State.setPins, hp,
    State.requestFails, nf1, Bool.not_false, Bool.and_true, Bool.false_eq_true, if_false, if_true]
  all_goals cases k <;> cases hb : breaksBracket acc .d1 <;>
    simp [hb, hc, hd, hr, State.setRx, State.checkBracket, State.setDisplay, Display.forget, Pin.clkAfter, Pin.dioAfter]

/-- No start condition occurs in the pin trace (R45). -/
def startFree (clk dio : Bool) : List Pin → Bool
  | [] => true
  | p :: ps => p.edge clk dio != .start && startFree (p.clkAfter clk) (p.dioAfter dio) ps

/-- A clock pulse or a stop condition occurs in the pin trace (R45). -/
def hasPulse (clk dio : Bool) : List Pin → Bool
  | [] => false
  | p :: ps =>
    p.edge clk dio == .sample || p.edge clk dio == .stop || hasPulse (p.clkAfter clk) (p.dioAfter dio) ps

theorem startFree_append (clk dio : Bool) (ps qs : List Pin) :
    startFree clk dio (ps ++ qs)
      = (startFree clk dio ps && startFree (pinLevels clk dio ps).1 (pinLevels clk dio ps).2 qs) := by
  induction ps generalizing clk dio with
  | nil => simp [startFree, pinLevels]
  | cons p ps ih => simp [startFree, pinLevels, ih, Bool.and_assoc]

theorem hasPulse_append (clk dio : Bool) (ps qs : List Pin) :
    hasPulse clk dio (ps ++ qs)
      = (hasPulse clk dio ps || hasPulse (pinLevels clk dio ps).1 (pinLevels clk dio ps).2 qs) := by
  induction ps generalizing clk dio with
  | nil => simp [hasPulse, pinLevels]
  | cons p ps ih => simp [hasPulse, pinLevels, ih, Bool.or_assoc]

theorem AllUnknown.forget (d : Display) : AllUnknown d.forget := ⟨fun _ => rfl, rfl, rfl, rfl⟩

/-- A display whose every element is UNKNOWN stays so under a pin request outside a transaction; a clock pulse or a
stop condition there makes it so (R142). -/
theorem State.drive_outside {s : State} {p : Pin} (hr : s.rx = none) (hs : p.edge s.clk s.dio ≠ .start) :
    (s.drive p).rx = none
      ∧ (AllUnknown s.display ∨ p.edge s.clk s.dio = .sample ∨ p.edge s.clk s.dio = .stop →
          AllUnknown (s.drive p).display) := by
  unfold State.drive State.receive
  simp only [State.setPins_rx, hr]
  cases hE : p.edge s.clk s.dio with
  | start => exact absurd hE hs
  | stop =>
    simp only [State.setPins_display]
    split
    · exact ⟨hr, fun _ => AllUnknown.forget _⟩
    · refine ⟨hr, fun _ => ?_⟩
      simp only [State.setDisplay_display, Display.forget_forget, ite_self]
      exact AllUnknown.forget _
  | sample =>
    simp only [State.setPins_display]
    split
    · exact ⟨hr, fun _ => AllUnknown.forget _⟩
    · refine ⟨hr, fun _ => ?_⟩
      simp only [State.setDisplay_display, Display.forget_forget, ite_self]
      exact AllUnknown.forget _
  | other =>
    split
    · exact ⟨hr, fun _ => AllUnknown.forget _⟩
    · exact ⟨hr, fun h => by simpa using h⟩

/-- Outside a transaction: as long as no start condition occurs none is opened, and once a clock pulse or a stop
condition has occurred the display is UNKNOWN. -/
theorem State.driveAll_outside {s : State} {ps : List Pin} (hr : s.rx = none)
    (hs : startFree s.clk s.dio ps = true) :
    (s.driveAll ps).rx = none
      ∧ (AllUnknown s.display ∨ hasPulse s.clk s.dio ps = true → AllUnknown (s.driveAll ps).display) := by
  induction ps generalizing s with
  | nil => exact ⟨hr, fun h => h.elim id fun h => by cases h⟩
  | cons p ps ih =>
    simp only [startFree, Bool.and_eq_true, bne_iff_ne, ne_eq] at hs
    obtain ⟨hr', hd'⟩ := State.drive_outside hr hs.1
    obtain ⟨hR, hD⟩ := ih hr' (by simpa using hs.2)
    refine ⟨hR, fun h => hD ?_⟩
    simp only [hasPulse, Bool.or_eq_true, beq_iff_eq] at h
    rcases h with h | (h | h) | h
    · exact .inl (hd' (.inl h))
    · exact .inl (hd' (.inr (.inl h)))
    · exact .inl (hd' (.inr (.inr h)))
    · exact .inr (by simpa using h)

/-- The pin events of a bit cell (R52). -/
def cellPins (v : Bool) : List Pin := [.c0, dataPin v, .c1]

/-- The pin events of the acknowledgement slot (R53). -/
def ackPins : List Pin := [.c0, .c1, .c0]

theorem pinsOf_bitCell (c : Config) (v : Bool) : pinsOf (bitCell c v) = cellPins v := rfl

theorem pinsOf_ackSlot (c : Config) : pinsOf (ackSlot c) = ackPins := rfl

theorem pinsOf_startSeq (c : Config) : pinsOf (startSeq c) = [.d0] := rfl

theorem pinsOf_stopSeq (c : Config) : pinsOf (stopSeq c) = [.d0, .c1, .d1] := rfl

theorem pinsOf_delaySeq (c : Config) : pinsOf (delaySeq c) = [] := rfl

/-- The bits of a byte in cell order (R32). -/
def bitsOf (o : BitOrder) (b : Byte) : List Bool := [0, 1, 2, 3, 4, 5, 6, 7].map (cellBit o b)

theorem pinsOf_flatMap {α : Type} (f : α → List Event) (xs : List α) :
    pinsOf (xs.flatMap f) = xs.flatMap fun x => pinsOf (f x) := by
  induction xs with
  | nil => rfl
  | cons x xs ih => rw [List.flatMap_cons, pinsOf_append, ih, List.flatMap_cons]

/-- The pin events of a byte frame (R54). -/
theorem pinsOf_byteFrame (c : Config) (b : Byte) :
    pinsOf (byteFrame c b) = (bitsOf c.bitOrder b).flatMap cellPins ++ ackPins := by
  rw [byteFrame, pinsOf_append, pinsOf_flatMap, pinsOf_ackSlot]
  rfl

/-- The pin events of a transaction (R55). -/
theorem pinsOf_txnFrame (c : Config) (bs : List Byte) :
    pinsOf (txnFrame c bs) = .d0 :: (bs.flatMap (fun b => pinsOf (byteFrame c b)) ++ [.d0, .c1, .d1]) := by
  rw [txnFrame, pinsOf_append, pinsOf_append, pinsOf_flatMap, pinsOf_startSeq, pinsOf_stopSeq]
  rfl

/-- Bit cells: the levels at the end, no start or stop condition, one sample each. -/
theorem cells_levels (clk dio : Bool) (vs : List Bool) :
    pinLevels clk dio (vs.flatMap cellPins) = (if vs = [] then clk else true, vs.getLastD dio) := by
  induction vs generalizing clk dio with
  | nil => rfl
  | cons v vs ih =>
    rw [List.flatMap_cons, pinLevels_append]
    have h : pinLevels clk dio (cellPins v) = (true, v) := by cases v <;> rfl
    rw [h, ih]
    cases vs <;> rfl

theorem cells_stopFree (clk dio : Bool) (vs : List Bool) : stopFree clk dio (vs.flatMap cellPins) = true := by
  induction vs generalizing clk dio with
  | nil => rfl
  | cons v vs ih =>
    rw [List.flatMap_cons, stopFree_append, ih]
    cases v <;> cases clk <;> cases dio <;> rfl

theorem cells_dataEdges (clk dio : Bool) (vs : List Bool) : dataEdgesFrom clk dio (vs.flatMap cellPins) = 0 := by
  induction vs generalizing clk dio with
  | nil => rfl
  | cons v vs ih =>
    rw [List.flatMap_cons, dataEdgesFrom_append, ih]
    cases v <;> cases clk <;> cases dio <;> rfl

theorem cells_samples (clk dio : Bool) (vs : List Bool) : samplesFrom clk dio (vs.flatMap cellPins) = vs := by
  induction vs generalizing clk dio with
  | nil => rfl
  | cons v vs ih =>
    rw [List.flatMap_cons, samplesFrom_append, ih]
    cases v <;> cases clk <;> cases dio <;> rfl

/-- The last bit sent (R76). -/
theorem bitsOf_getLastD (o : BitOrder) (b : Byte) (d : Bool) : (bitsOf o b).getLastD d = cellBit o b 7 := rfl

theorem bitsOf_ne_nil (o : BitOrder) (b : Byte) : bitsOf o b ≠ [] := by simp [bitsOf]

/-- A byte frame ends with the clock low and DIO at the last bit sent (R54). -/
theorem byteFrame_levels (c : Config) (b : Byte) (clk dio : Bool) :
    pinLevels clk dio (pinsOf (byteFrame c b)) = (false, cellBit c.bitOrder b 7) := by
  rw [pinsOf_byteFrame, pinLevels_append, cells_levels, bitsOf_getLastD]
  rfl

theorem byteFrame_stopFree (c : Config) (b : Byte) (clk dio : Bool) :
    stopFree clk dio (pinsOf (byteFrame c b)) = true := by
  rw [pinsOf_byteFrame, stopFree_append, cells_stopFree, cells_levels, bitsOf_getLastD, if_neg (bitsOf_ne_nil _ _)]
  cases cellBit c.bitOrder b 7 <;> rfl

theorem byteFrame_dataEdges (c : Config) (b : Byte) (clk dio : Bool) :
    dataEdgesFrom clk dio (pinsOf (byteFrame c b)) = 0 := by
  rw [pinsOf_byteFrame, dataEdgesFrom_append, cells_dataEdges, cells_levels, bitsOf_getLastD,
    if_neg (bitsOf_ne_nil _ _)]
  cases cellBit c.bitOrder b 7 <;> rfl

/-- The samples of a byte frame: its eight bits and the acknowledgement slot. -/
theorem byteFrame_samples (c : Config) (b : Byte) (clk dio : Bool) :
    samplesFrom clk dio (pinsOf (byteFrame c b)) = bitsOf c.bitOrder b ++ [cellBit c.bitOrder b 7] := by
  rw [pinsOf_byteFrame, samplesFrom_append, cells_samples, cells_levels, bitsOf_getLastD,
    if_neg (bitsOf_ne_nil _ _)]
  cases cellBit c.bitOrder b 7 <;> rfl

/-- A byte is the eight samples of its bits (R45). -/
theorem byteOfBits_bits (o : BitOrder) (b : Byte) :
    byteOfBits o (cellBit o b 0) (cellBit o b 1) (cellBit o b 2) (cellBit o b 3) (cellBit o b 4) (cellBit o b 5)
      (cellBit o b 6) (cellBit o b 7) = b := by
  revert b
  cases o <;> decide

/-- After a clock request, or after the START alone, the requests of bit cells and of a byte frame keep the bracket. -/
theorem byteFrame_keepsBracket (c : Config) (b : Byte) {q : Pin} {acc : List Pin}
    (h : breaksBracket (q :: acc) .c0 = false) : keepsBracket (q :: acc) (pinsOf (byteFrame c b)) = true := by
  have cell : ∀ (vs : List Bool) (q : Pin) (acc : List Pin), breaksBracket (q :: acc) .c0 = false →
      keepsBracket (q :: acc) (vs.flatMap cellPins ++ ackPins) = true := by
    intro vs
    induction vs with
    | nil =>
      intro q acc h
      simp [keepsBracket, ackPins, h]
      simp [breaksBracket, Pin.isData]
    | cons v vs ih =>
      intro q acc h
      rw [List.flatMap_cons, List.append_assoc, keepsBracket_append]
      have e : (cellPins v).reverse ++ q :: acc = .c1 :: dataPin v :: .c0 :: q :: acc := rfl
      rw [e, ih .c1 _ rfl]
      simp [keepsBracket, cellPins, h]
      simp [breaksBracket, Pin.isData]
  rw [pinsOf_byteFrame]
  exact cell _ q acc h

/-- A byte frame ends with CLK asked to go low. -/
theorem byteFrame_reverse (c : Config) (b : Byte) :
    ∃ l, l ≠ [] ∧ (pinsOf (byteFrame c b)).reverse = .c0 :: l := by
  rw [pinsOf_byteFrame]
  exact ⟨.c1 :: .c0 :: ((bitsOf c.bitOrder b).flatMap cellPins).reverse, by simp, by simp [ackPins]⟩

theorem byteFrames_keepsBracket (c : Config) (bs : List Byte) {q : Pin} {acc : List Pin}
    (h : breaksBracket (q :: acc) .c0 = false) :
    keepsBracket (q :: acc) (bs.flatMap fun b => pinsOf (byteFrame c b)) = true := by
  induction bs generalizing q acc with
  | nil => rfl
  | cons b bs ih =>
    obtain ⟨l, hl, e⟩ := byteFrame_reverse c b
    rw [List.flatMap_cons, keepsBracket_append, byteFrame_keepsBracket c b h, e, List.cons_append]
    exact ih (by cases l <;> simp_all [breaksBracket, Pin.isData])

/-- Byte frames: levels, no start or stop condition. -/
theorem byteFrames_levels (c : Config) (bs : List Byte) (clk dio : Bool) :
    (pinLevels clk dio (bs.flatMap fun b => pinsOf (byteFrame c b))).1 = if bs = [] then clk else false := by
  induction bs generalizing clk dio with
  | nil => rfl
  | cons b bs ih =>
    rw [List.flatMap_cons, pinLevels_append, byteFrame_levels, ih]
    cases bs <;> simp

theorem byteFrames_stopFree (c : Config) (bs : List Byte) (clk dio : Bool) :
    stopFree clk dio (bs.flatMap fun b => pinsOf (byteFrame c b)) = true := by
  induction bs generalizing clk dio with
  | nil => rfl
  | cons b bs ih => rw [List.flatMap_cons, stopFree_append, byteFrame_stopFree, ih]; rfl

theorem byteFrames_dataEdges (c : Config) (bs : List Byte) (clk dio : Bool) :
    dataEdgesFrom clk dio (bs.flatMap fun b => pinsOf (byteFrame c b)) = 0 := by
  induction bs generalizing clk dio with
  | nil => rfl
  | cons b bs ih => rw [List.flatMap_cons, dataEdgesFrom_append, byteFrame_dataEdges, ih]

theorem cells_startFree (clk dio : Bool) (vs : List Bool) : startFree clk dio (vs.flatMap cellPins) = true := by
  induction vs generalizing clk dio with
  | nil => rfl
  | cons v vs ih =>
    rw [List.flatMap_cons, startFree_append, ih]
    cases v <;> cases clk <;> cases dio <;> rfl

theorem byteFrame_startFree (c : Config) (b : Byte) (clk dio : Bool) :
    startFree clk dio (pinsOf (byteFrame c b)) = true := by
  rw [pinsOf_byteFrame, startFree_append, cells_startFree, cells_levels, bitsOf_getLastD,
    if_neg (bitsOf_ne_nil _ _)]
  cases cellBit c.bitOrder b 7 <;> rfl

/-- The acknowledgement slot pulses the clock, so a byte frame does. -/
theorem byteFrame_hasPulse (c : Config) (b : Byte) (clk dio : Bool) :
    hasPulse clk dio (pinsOf (byteFrame c b)) = true := by
  rw [pinsOf_byteFrame, hasPulse_append, cells_levels, bitsOf_getLastD, if_neg (bitsOf_ne_nil _ _)]
  cases cellBit c.bitOrder b 7 <;> exact Bool.or_true _

/-- A transaction ends with both lines high, whatever the levels before (R55, R77). -/
theorem txnFrame_levels (c : Config) (bs : List Byte) (clk dio : Bool) :
    levelsFrom clk dio (txnFrame c bs) = (true, true) := by
  rw [txnFrame, levelsFrom_append]
  rfl

end Sys2Proof.Machine
end

