-- ==== Sys2Proof/Tests/Slice0.lean ====
section
/-! SUPPORT. Tests: words written out from 30_encoding.md, vectors of 95_test_vectors.md on single steps, and a witness
for the hypotheses of every statement that has some. -/
namespace Sys2Proof.Tests

open Sys2Proof.Machine

/-- The next state, if there is one. -/
def nextOf (o : Host.Outcome State Fault Refusal) : Option State :=
  match o with
  | .next t => some t
  | .fault _ => none
  | .refused _ => none

/-- A block built with TRANSPORT_OPS_ENABLE = 1, right after reset. -/
def enabled : State := State.construct { Config.hardware with transportOpsEnable := true }

/-- A display that shows something in a given mode. -/
def shown (m : AMode) : Display :=
  { cells := [(0, 0x3F), (1, 0x3F), (2, 0x66), (3, 0x5B)], don := some true, dbr := some 2, amode := some m,
    phase := .command }

/-- A state inside a transaction, the clock low, one byte frame of 0x44 after the start. -/
def inside : State :=
  { enabled with
    clk := false, dio := false, display := shown .auto, rx := some ((.d0 :: pinsOf (byteFrame enabled.cfg 0x44)).reverse) }

/-- A state in which the display takes a payload byte. -/
def atPayload (m : Option AMode) (next count : Nat) (more : List Byte) : State :=
  { State.reset with display := { shown .auto with amode := m, phase := .data next count }, wireIn := more }

/-- A state in which the word has been accepted and `n` events issued. -/
def running (w : HostWord) (n : Nat) : State := { enabled with busy := true, opr := w, upc := n }

/-! ## WellFormed (R62, R64) -/

theorem test_delay_needs_enable : Instr.legal Config.hardware .delay = false := by decide
theorem test_start_needs_enable : Instr.legal Config.hardware .start = false := by decide
theorem test_stop_needs_enable : Instr.legal Config.hardware .stop = false := by decide
theorem test_writeByte_needs_enable : Instr.legal Config.hardware (.writeByte 0x40) = false := by decide
theorem test_write1_needs_enable : Instr.legal Config.hardware (.write1 0x40) = false := by decide
theorem test_write2_needs_enable : Instr.legal Config.hardware (.write2 0xC0 0x11) = false := by decide
theorem test_write3_needs_enable : Instr.legal Config.hardware (.write3 0xC0 1 2) = false := by decide
theorem test_write4_needs_enable : Instr.legal Config.hardware (.write4 0xC0 1 2 3) = false := by decide
theorem test_write5_needs_enable : Instr.legal Config.hardware (.write5 0xC0 1 2 3 4) = false := by decide
theorem test_delay_legal_enabled : Instr.legal enabled.cfg .delay = true := by decide
theorem test_command_always_legal : Instr.legal Config.hardware (.setBrightness 5) = true := by decide
theorem test_zero_quantum_refused : ¬ Config.Wf { Config.hardware with qUs := 0 } := by decide
theorem test_long_quantum_refused : ¬ Config.Wf { Config.hardware with qUs := 2 ^ 32 } := by decide
theorem test_no_width_refused : ¬ Config.Wf { Config.hardware with numWidth := 0 } := by decide
theorem test_blank_digit_refused :
    ¬ Config.Wf { Config.hardware with openSegments := { Config.hardware.openSegments with d7 := 0 } } := by decide
theorem test_hardware_parameters_wf : Config.Wf Config.hardware := by decide

/-! ## Decoding: words written out from R61 to R63, wire bytes from R57 to R60 -/

theorem test_decode_delay : decode (.host 0x01000000000000) = .ok .delay := by decide
theorem test_decode_start : decode (.host 0x02000000000000) = .ok .start := by decide
theorem test_decode_stop : decode (.host 0x03000000000000) = .ok .stop := by decide
theorem test_decode_writeByte : decode (.host 0x04000000000040) = .ok (.writeByte 0x40) := by decide
theorem test_decode_write1 : decode (.host 0x05010000000040) = .ok (.write1 0x40) := by decide
theorem test_decode_write2 : decode (.host 0x050200000011C0) = .ok (.write2 0xC0 0x11) := by decide
theorem test_decode_write3 : decode (.host 0x050300005B06C0) = .ok (.write3 0xC0 0x06 0x5B) := by decide
theorem test_decode_write4 : decode (.host 0x0504004F5B06C0) = .ok (.write4 0xC0 0x06 0x5B 0x4F) := by decide
theorem test_decode_write5 : decode (.host 0x0505664F5B06C0) = .ok (.write5 0xC0 0x06 0x5B 0x4F 0x66) := by decide
theorem test_decode_encBrightness : decode (.host 0x10000000000009) = .ok (.encBrightness 9) := by decide
theorem test_decode_setBrightness : decode (.host 0x11000000000005) = .ok (.setBrightness 5) := by decide
theorem test_decode_showSegment : decode (.host 0x1202000000007F) = .ok (.showSegment 0x7F 2) := by decide
theorem test_decode_showDigits : decode (.host 0x130000664F5B06) = .ok (.showDigits 0x06 0x5B 0x4F 0x66) := by
  decide
theorem test_decode_getSegments : decode (.host 0x20000000000003) = .ok (.getSegments 3) := by decide
theorem test_decode_showNumber : decode (.host 0x210000000004D2) = .ok (.showNumber 1234) := by decide
theorem test_decode_showNumber_negative :
    decode (.host 0x210000FFFFFFF4) = .ok (.showNumber (BitVec.ofInt 32 (-12))) := by decide
theorem test_decode_datacmdAuto : decode (.wireCommand 0b01000000) = .ok .datacmdAuto := by decide
theorem test_decode_datacmdFixed : decode (.wireCommand 0b01000100) = .ok .datacmdFixed := by decide
theorem test_decode_addrcmd : decode (.wireCommand 0b11000011) = .ok (.addrcmd 3) := by decide
theorem test_decode_dispctrlOff : decode (.wireCommand 0b10000000) = .ok .dispctrlOff := by decide
theorem test_decode_dispctrlOn : decode (.wireCommand 0b10001100) = .ok (.dispctrlOn 4) := by decide
theorem test_decode_segpat : decode (.wirePayload 0b01011011) = .ok (.segpat 0x5B) := by decide

/-- WRITE_BYTE 0x40 and SHOW_SEGMENT 0x7F, 2 bit by bit: `op`, `aux`, `B4` down to `B0` (R61). -/
theorem test_decode_bits :
    decode (.host 0b00000100000000000000000000000000000000000000000001000000) = .ok (.writeByte 0x40)
      ∧ decode (.host 0b00010010000000100000000000000000000000000000000001111111) = .ok (.showSegment 0x7F 2) := by
  decide

/-- V-H2, V-H3: the illegal words, each by name. -/
theorem test_reject_host :
    decode (.host 0x00000000000000) = .error (.unknownOp 0)
      ∧ decode (.host 0xFF000000000000) = .error (.unknownOp 0xFF)
      ∧ decode (.host 0x11000000000105) = .error .dataNotZero
      ∧ decode (.host 0x13000100000000) = .error .dataNotZero
      ∧ decode (.host 0x21000100000000) = .error .dataNotZero
      ∧ decode (.host 0x05000000000000) = .error (.badLength 0) := by decide

/-- R64: command bytes next to the described ones are reserved. -/
theorem test_reject_wire :
    decode (.wireCommand 0x41) = .error (.reservedCommand 0x41)
      ∧ decode (.wireCommand 0xC4) = .error (.reservedCommand 0xC4)
      ∧ decode (.wireCommand 0x87) = .error (.reservedCommand 0x87)
      ∧ decode (.wireCommand 0x90) = .error (.reservedCommand 0x90) := by decide

theorem test_table_word_host : decodeTableWord 56 0x130000664F5B06 = some (.showDigits 0x06 0x5B 0x4F 0x66) := by
  decide
theorem test_table_word_wire : decodeTableWord 8 0xC2 = some (.addrcmd 2) ∧ decodeTableWord 8 0x06 = some (.segpat 6) := by
  decide

/-- R66. -/
theorem test_text : (Instr.showSegment 127 2).text = "SHOW_SEGMENT 127, 2"
    ∧ (Instr.showNumber (BitVec.ofInt 32 (-12))).text = "SHOW_NUMBER -12" := by decide

/-! ## One step each (95_test_vectors.md, parts 2 and 3) -/

/-- V-T1. -/
theorem test_delay : (nextOf (exec .delay enabled)).map (fun t => (t.trace, t.clk, t.dio)) =
    some ([.ts 5, .tw], true, true) := by decide

/-- V-T2. -/
theorem test_start : (nextOf (exec .start enabled)).map (fun t => (pinsOf t.trace, t.clk, t.dio)) =
    some ([.d0], true, false) := by decide

/-- V-T3: no start condition. -/
theorem test_start_clock_low :
    (nextOf (exec .start { enabled with clk := false })).map (fun t => (t.clk, t.dio, t.rx)) =
      some (false, false, none) := by decide

/-- V-T4, R45: the stop hands the display the transaction. -/
theorem test_stop : (nextOf (exec .stop inside)).map (fun t => (pinsOf t.trace, t.clk, t.dio, t.display.amode)) =
    some ([.d0, .c1, .d1], true, true, some .fixed) := by decide

/-- V-T6: an empty transaction; nothing is known after it (R44). -/
theorem test_stop_idle :
    (nextOf (exec .stop { enabled with display := shown .auto })).map (fun t => t.display) =
      some Display.unknown := by decide

/-- V-T7. -/
theorem test_writeByte :
    (nextOf (exec (.writeByte 0x40) { enabled with dio := false, rx := some [.d0] })).map
        (fun t => (pinsOf t.trace, t.clk, t.dio)) =
      some ([.c0, .d0, .c1, .c0, .d0, .c1, .c0, .d0, .c1, .c0, .d0, .c1, .c0, .d0, .c1, .c0, .d0, .c1, .c0, .d1, .c1,
        .c0, .d0, .c1, .c0, .c1, .c0], false, false) := by decide

/-- V-T8. -/
theorem test_writeByte_end : (nextOf (exec (.writeByte 0x8C) enabled)).map (fun t => (t.clk, t.dio)) =
    some (false, true) := by decide

/-- V-T10, V-T12. -/
theorem test_write1 : (nextOf (exec (.write1 0x80) enabled)).map
      (fun t => (t.trace.length, (pinsOf t.trace).length, t.display.don, t.display.dbr)) =
    some (95, 31, some false, some 0) := by decide +kernel

/-- V-G2. -/
theorem test_write2 : (nextOf (exec (.write2 0xC0 0x11) { enabled with display := shown .fixed })).map
      (fun t => t.display.cells) =
    some [(0, 0x11), (1, 0x3F), (2, 0x66), (3, 0x5B)] := by decide +kernel

/-- V-G2: with AMODE UNKNOWN nothing is known. -/
theorem test_write2_mode_unknown : (nextOf (exec (.write2 0xC0 0x11) enabled)).map (fun t => t.display) =
    some Display.unknown := by decide +kernel

/-- R44, the AUTO line. -/
theorem test_write3 : (nextOf (exec (.write3 0xC1 0x5B 0x4F) { enabled with display := shown .auto })).map
      (fun t => t.display.cells) =
    some [(0, 0x3F), (1, 0x5B), (2, 0x4F), (3, 0x5B)] := by decide +kernel

/-- R44: a third pattern from position 2 runs past position 3. -/
theorem test_write4_past_end : (nextOf (exec (.write4 0xC2 1 2 3) { enabled with display := shown .auto })).map
      (fun t => t.display) = some Display.unknown := by decide +kernel

/-- P4's last operation. -/
theorem test_write5 : (nextOf (exec (.write5 0xC0 0x06 0x5B 0x4F 0x66) { enabled with display := shown .auto })).map
      (fun t => (t.display.cells, t.clk, t.dio)) =
    some ([(0, 0x06), (1, 0x5B), (2, 0x4F), (3, 0x66)], true, true) := by decide +kernel

/-- V-C1. -/
theorem test_encBrightness :
    [0, 1, 2, 3, 4, 5, 6, 7, 8, 9, 10, 255].map (fun l => (nextOf (exec (.encBrightness l) State.reset)).bind State.rsp) =
      [some 0x80, some 0x88, some 0x89, some 0x8A, some 0x8B, some 0x8C, some 0x8D, some 0x8E, some 0x8F, some 0x8F,
        some 0x8F, some 0x8F] := by decide

/-- V-G1. -/
theorem test_setBrightness : (nextOf (exec (.setBrightness 3) State.reset)).map
      (fun t => (t.display.don, t.display.dbr, t.display.amode)) = some (some true, some 2, none) := by decide +kernel

/-- V-C2, V-T11: the levels at the end and the data bits of 0x8C. -/
theorem test_setBrightness_pins : (nextOf (exec (.setBrightness 5) State.reset)).map (fun t => pinsOf t.trace) =
    some [.d0, .c0, .d0, .c1, .c0, .d0, .c1, .c0, .d1, .c1, .c0, .d1, .c1, .c0, .d0, .c1, .c0, .d0, .c1, .c0, .d0, .c1,
      .c0, .d1, .c1, .c0, .c1, .c0, .d0, .c1, .d1] := by decide +kernel

/-- V-C3. -/
theorem test_showSegment : (nextOf (exec (.showSegment 0x7F 2) State.reset)).map
      (fun t => (t.display.cells, t.display.amode, t.trace.length)) =
    some ([(2, 0x7F)], some .fixed, 273) := by decide +kernel

/-- V-C4. -/
theorem test_showSegment_out_of_range : (nextOf (exec (.showSegment 0x01 4) State.reset)).map
      (fun t => (t.trace, t.rsp, t.display)) = some ([], some 0x00, Display.unknown) := by decide

/-- V-C5: the patterns are not looked up. -/
theorem test_showDigits : (nextOf (exec (.showDigits 1 2 3 4) State.reset)).map
      (fun t => (t.display.cells, t.display.amode, t.trace.length)) =
    some ([(0, 1), (1, 2), (2, 3), (3, 4)], some .auto, 522) := by decide +kernel

/-- R100's table, the rows from general knowledge. -/
theorem test_getSegments_open : [0, 5, 6, 7, 8, 9].map (seg Config.hardware) =
    [0x3F, 0x6D, 0x7D, 0x07, 0x7F, 0x6F] := by decide

/-- V-P1. -/
theorem test_getSegments :
    [1, 2, 3, 4, 10, 15, 48, 255].map (fun d => (nextOf (exec (.getSegments d) State.reset)).bind State.rsp) =
      [some 0x06, some 0x5B, some 0x4F, some 0x66, some 0, some 0, some 0, some 0] := by decide

/-- P1's second operation, E6. -/
theorem test_showNumber : (nextOf (exec (.showNumber 1234) State.reset)).map (fun t => (t.display.cells, t.rsp)) =
    some ([(0, 0x06), (1, 0x5B), (2, 0x4F), (3, 0x66)], some 0x00) := by decide +kernel

/-- V-P2: 10000, 12345, -10 and the least operand. -/
theorem test_showNumber_digits : digitsOf 10000 = ⟨0, 0, 0, 0⟩ ∧ digitsOf 12345 = ⟨2, 3, 4, 5⟩
    ∧ digitsOf (-10) = ⟨0, 0, -1, 0⟩ ∧ digitsOf (-2147483648) = ⟨-3, -6, -4, -8⟩ := by decide

/-- R57, R44. -/
theorem test_datacmdAuto : (nextOf (exec .datacmdAuto State.reset)).map (fun t => t.display.amode) =
    some (some .auto) := by decide
theorem test_datacmdFixed : (nextOf (exec .datacmdFixed State.reset)).map (fun t => t.display.amode) =
    some (some .fixed) := by decide

/-- R58, R44: an address with nothing after it is not described. -/
theorem test_addrcmd_alone : (nextOf (exec (.addrcmd 2) { State.reset with display := shown .auto })).map
    (fun t => t.display) = some Display.unknown := by decide

/-- R59, R44. -/
theorem test_dispctrlOff : (nextOf (exec .dispctrlOff { State.reset with display := shown .auto })).map
    (fun t => (t.display.don, t.display.dbr)) = some (some false, some 0) := by decide
theorem test_dispctrlOn : (nextOf (exec (.dispctrlOn 7) State.reset)).map
    (fun t => (t.display.don, t.display.dbr)) = some (some true, some 7) := by decide

/-- R60, R44. -/
theorem test_segpat : (nextOf (exec (.segpat 0x7F) (atPayload (some .fixed) 3 0 []))).map
    (fun t => (t.cell 3, t.cell 2)) = some (some 0x7F, some 0x66) := by decide

/-! ## Steps -/

/-- The next step after placing a row's word runs it from reset. -/
theorem test_fetch_host : (nextOf (step (State.reset.withFetchWord 56 0x20000000000003))).bind State.rsp =
    some 0x4F := by decide
theorem test_fetch_transport : (nextOf (step (State.reset.withFetchWord 56 0x01000000000000))).map
    (fun t => t.trace) = some [.ts 5, .tw] := by decide
theorem test_fetch_wire : (nextOf (step (State.reset.withFetchWord 8 0x44))).map (fun t => t.display.amode) =
    some (some .fixed) := by decide

/-- V-H2: an illegal word completes at once with no event and response 0x00. -/
theorem test_illegal_word : (nextOf (step { State.reset with host := [0x05010000000040] })).map
    (fun t => (t.trace, t.rsp, t.busy, t.host)) = some ([], some 0x00, false, []) := by decide

/-- V-S2: the first event of DELAY, then the timer's step. -/
theorem test_sequencer_delay :
    (nextOf (step (running 0x01000000000000 0))).map (fun t => (t.trace, t.upc, t.tmrExpired, t.tmrCount)) =
      some ([.ts 5], 1, false, some 5) := by decide
theorem test_timer_step :
    (nextOf (step { running 0x01000000000000 1 with tmrCount := some 5 })).map (fun t => (t.upc, t.tmrExpired)) =
      some (1, true) := by decide

/-- V-S3: a word presented while the block is busy is not accepted. -/
theorem test_busy_host_waits :
    (nextOf (step { running 0x13000000000000 0 with host := [0x20000000000003] })).map (fun t => (t.host, t.busy)) =
      some ([0x20000000000003], true) := by decide

/-- 95, P5: SET_BRIGHTNESS begun under a low clock. -/
theorem test_broken_framing :
    (nextOf (exec (.setBrightness 5) { enabled with clk := false, dio := false, display := shown .auto })).map
        (fun t => (t.display, t.rsp, t.clk, t.dio)) =
      some (Display.unknown, some 0x00, true, true) := by decide +kernel

/-- R112: a faulted pin changes nothing in the block and makes the display unknown. -/
theorem test_faulted_pin :
    (nextOf (exec .start { enabled with dioFault := true, display := shown .auto })).map
        (fun t => (t.dio, t.rsp, t.display.don, t.wireLost)) =
      some (false, some 0x00, none, true) := by decide

/-- R146: a pin that fails without reporting it does the same. -/
theorem test_broken_pin :
    (nextOf (exec .start { enabled with dioBroken := true, display := shown .auto })).map
        (fun t => (t.dio, t.rsp, t.display.don, t.wireLost)) =
      some (false, some 0x00, none, true) := by decide

/-- R143, R147: DELAY with a stopped timer is held at its TW and leaves the display undefined. -/
theorem test_stopped_timer :
    (nextOf (exec .delay { enabled with busy := true, tmrFuture := some 0, display := shown .auto })).map
        (fun t => (t.trace, t.busy, t.rsp, t.display)) =
      some ([.ts 5], true, none, Display.unknown) := by decide

/-- R142: the second START makes the display UNKNOWN. -/
theorem test_second_start :
    (nextOf (exec .start { enabled with dio := false, rx := some [.d0], display := shown .auto })).map
        (fun t => t.display) = some Display.unknown := by decide

/-- R45 reads [0x44] off START; START; WRITE_BYTE 0x44; STOP (ten samples, two changes of DIO under a high clock), and R44
gives it its effect. -/
theorem test_second_start_read :
    (nextOf (exec .stop
      { inside with display := Display.unknown, rx := some ((.d0 :: .d0 :: pinsOf (byteFrame enabled.cfg 0x44)).reverse) })).map
        (fun t => (t.display.amode, t.display.cells, t.display.don)) = some (some .fixed, [], none) := by decide

/-- R111: the one error kind has the code 0. -/
theorem test_fault_code : ∀ f : Fault, f = .dataPinFault ∧ f.code = 0 := by
  intro f
  cases f
  decide

/-- R32: with MSB_FIRST bit 7 is sent first. -/
theorem test_msb_first :
    let c : Config := { enabled.cfg with bitOrder := .msbFirst }
    (pinsOf (byteFrame c 0x80)).take 6 = [.c0, .d1, .c1, .c0, .d0, .c1]
      ∧ decodeTxn c (pinsOf (txnFrame c [0x80])) = some [0x80] := by decide

/-- R64, R63: NUM_WIDTH is a parameter; log entry 2 takes the operand's low bits where it is narrower. -/
theorem test_num_width : numberOf Config.hardware 0xFFFFFFF4 = -12
    ∧ numberOf { Config.hardware with numWidth := 16 } 0x0001FFFF = -1 := by decide

/-- R132. -/
theorem test_reset_midway :
    (nextOf (step { running 0x13000000000000 9 with rst := true, clk := false, display := shown .auto })).map
        (fun t => (t.clk, t.dio, t.busy, t.rsp, t.display)) =
      some (true, true, false, none, Display.unknown) := by decide

/-- R43, log entry 31: the block's reset does not reach a foreign transaction under way; its next byte 0x40 is still a
payload byte, and makes nothing known. -/
theorem test_reset_inside_foreign :
    (nextOf (step { atPayload (some .fixed) 0 0 [0x40] with rst := true })).map
        (fun t => (t.wireIn, t.display.codeOf 0x40, t.display.amode)) =
      some ([0x40], .wirePayload 0x40, none) := by decide

/-! ## Witnesses: for every statement with hypotheses, a state and operands that meet them together -/

theorem wireGood_reset : WireGood State.reset := ⟨rfl, rfl, rfl, rfl, ⟨rfl, rfl, rfl, rfl⟩⟩

theorem wireGood_enabled : WireGood enabled := ⟨rfl, rfl, rfl, rfl, ⟨rfl, rfl, rfl, rfl⟩⟩

theorem pinsSound_inside : PinsSound inside := ⟨rfl, rfl, rfl, rfl⟩

theorem fair_reset : TimerFair State.reset := rfl

theorem fair_enabled : TimerFair enabled := rfl

theorem witness_EncodeOfDecode : decode (.host 0x0505664F5B06C0) = .ok (.write5 0xC0 0x06 0x5B 0x4F 0x66)
    ∧ decode (.wireCommand 0x8F) = .ok (.dispctrlOn 7) ∧ decode (.wirePayload 0xFF) = .ok (.segpat 0xFF) := by decide

/-- A host word; a wire byte in command position, one in payload position, and a reserved command. -/
theorem witness_StepRunsDecoded :
    (let s : State := { State.reset with host := [0x20000000000003] }
     s.rst = false ∧ s.wireIn = [] ∧ s.busy = false ∧ s.host = 0x20000000000003 :: []
       ∧ decode (.host 0x20000000000003) = .ok (.getSegments 3))
    ∧ (let s : State := { State.reset with wireIn := [0xC3, 0x06] }
       s.rst = false ∧ s.wireIn = 0xC3 :: [0x06]
         ∧ decode (if s.display.phase = .command then .wireCommand 0xC3 else .wirePayload 0xC3) = .ok (.addrcmd 3))
    ∧ (let s : State := atPayload (some .auto) 3 0 [0xC3]
       s.rst = false ∧ s.wireIn = 0xC3 :: []
         ∧ decode (if s.display.phase = .command then .wireCommand 0xC3 else .wirePayload 0xC3) = .ok (.segpat 0xC3))
    ∧ (let s : State := { State.reset with display := shown .auto, wireIn := [0x41, 0x06] }
       s.rst = false ∧ s.wireIn = 0x41 :: [0x06]
         ∧ decode (if s.display.phase = .command then .wireCommand 0x41 else .wirePayload 0x41)
           = .error (.reservedCommand 0x41)) := by
  decide

/-- A word with no meaning, and a transport word while the operations are disabled. -/
theorem witness_IllegalWordIsEmpty : ∀ w : HostWord, w = 0x05060000000000 ∨ w = 0x01000000000000 →
    let s : State := { State.reset with host := [w] }
    s.rst = false ∧ s.wireIn = [] ∧ s.busy = false ∧ s.host = w :: []
      ∧ ∀ i, decode (.host w) = .ok i → i.isTransport = true ∧ s.cfg.transportOpsEnable = false := by
  rintro w (rfl | rfl)
  · refine ⟨rfl, rfl, rfl, rfl, fun i h => ?_⟩
    have : decode (.host 0x05060000000000) = .error (.badLength 6) := by decide
    rw [this] at h
    cases h
  · refine ⟨rfl, rfl, rfl, rfl, fun i h => ?_⟩
    have : decode (.host 0x01000000000000) = .ok .delay := by decide
    rw [this] at h
    cases h
    exact ⟨rfl, rfl⟩

/-- A pin event, a `TS`, a `TW` after the expiry, and the completion at UPC = 95. -/
theorem witness_SequencerSteps :
    (running 0x11000000000005 0).rst = false ∧ (running 0x11000000000005 0).wireIn = []
      ∧ (running 0x11000000000005 0).busy = true
      ∧ (expandWord enabled.cfg 0x11000000000005)[0]? = some (.pin .d0)
      ∧ (expandWord enabled.cfg 0x11000000000005)[1]? = some (.ts 5)
      ∧ (expandWord enabled.cfg 0x11000000000005)[2]? = some .tw
      ∧ ({ running 0x11000000000005 2 with tmrExpired := true } : State).tmrExpired = true
      ∧ (running 0x11000000000005 95).upc = (expandWord enabled.cfg 0x11000000000005).length := by decide +kernel

/-- Held at the TW of DELAY: expired, and with a countdown that will elapse. -/
theorem witness_TimerHolds :
    (let s : State := { running 0x01000000000000 1 with tmrExpired := true }
     s.rst = false ∧ s.wireIn = [] ∧ s.busy = true ∧ (expandWord s.cfg s.opr)[s.upc]? = some .tw
       ∧ s.tmrExpired = true)
    ∧ (let s : State := { running 0x01000000000000 1 with tmrCount := some 5 }
       s.rst = false ∧ s.wireIn = [] ∧ s.busy = true ∧ (expandWord s.cfg s.opr)[s.upc]? = some .tw
         ∧ s.tmrExpired = false ∧ s.tmrCount = some 5 ∧ s.tmrFuture = none) := by decide

theorem witness_HeldForever :
    let s : State := { running 0x01000000000000 1 with tmrCount := some 5, tmrFuture := some 0 }
    s.rst = false ∧ s.wireIn = [] ∧ s.busy = true ∧ (expandWord s.cfg s.opr)[s.upc]? = some .tw
      ∧ s.tmrExpired = false ∧ s.tmrFuture = some 0 := by decide

theorem witness_StoppedTimerUnknown :
    let s : State := { running 0x11000000000005 0 with tmrFuture := some 0 }
    (Instr.setBrightness 5).isHost = true ∧ expand s.cfg (.setBrightness 5) ≠ [] ∧ s.busy = true
      ∧ s.tmrFuture = some 0 := ⟨rfl, List.cons_ne_nil _ _, rfl, rfl⟩

theorem witness_ExecIsSequencerRun :
    let s := running 0x11000000000005 0
    decode (.host s.opr) = .ok (.setBrightness 5) ∧ s.busy = true ∧ s.upc = 0 := by decide

/-- A legal word, an illegal one and a disabled one. -/
theorem witness_ProgramTrace :
    let s : State := { State.reset with host := [0x11000000000005, 0xFF000000000000, 0x01000000000000] }
    s.tmrFuture = none ∧ s.rst = false ∧ s.wireIn = [] ∧ s.busy = false
      ∧ s.host = [0x11000000000005, 0xFF000000000000, 0x01000000000000] := by decide

theorem witness_IdleWaits :
    State.reset.rst = false ∧ State.reset.wireIn = [] ∧ State.reset.busy = false ∧ State.reset.host = [] := by decide

theorem witness_NoException : (Instr.showNumber 0).isHost = true ∧ TimerFair State.reset := ⟨rfl, rfl⟩

theorem witness_ResetOverrides : ({ running 0x13000000000000 9 with rst := true } : State).rst = true := by decide

theorem witness_TimerStarts : (expand Config.hardware (.setBrightness 0))[1]? = some (.ts 5) := by decide

/-- An operation with two pin events; and a word accepted after an operation whose events are in TRACE. -/
theorem witness_TraceIsSpaced :
    (0 < 3 ∧ (expand Config.hardware (.setBrightness 0))[0]? = some (.pin .d0)
      ∧ (expand Config.hardware (.setBrightness 0))[3]? = some (.pin .c0))
    ∧ (let s : State := { enabled with host := [0x02000000000000], traceRev := [.tw, .ts 5, .pin .d1] }
       PacingInv s ∧ ∃ t, step s = .next t) := ⟨by decide, by unfold PacingInv; decide, _, rfl⟩

/-- Each of the nine transport constructors. -/
theorem witness_TransportDisabled : State.reset.cfg.transportOpsEnable = false
    ∧ ∀ i ∈ [Instr.delay, .start, .stop, .writeByte 1, .write1 1, .write2 1 2, .write3 1 2 3, .write4 1 2 3 4,
        .write5 1 2 3 4 5], i.isTransport = true := by decide

theorem witness_DelayRuns : TimerFair enabled ∧ enabled.cfg.transportOpsEnable = true := ⟨rfl, rfl⟩

/-- No failure outside a transaction, inside one after a byte, and inside one right after its START; a reported failure,
and an unreported one. -/
theorem witness_StartRuns : TimerFair enabled ∧ enabled.cfg.transportOpsEnable = true
    ∧ enabled.dioFault = false ∧ enabled.dioBroken = false ∧ enabled.rx = none
    ∧ TimerFair inside ∧ inside.cfg.transportOpsEnable = true ∧ inside.dioFault = false ∧ inside.dioBroken = false
    ∧ inside.rx.map (breaksBracket · .d0) = some false
    ∧ (let s : State := { enabled with dio := false, rx := some [.d0] }
       TimerFair s ∧ s.dioFault = false ∧ s.dioBroken = false ∧ s.rx = some [.d0])
    ∧ TimerFair { enabled with dioFault := true } ∧ ({ enabled with dioFault := true } : State).dioFault = true
    ∧ TimerFair { enabled with dioBroken := true } ∧ ({ enabled with dioBroken := true } : State).dioBroken = true :=
  ⟨rfl, rfl, rfl, rfl, rfl, rfl, rfl, rfl, rfl, by decide, ⟨rfl, rfl, rfl, rfl⟩, rfl, rfl, rfl, rfl⟩

/-- Inside a transaction with the clock low, and inside one with a second START last; right after a START, the clock still
high (R77 corner case (a)); and with no transaction open, from idle-high and under a low clock. -/
theorem witness_StopRuns :
    (TimerFair inside ∧ inside.cfg.transportOpsEnable = true ∧ PinsSound inside ∧ inside.rx.isSome = true
      ∧ inside.wireLost = false ∧ inside.rx.map (breaksBracket · .d0) = some false)
    ∧ (let s : State := { inside with rx := inside.rx.map (.d0 :: ·) }
       PinsSound s ∧ s.wireLost = false ∧ s.rx.map (breaksBracket · .d0) = some true)
    ∧ (let s : State := { enabled with dio := false, rx := some [.d0], display := shown .auto }
       TimerFair s ∧ s.cfg.transportOpsEnable = true ∧ PinsSound s ∧ s.rx = some [.d0] ∧ s.wireLost = false)
    ∧ (TimerFair enabled ∧ enabled.cfg.transportOpsEnable = true ∧ enabled.rx = none)
    ∧ (let s : State := { enabled with clk := false, display := shown .auto }
       TimerFair s ∧ s.cfg.transportOpsEnable = true ∧ s.rx = none) :=
  ⟨⟨rfl, rfl, pinsSound_inside, rfl, rfl, by decide⟩, ⟨⟨rfl, rfl, rfl, rfl⟩, rfl, by decide⟩,
    ⟨rfl, rfl, ⟨rfl, rfl, rfl, rfl⟩, rfl, rfl⟩, ⟨rfl, rfl, rfl⟩, rfl, rfl, rfl⟩

/-- Inside a transaction, inside one with a second START last, and outside one. -/
theorem witness_WriteByteRuns :
    (TimerFair inside ∧ inside.cfg.transportOpsEnable = true ∧ PinsSound inside
      ∧ inside.rx.map (breaksBracket · .c0) = some false)
    ∧ (let s : State := { inside with rx := inside.rx.map (.d0 :: ·) }
       PinsSound s ∧ s.rx.map (breaksBracket · .c0) = some true)
    ∧ TimerFair enabled ∧ enabled.cfg.transportOpsEnable = true ∧ enabled.rx = none :=
  ⟨⟨rfl, rfl, pinsSound_inside, by decide⟩, ⟨⟨rfl, rfl, rfl, rfl⟩, by decide⟩, rfl, rfl, rfl⟩

theorem witness_SecondStartUnknown : TimerFair enabled ∧ enabled.cfg.transportOpsEnable = true ∧ WireGood enabled :=
  ⟨rfl, rfl, wireGood_enabled⟩

/-- Each of the five lengths. -/
theorem witness_WriteRuns : TimerFair enabled ∧ enabled.cfg.transportOpsEnable = true
    ∧ writtenBytes (.write1 0) = some [0] ∧ writtenBytes (.write2 0 1) = some [0, 1]
    ∧ writtenBytes (.write3 0 1 2) = some [0, 1, 2] ∧ writtenBytes (.write4 0 1 2 3) = some [0, 1, 2, 3]
    ∧ writtenBytes (.write5 0 1 2 3 4) = some [0, 1, 2, 3, 4] := ⟨rfl, rfl, rfl, rfl, rfl, rfl, rfl⟩

theorem witness_WriteIsHandBuilt : TimerFair enabled ∧ enabled.cfg.transportOpsEnable = true
    ∧ writtenBytes (.write1 0x40) = some [0x40] := ⟨rfl, rfl, rfl⟩

theorem witness_SetBrightnessTransmits : TimerFair State.reset ∧ WireGood State.reset := ⟨rfl, wireGood_reset⟩

/-- The first and the last position out of range, the first and the last in range, and another cell. -/
theorem witness_ShowSegmentResult : 3 < (4 : Byte).toNat ∧ 3 < (255 : Byte).toNat
    ∧ TimerFair State.reset ∧ WireGood State.reset
    ∧ (0 : Byte).toNat ≤ 3 ∧ (3 : Byte).toNat ≤ 3 ∧ (2 : Nat) ≠ (3 : Byte).toNat :=
  ⟨by decide, by decide, rfl, wireGood_reset, by decide, by decide, by decide⟩

/-- The operations at the ends of the layers, and the first and last command bytes. -/
theorem witness_CommandBytesOnWire : (Instr.setBrightness 255).isHost = true
    ∧ (Instr.setBrightness 255).isTransport = false ∧ (Instr.showNumber 0).isTransport = false
    ∧ decode (.wireCommand 0x40) = .ok .datacmdAuto ∧ decode (.wireCommand 0xC3) = .ok (.addrcmd 3) := by decide

theorem witness_ShowDigitsStores : TimerFair State.reset ∧ WireGood State.reset ∧ 3 < 4 :=
  ⟨rfl, wireGood_reset, by decide⟩

theorem witness_GetSegmentsResult : (9 : Byte) = 9 ∧ 9 < (10 : Byte).toNat ∧ 9 < (255 : Byte).toNat
    ∧ State.reset.cfg.Wf ∧ seg State.reset.cfg 10 = 0x00 := by decide

theorem witness_DigitsOfNumber : (0 : Int) ≤ 0 ∧ (0 : Int) ≤ 9999 ∧ (9999 : Int) ≤ 9999 := by decide

/-- 10000 and the largest operand; -1 and the least; a zero digit and a non-zero one of a negative number. -/
theorem witness_DigitsOutsideRange : (9999 : Int) < 10000 ∧ (9999 : Int) < 2147483647 ∧ (-1 : Int) < 0
    ∧ (-2147483648 : Int) < 0 ∧ (digitsOf (-10)).d3 = 0 ∧ (digitsOf (-10)).d2 = -1 := by decide

theorem witness_ShowNumberStores : TimerFair State.reset ∧ WireGood State.reset ∧ 3 < 4
    ∧ State.reset.cfg.numWidth = 32 := ⟨rfl, wireGood_reset, by decide, rfl⟩

/-- Nothing to follow, and a byte to follow. -/
theorem witness_WireCommandsAct : State.reset.wireIn = [] ∧ State.reset.wireLost = false
    ∧ ({ State.reset with wireIn := [0x06] } : State).wireIn ≠ []
    ∧ ({ State.reset with wireIn := [0x06] } : State).wireLost = false := by decide

/-- Something to follow in a known mode; nothing to follow; the mode UNKNOWN. -/
theorem witness_WireAddressSelects :
    (let s : State := { State.reset with wireIn := [0x06], display := shown .fixed }
     s.wireLost = false ∧ s.wireIn ≠ [] ∧ s.display.amode ≠ none)
    ∧ (let s : State := { State.reset with display := shown .fixed }
       s.wireLost = false ∧ s.wireIn = [] ∧ s.display.amode ≠ none)
    ∧ (let s : State := { State.reset with wireIn := [0x06] }
       s.wireLost = false ∧ s.wireIn ≠ [] ∧ s.display.amode = none) := by decide

/-- Auto-increment at positions 0 and 3, fixed mode at position 3, with and without more to come. -/
theorem witness_WirePatternStores :
    (∀ s ∈ [atPayload (some .auto) 0 0 [], atPayload (some .auto) 3 3 [0x06], atPayload (some .fixed) 3 0 []],
      s.wireLost = false)
    ∧ (atPayload (some .auto) 0 0 []).display.phase = .data 0 0
    ∧ (atPayload (some .auto) 3 3 [0x06]).display.phase = .data 3 3
    ∧ (atPayload (some .auto) 3 3 [0x06]).display.amode = some .auto
    ∧ (atPayload (some .fixed) 3 0 []).display.phase = .data 3 0
    ∧ (atPayload (some .fixed) 3 0 []).display.amode = some .fixed := by decide

/-- The other clause: past position 3, mode UNKNOWN, a second pattern in fixed mode, and no address before. -/
theorem witness_WirePatternUnknown :
    ∀ s ∈ [atPayload (some .auto) 4 4 [], atPayload none 0 0 [], atPayload (some .fixed) 1 1 [], State.reset],
      s.wireLost = false ∧ ∀ next count, s.display.phase = .data next count →
        3 < next ∨ s.display.amode = none ∨ (s.display.amode = some .fixed ∧ 0 < count) := by
  intro s hs
  simp only [List.mem_cons, List.not_mem_nil, or_false] at hs
  rcases hs with rfl | rfl | rfl | rfl
  · exact ⟨rfl, fun _ _ h => .inl (by cases h; decide)⟩
  · exact ⟨rfl, fun _ _ _ => .inr (.inl rfl)⟩
  · exact ⟨rfl, fun _ _ h => .inr (.inr ⟨rfl, by cases h; decide⟩)⟩
  · exact ⟨rfl, fun _ _ _ => .inr (.inl rfl)⟩

theorem witness_WireLostStaysUnknown : (Instr.dispctrlOn 7).isHost = false
    ∧ ({ State.reset with wireLost := true } : State).wireLost = true := ⟨rfl, rfl⟩

theorem witness_TransactionReadsBack : [0xC0, (0x06 : Byte)] ≠ [] := by decide

/-- A command-layer operation, and a WRITE where the operations are enabled. -/
theorem witness_OperationsDeliver :
    ((Instr.setBrightness 5).isHost = true ∧ Instr.legal State.reset.cfg (.setBrightness 5) = true
      ∧ (Instr.setBrightness 5 ≠ .start ∧ Instr.setBrightness 5 ≠ .stop ∧ ∀ b, Instr.setBrightness 5 ≠ .writeByte b)
      ∧ TimerFair State.reset ∧ WireGood State.reset)
    ∧ ((Instr.write1 0x40).isHost = true ∧ Instr.legal enabled.cfg (.write1 0x40) = true
      ∧ (Instr.write1 0x40 ≠ .start ∧ Instr.write1 0x40 ≠ .stop ∧ ∀ b, Instr.write1 0x40 ≠ .writeByte b)
      ∧ TimerFair enabled ∧ WireGood enabled) :=
  ⟨⟨rfl, rfl, ⟨by decide, by decide, fun _ h => by cases h⟩, rfl, wireGood_reset⟩,
    ⟨rfl, rfl, ⟨by decide, by decide, fun _ h => by cases h⟩, rfl, wireGood_enabled⟩⟩

/-- Each transmitting operation, with the position at its bound. -/
theorem witness_BrokenFramingUnknown :
    let s : State := { enabled with clk := false, display := shown .auto }
    TimerFair s ∧ s.rx = none ∧ s.clk = false
      ∧ ∀ i ∈ [Instr.setBrightness 5, .showSegment 1 3, .showDigits 1 2 3 4, .showNumber 0, .write1 0x40,
          .write5 0xC0 1 2 3 4], i.isHost = true ∧ i.legal s.cfg = true ∧ transactions s.cfg i ≠ [] := by
  refine ⟨rfl, rfl, rfl, ?_⟩
  decide

/-- A reported failure of the data pin, an unreported one of the clock pin, and a later step. -/
theorem witness_PinFailureIsSilent :
    ((Instr.start).isHost = true ∧ TimerFair { enabled with dioFault := true } ∧ Pin.d0 ∈ pinsOf (expand enabled.cfg .start))
    ∧ (TimerFair { enabled with clkBroken := true } ∧ Pin.c1 ∈ pinsOf (expand enabled.cfg .stop))
    ∧ (let s : State := { State.reset with wireLost := true }
       s.wireLost = true ∧ ∃ t, step s = .next t) :=
  ⟨⟨rfl, rfl, by decide⟩, ⟨rfl, by decide⟩, rfl, _, rfl⟩

theorem witness_BlockIgnoresOutside : (Instr.showDigits 1 2 3 4).isHost = true := rfl

theorem witness_SameOperationSameEvents : (Instr.showDigits 1 2 3 4).isHost = true
    ∧ State.reset.cfg = ({ State.reset with clk := false, display := shown .fixed } : State).cfg
    ∧ TimerFair State.reset ∧ TimerFair { State.reset with clk := false, display := shown .fixed } :=
  ⟨rfl, rfl, rfl, rfl⟩

theorem witness_StepKeepsConfig : ∃ t, step State.reset = .next t := ⟨_, rfl⟩

/-- A display with cells set, and a foreign transaction arriving. -/
theorem witness_StepKeepsMemory :
    let s : State := { State.reset with display := shown .auto, wireIn := [0xC0, 0x06] }
    MemoryInv s ∧ ∃ t, step s = .next t := ⟨by unfold MemoryInv; decide, _, rfl⟩

/-- In the middle of an operation: one event of DELAY issued. -/
theorem witness_StepKeepsLevels :
    let s : State := { running 0x01000000000000 1 with traceRev := [.ts 5] }
    LevelsInv s ∧ ∃ t, step s = .next t := ⟨by unfold LevelsInv; decide, _, rfl⟩

theorem witness_StepKeepsPacing :
    let s : State := { running 0x01000000000000 1 with traceRev := [.ts 5] }
    PacingInv s ∧ ∃ t, step s = .next t := ⟨by unfold PacingInv; decide, _, rfl⟩

/-- SET_BRIGHTNESS in progress, its first event issued. -/
theorem witness_StepKeepsIdleHigh :
    let s : State := { State.reset with busy := true, opr := 0x11000000000005, upc := 1, dio := false }
    IdleHighInv s ∧ ∃ t, step s = .next t := ⟨by unfold IdleHighInv; decide +kernel, _, rfl⟩

theorem witness_StepKeepsUpc :
    UpcInv (running 0x11000000000005 95) ∧ ∃ t, step (running 0x11000000000005 95) = .next t :=
  ⟨by unfold UpcInv; decide +kernel, _, rfl⟩

theorem witness_StepKeepsUnknown :
    let s : State := { State.reset with wireLost := true, wireIn := [0x40] }
    UnknownInv s ∧ ∃ t, step s = .next t := ⟨fun _ => ⟨fun _ => rfl, rfl, rfl, rfl⟩, _, rfl⟩

end Sys2Proof.Tests
end

section
/-! PROOF. The construction-time parameters are constants of the run (R5). -/
namespace Sys2Proof.Machine

@[simp] theorem State.takeWire_cfg (f : Display → Display) (s : State) : (s.takeWire f).cfg = s.cfg := rfl

/-- Settles O50: every primitive update a step is made of leaves the parameters as they are (R5). -/
theorem stepKeepsConfig : Obligations.StepKeepsConfig := by
  intro s t h
  refine step_induct (P := fun u => u.cfg = s.cfg) h rfl ?reset ?wire ?accept ?issue ?expire ?stall ?complete ?idle
  case reset => exact fun u hu => (State.resetBlock_cfg u).trans hu
  case wire => exact fun u bs f hu _ => (State.takeWire_cfg f { u with wireIn := bs }).trans hu
  case accept => exact fun u w ws hu => (State.accept_cfg w { u with host := ws }).trans hu
  case issue => exact fun u e hu => (State.issue_cfg e u).trans hu
  case expire => exact fun u f hu => (State.expire_cfg f u).trans hu
  case stall => exact fun u hu => (State.stall_cfg u).trans hu
  case complete => exact fun u r hu => (State.complete_cfg r u).trans hu
  case idle => exact fun u hu => (State.idle_cfg u).trans hu

end Sys2Proof.Machine
end

section
/-! PROOF. CLK and DIO are the levels last asked for in TRACE (R20, R21, R26). -/
namespace Sys2Proof.Machine

/-- An event issued takes the levels on by its own request, in the latches and in TRACE alike (R70). -/
theorem LevelsInv.issue {s : State} (h : LevelsInv s) (e : Event) : LevelsInv (s.issue e) := by
  unfold LevelsInv at h ⊢
  rw [State.issue_trace, State.issue_cfg, State.issue_clk, State.issue_dio, levelsFrom_append, ← h, levelsFrom_cons]
  rfl

/-- Settles O52: only reset and an issued event touch the latches; reset puts them at the level an empty TRACE stands
for, and every other update leaves the latches, TRACE and the reset level as they are. -/
theorem stepKeepsLevels : Obligations.StepKeepsLevels := by
  intro s t h0 h
  refine step_induct h h0 ?reset ?wire ?accept ?issue ?expire ?stall ?complete ?idle
  case reset => exact fun u _ => (rfl : LevelsInv u.resetBlock)
  case issue => exact fun u e hu => hu.issue e
  case wire => exact fun u bs f hu _ => hu
  case accept => exact fun u w ws hu => hu
  case expire => exact fun u f hu => hu
  case stall => exact fun u hu => hu
  case complete => exact fun u r hu => hu
  case idle => exact fun u hu => hu

end Sys2Proof.Machine
end

section
/-! PROOF. One step of the sequencer, case by case (R72, R80, R81), and what it keeps of UPC (R24). -/
namespace Sys2Proof.Machine

/-- An event that nothing holds is issued (R80). -/
theorem State.sequencerStep_of_free {s : State} {e : Event} (he : s.latched[s.upc]? = some e)
    (hf : s.held e = false) : s.sequencerStep = s.issue e := by
  simp [State.sequencerStep, he, hf]

/-- While the sequencer is held the timer's step is taken (R25, R72). -/
theorem State.sequencerStep_of_timer {s t : State} {e : Event} (he : s.latched[s.upc]? = some e)
    (hh : s.held e = true) (ht : s.timerStep = some t) : s.sequencerStep = t := by
  simp [State.sequencerStep, he, hh, ht]

/-- While the sequencer is held by a timer that has no step, only the display is lost (R147, R143). -/
theorem State.sequencerStep_of_stopped {s : State} {e : Event} (he : s.latched[s.upc]? = some e)
    (hh : s.held e = true) (ht : s.timerStep = none) : s.sequencerStep = s.stall := by
  simp [State.sequencerStep, he, hh, ht]

/-- After its last event the operation completes (R81). -/
theorem State.sequencerStep_at_length {s : State} (hu : s.upc = s.latched.length) :
    s.sequencerStep = s.complete (responseWord s.cfg s.opr) := by
  simp [State.sequencerStep, hu]

/-- A step with an operation in progress is the sequencer's. -/
theorem step_of_busy {s : State} (hr : s.rst = false) (hw : s.wireIn = []) (hb : s.busy = true) :
    step s = .next s.sequencerStep := by
  simp [step, State.turn, hr, hw, hb]

theorem State.issue_latched (e : Event) (s : State) : (s.issue e).latched = s.latched := by
  rw [State.latched, State.issue_cfg, State.issue_opr, State.latched]

/-- UPC is bounded only while BUSY = 1. -/
theorem UpcInv.of_not_busy {s : State} (hb : s.busy = false) : UpcInv s :=
  fun h => absurd h (by simp [hb])

/-- The sequencer's step issues an event only where there is one, so UPC stays within the expansion (R24). -/
theorem UpcInv.sequencerStep {s : State} (h : UpcInv s) : UpcInv s.sequencerStep := by
  cases he : s.latched[s.upc]? with
  | some e =>
    have hlt : s.upc < s.latched.length := (List.getElem?_eq_some_iff.mp he).1
    cases hh : s.held e with
    | false =>
      rw [State.sequencerStep_of_free he hh]
      intro _
      rw [State.issue_latched, State.issue_upc]
      exact hlt
    | true =>
      cases ht : s.timerStep with
      | some t =>
        rw [State.sequencerStep_of_timer he hh ht]
        obtain ⟨-, f, -, rfl, -⟩ := State.timerStep_eq_some ht
        exact h
      | none =>
        rw [State.sequencerStep_of_stopped he hh ht]
        exact h
  | none =>
    rw [State.sequencerStep, he]
    dsimp only
    split
    · exact .of_not_busy rfl
    · exact h

/-- Settles O55: the sequencer's step counts an event only where there is one, and a whole run ends within its own
expansion; the other steps leave OPR and UPC as they are, or leave BUSY at 0. -/
theorem stepKeepsUpc : Obligations.StepKeepsUpc := by
  intro s t h0 h
  rcases step_cases h with ⟨-, rfl⟩ | ⟨-, b, bs, f, -, rfl, -⟩ | ⟨-, -, -, rfl⟩ | ⟨-, -, -, w, ws, -, rfl⟩
      | ⟨-, -, -, -, rfl⟩
  · exact .of_not_busy rfl
  · exact h0
  · exact h0.sequencerStep
  · obtain ⟨-, -, -, hu⟩ := State.runOp_remaining (s := State.accept w { s with host := ws })
      (r := responseWord s.cfg w) rfl (Nat.zero_le _) rfl
    exact hu
  · exact h0

/-- Settles O7: at a TW with TMR_EXPIRED = 1 nothing holds the event; with TMR_EXPIRED = 0 a countdown that runs under a
fair timer elapses. -/
theorem timerHolds : Obligations.TimerHolds := by
  intro s hr hw hb he
  constructor
  · intro hx
    rw [step_of_busy hr hw hb, State.sequencerStep_of_free he (by simp [State.held, hx])]
    rfl
  · intro d hx hc hf
    rw [step_of_busy hr hw hb,
      State.sequencerStep_of_timer he (by simp [State.held, hx]) (State.timerStep_fair hc hf), State.expire, ← hf]

end Sys2Proof.Machine
end

section
/-! PROOF. The sequencer's single steps end where the operation's whole run does (R79 to R81, R25; log entry 7). -/
namespace Sys2Proof.Machine

/-! ## An operation's run, event by event -/

theorem State.runOp_cons_of_free {s : State} {e : Event} {es : List Event} {r : Byte} (hh : s.held e = false) :
    s.runOp (e :: es) r = (s.issue e).runOp es r := by
  simp [State.runOp, State.release, hh]

/-- Only TW can hold the sequencer, and only before the timer has expired (R72). -/
theorem State.held_iff {s : State} {e : Event} : s.held e = true ↔ e = .tw ∧ s.tmrExpired = false := by
  cases e <;> simp [State.held]

/-- After the timer's expiry nothing holds the sequencer. -/
theorem State.not_held_expire (s : State) (f : Option Nat) (e : Event) : (s.expire f).held e = false := by
  cases e <;> rfl

theorem State.runOp_cons_of_timer {s t : State} {e : Event} {es : List Event} {r : Byte} (hh : s.held e = true)
    (ht : s.timerStep = some t) : s.runOp (e :: es) r = t.runOp (e :: es) r := by
  obtain ⟨-, f, -, rfl, -⟩ := State.timerStep_eq_some ht
  rw [State.runOp_cons_of_free (State.not_held_expire s f e)]
  simp [State.runOp, State.release, hh, ht]

theorem State.runOp_cons_of_stopped {s : State} {e : Event} {es : List Event} {r : Byte} (hh : s.held e = true)
    (ht : s.timerStep = none) : s.runOp (e :: es) r = s.stall := by
  simp [State.runOp, State.release, hh, ht]

/-- The timer has no step where no countdown runs or none will elapse any more (R147). -/
theorem State.timerStep_eq_none_iff {s : State} :
    s.timerStep = none ↔ s.tmrCount = none ∨ s.tmrFuture = some 0 := by
  unfold State.timerStep
  split
  · simp_all
  · split <;> simp_all

/-! ## Where the single steps end -/

/-- The sequencer has nothing left to do: the operation is over (R81), or it is held at a TW by a timer that has no step
(R147); its own step changes nothing any more. -/
structure State.AtEnd (t : State) : Prop where
  fixed : t.sequencerStep = t
  ended : (t.busy = false ∧ t.upc = t.latched.length)
    ∨ (t.busy = true ∧ t.latched[t.upc]? = some .tw ∧ t.tmrExpired = false ∧ t.timerStep = none)

/-- The sequencer's and the timer's single steps from `s` get to `t` and end there. -/
def State.RunsTo (s t : State) : Prop := (∃ n, s.sequencerRun n = t) ∧ t.AtEnd

theorem State.AtEnd.runsTo {t : State} (h : t.AtEnd) : t.RunsTo t := ⟨⟨0, rfl⟩, h⟩

theorem State.RunsTo.of_step {s t : State} (h : s.sequencerStep.RunsTo t) : s.RunsTo t := by
  obtain ⟨⟨n, hn⟩, he⟩ := h
  exact ⟨⟨n + 1, hn⟩, he⟩

theorem State.sequencerRun_add (n k : Nat) (s : State) :
    s.sequencerRun (n + k) = (s.sequencerRun n).sequencerRun k := by
  induction n generalizing s with
  | zero => rw [Nat.zero_add, State.sequencerRun]
  | succ n ih => rw [Nat.succ_add, State.sequencerRun, ih, State.sequencerRun]

theorem State.AtEnd.sequencerRun {t : State} (h : t.AtEnd) (k : Nat) : t.sequencerRun k = t := by
  induction k with
  | zero => rfl
  | succ k ih => rw [State.sequencerRun, h.fixed, ih]

/-- From some number of steps on, the single steps stand at the end. -/
theorem State.RunsTo.eventually {s t : State} (h : s.RunsTo t) : ∃ n, ∀ m, n ≤ m → s.sequencerRun m = t := by
  obtain ⟨⟨n, hn⟩, he⟩ := h
  refine ⟨n, fun m hm => ?_⟩
  obtain ⟨k, rfl⟩ := Nat.exists_eq_add_of_le hm
  rw [State.sequencerRun_add, hn, he.sequencerRun]

/-- Completion after the last event is an end: completing again changes nothing. -/
theorem State.atEnd_complete {s : State} (hu : s.upc = s.latched.length) :
    (s.complete (responseWord s.cfg s.opr)).AtEnd where
  fixed := State.sequencerStep_at_length (s := s.complete _) hu
  ended := .inl ⟨rfl, hu⟩

/-- A stopped timer at a TW is an end: the display stays UNKNOWN. -/
theorem State.atEnd_stall {s : State} {e : Event} (hb : s.busy = true) (he : s.latched[s.upc]? = some e)
    (hh : s.held e = true) (ht : s.timerStep = none) : s.stall.AtEnd := by
  have hn : s.stall.timerStep = none := State.timerStep_eq_none_iff.mpr (State.timerStep_eq_none_iff (s := s).mp ht)
  obtain ⟨rfl, hx⟩ := State.held_iff.mp hh
  exact ⟨State.sequencerStep_of_stopped (s := s.stall) he hh hn, .inr ⟨hb, he, hx, hn⟩⟩

/-- The event at UPC, and the events after it, of an expansion whose part from UPC on is known. -/
theorem State.latched_at_upc {s : State} {e : Event} {es : List Event} (he : s.latched.drop s.upc = e :: es) :
    s.latched[s.upc]? = some e ∧ s.latched.drop (s.upc + 1) = es := by
  constructor
  · rw [← List.head?_drop, he]
    rfl
  · rw [← List.tail_drop, he]
    rfl

/-- The single steps end where the run of the events that are left ends. -/
theorem State.runsTo_runOp {es : List Event} {s : State} (hb : s.busy = true) (hu : s.upc ≤ s.latched.length)
    (he : s.latched.drop s.upc = es) : s.RunsTo (s.runOp es (responseWord s.cfg s.opr)) := by
  induction es generalizing s with
  | nil =>
    have hl : s.upc = s.latched.length := Nat.le_antisymm hu (List.drop_eq_nil_iff.mp he)
    refine .of_step ?_
    rw [State.sequencerStep_at_length hl]
    exact (State.atEnd_complete hl).runsTo
  | cons e es ih =>
    have free : ∀ u : State, u.busy = true → u.latched.drop u.upc = e :: es → u.held e = false →
        u.RunsTo (u.runOp (e :: es) (responseWord u.cfg u.opr)) := by
      intro u hbu hdu hf
      obtain ⟨hcur, hrest⟩ := State.latched_at_upc hdu
      have h := ih (s := u.issue e) (by rwa [State.issue_busy])
        (by rw [State.issue_latched, State.issue_upc]; exact (List.getElem?_eq_some_iff.mp hcur).1)
        (by rwa [State.issue_latched, State.issue_upc])
      rw [State.issue_cfg, State.issue_opr] at h
      refine .of_step ?_
      rwa [State.sequencerStep_of_free hcur hf, State.runOp_cons_of_free hf]
    obtain ⟨hcur, -⟩ := State.latched_at_upc he
    cases hh : s.held e with
    | false => exact free s hb he hh
    | true =>
      refine .of_step ?_
      cases ht : s.timerStep with
      | some t =>
        rw [State.sequencerStep_of_timer hcur hh ht, State.runOp_cons_of_timer hh ht]
        obtain ⟨-, f, -, rfl, -⟩ := State.timerStep_eq_some ht
        exact free (s.expire f) hb he (State.not_held_expire s f e)
      | none =>
        rw [State.sequencerStep_of_stopped hcur hh ht, State.runOp_cons_of_stopped hh ht]
        exact (State.atEnd_stall hb hcur hh ht).runsTo

/-- No operation's run changes the latched word's expansion. -/
theorem State.runOp_latched (es : List Event) (r : Byte) (s : State) : (s.runOp es r).latched = s.latched :=
  State.runOp_induct (P := fun u => u.latched = s.latched) rfl (fun _ _ h => h) (fun _ h => h)
    (fun e _ u h => (State.issue_latched e u).trans h) (fun _ h => h)

/-- Settles O10: the meaning of the operation is the run of the latched word's expansion, and the single steps from
UPC = 0 end where that run does. -/
theorem execIsSequencerRun : Obligations.ExecIsSequencerRun := by
  intro s i hd hb hu
  have hes : s.latched = expand s.cfg i := by simp [State.latched, expandWord, hd]
  have hrsp : responseWord s.cfg s.opr = response s.cfg i := by simp [responseWord, hd]
  have h := State.runsTo_runOp hb (hu ▸ Nat.zero_le _) rfl
  rw [hu, List.drop_zero] at h
  obtain ⟨n, hn⟩ := h.eventually
  have hend := h.2.ended
  rw [State.runOp_latched] at hend
  exact ⟨_, n, by rw [exec_host (isHost_of_decode hd), hes, hrsp], hn, hend⟩

end Sys2Proof.Machine
end

section
/-! PROOF. A failed pin request: the display is UNKNOWN from there on and the wire is never trusted again (R112, R146;
log entries 18 and 29). -/
namespace Sys2Proof.Machine

theorem State.setDisplay_keeps_unknown {s : State} (hl : s.wireLost = true) (d : Display) :
    AllUnknown (s.setDisplay d).display := by
  rw [State.setDisplay_display, if_pos hl]
  exact .forget d

theorem State.checkBracket_keeps_unknown {s : State} (h : AllUnknown s.display) (ps : List Pin) (p : Pin) :
    AllUnknown (s.checkBracket ps p).display := by
  rw [State.checkBracket_display]
  split
  · exact .forget _
  · exact h

/-- On a wire that cannot be trusted the receiver makes nothing known. -/
theorem UnknownInv.receive {s : State} (h : UnknownInv s) (p : Pin) (e : Edge) : UnknownInv (s.receive p e) := by
  intro hl
  rw [State.receive_wireLost] at hl
  unfold State.receive
  split
  · split
    · exact h hl
    · exact State.setDisplay_keeps_unknown hl _
    · exact State.setDisplay_keeps_unknown hl _
    · exact h hl
  · rename_i ps _
    have hb := State.checkBracket_keeps_unknown (h hl) ps p
    split
    · exact State.setDisplay_keeps_unknown hl _
    · exact hb
    · exact hb
    · exact hb

/-- A request that fails leaves the display UNKNOWN, and one that does not fail makes nothing known. -/
theorem UnknownInv.drive {s : State} (h : UnknownInv s) (p : Pin) : UnknownInv (s.drive p) := by
  unfold State.drive
  split
  · exact fun _ => .forget _
  · exact UnknownInv.receive (s := s.setPins (p.clkAfter s.clk) (p.dioAfter s.dio)) h p _

theorem UnknownInv.issue {s : State} (h : UnknownInv s) (e : Event) : UnknownInv (s.issue e) := by
  cases e with
  | pin p => exact h.drive p
  | ts d => exact h
  | tw => exact h

/-- Trust that is lost does not come back with an event. -/
theorem State.issue_wireLost {s : State} (h : s.wireLost = true) (e : Event) : (s.issue e).wireLost = true := by
  cases e <;> simp [State.issue, State.emit, h]

/-- What a failed request leaves: a wire that cannot be trusted, and nothing known of the display. -/
structure State.Dark (s : State) : Prop where
  lost : s.wireLost = true
  unknown : AllUnknown s.display

/-- Which requests fail (R28, R112, R146): every one of a pin that fails, reported or not. -/
theorem State.requestFails_iff {s : State} {p : Pin} :
    s.requestFails p = true ↔ (p = .c0 ∨ p = .c1) ∧ (s.clkFault = true ∨ s.clkBroken = true)
      ∨ (p = .d0 ∨ p = .d1) ∧ (s.dioFault = true ∨ s.dioBroken = true) := by
  cases p <;> simp [State.requestFails]

theorem State.issue_dark {s : State} {p : Pin} (h : s.requestFails p = true) : (s.issue (.pin p)).Dark := by
  have hd : s.drive p
      = ((s.setPins (p.clkAfter s.clk) (p.dioAfter s.dio)).receive p (p.edge s.clk s.dio)).loseWire := by
    rw [State.drive, if_pos h]
  rw [State.issue, State.emit, hd]
  exact ⟨rfl, .forget _⟩

theorem State.Dark.issue {s : State} (h : s.Dark) (e : Event) : (s.issue e).Dark :=
  have hl := State.issue_wireLost h.lost e
  ⟨hl, UnknownInv.issue (fun _ => h.unknown) e hl⟩

theorem State.Dark.playEvent {s : State} (h : s.Dark) (e : Event) : (s.playEvent e).Dark := by
  rcases s.playEvent_cases e with h' | h' <;> rw [h']
  · exact h.issue e
  · exact State.Dark.issue (s := s.expire none) ⟨h.lost, h.unknown⟩ e

theorem State.Dark.play {s : State} (h : s.Dark) (es : List Event) : (s.play es).Dark := by
  induction es generalizing s with
  | nil => exact h
  | cons e es ih => exact ih (h.playEvent e)

@[simp] theorem State.playEvent_requestFails (e : Event) (s : State) (p : Pin) :
    (s.playEvent e).requestFails p = s.requestFails p := by
  cases p <;> simp [State.requestFails]

/-- A replay with a request of a failing pin in it ends dark. -/
theorem State.play_dark {es : List Event} {p : Pin} {s : State} (hp : .pin p ∈ es) (hf : s.requestFails p = true) :
    (s.play es).Dark := by
  induction es generalizing s with
  | nil => cases hp
  | cons e es ih =>
    rw [State.play_cons]
    cases hp with
    | head =>
      rw [State.playEvent_of_free rfl]
      exact (State.issue_dark hf).play es
    | tail _ hp => exact ih hp (by rwa [State.playEvent_requestFails])

/-- The pin events of a list are events of the list. -/
theorem mem_of_mem_pinsOf {es : List Event} {p : Pin} (h : p ∈ pinsOf es) : .pin p ∈ es := by
  obtain ⟨e, he, hep⟩ := List.mem_filterMap.mp h
  cases e with
  | pin q => exact Option.some.inj hep ▸ he
  | ts d => cases hep
  | tw => cases hep

/-- No step makes the wire trusted again, a reset neither (log entry 18). -/
theorem step_keeps_wireLost {s t : State} (hl : s.wireLost = true) (h : step s = .next t) : t.wireLost = true := by
  refine step_induct (P := fun u => u.wireLost = true) h hl ?reset ?wire ?accept ?issue ?expire ?stall ?complete ?idle
  case issue => exact fun u e hu => State.issue_wireLost hu e
  case reset => exact fun u hu => hu
  case wire => exact fun u bs f hu _ => hu
  case accept => exact fun u w ws hu => hu
  case expire => exact fun u f hu => hu
  case stall => exact fun u hu => hu
  case complete => exact fun u r hu => hu
  case idle => exact fun u hu => hu

/-- Settles O47: the operation runs as ever by the timer's fairness, its replay ends dark from the failing request on,
and no step repairs the wire. -/
theorem pinFailureIsSilent : Obligations.PinFailureIsSilent := by
  refine ⟨?_, fun s t => step_keeps_wireLost⟩
  intro i p s hi hf hp hfail
  obtain ⟨hl, hu⟩ := State.play_dark (mem_of_mem_pinsOf hp) (State.requestFails_iff.mpr hfail)
  exact ⟨_, exec_fair hi hf, State.ran_play _ (pacedBy_expand s.cfg i) hf, hl, hu⟩

end Sys2Proof.Machine
end

section
/-! PROOF. What the block does depends neither on the wire, the display nor pin failures (R28, R112, R145, R146). -/
namespace Sys2Proof.Machine

/-- Two states agree on the block and its timer: the parameters, the latches, the registers, TRACE and the response. -/
structure SameBlock (s t : State) : Prop where
  cfg : t.cfg = s.cfg
  clk : t.clk = s.clk
  dio : t.dio = s.dio
  busy : t.busy = s.busy
  opr : t.opr = s.opr
  upc : t.upc = s.upc
  tmrExpired : t.tmrExpired = s.tmrExpired
  tmrCount : t.tmrCount = s.tmrCount
  tmrFuture : t.tmrFuture = s.tmrFuture
  traceRev : t.traceRev = s.traceRev
  rsp : t.rsp = s.rsp

/-- An issued event's effect on the block is a function of the block and the timer. -/
theorem SameBlock.issue {s t : State} (h : SameBlock s t) (e : Event) : SameBlock (s.issue e) (t.issue e) where
  cfg := by simp [h.cfg]
  clk := by simp [h.clk]
  dio := by simp [h.dio]
  busy := by simp [h.busy]
  opr := by simp [h.opr]
  upc := by simp [h.upc]
  tmrExpired := by cases e <;> simp [State.issue, State.emit, h.tmrExpired]
  tmrCount := by cases e <;> simp [State.issue, State.emit, h.tmrCount]
  tmrFuture := by simp [h.tmrFuture]
  traceRev := by simp [h.traceRev]
  rsp := by simp

theorem SameBlock.expire {s t : State} (h : SameBlock s t) (f : Option Nat) : SameBlock (s.expire f) (t.expire f) :=
  ⟨h.cfg, h.clk, h.dio, h.busy, h.opr, h.upc, rfl, rfl, rfl, h.traceRev, h.rsp⟩

theorem SameBlock.stall {s t : State} (h : SameBlock s t) : SameBlock s.stall t.stall :=
  ⟨h.cfg, h.clk, h.dio, h.busy, h.opr, h.upc, h.tmrExpired, h.tmrCount, h.tmrFuture, h.traceRev, h.rsp⟩

theorem SameBlock.complete {s t : State} (h : SameBlock s t) (r : Byte) : SameBlock (s.complete r) (t.complete r) :=
  ⟨h.cfg, h.clk, h.dio, rfl, h.opr, h.upc, h.tmrExpired, h.tmrCount, h.tmrFuture, h.traceRev, rfl⟩

theorem SameBlock.held {s t : State} (h : SameBlock s t) (e : Event) : t.held e = s.held e := by
  cases e <;> simp [State.held, h.tmrExpired]

/-- The timers of two such states take the same step or none. -/
theorem SameBlock.timerStep {s t : State} (h : SameBlock s t) : Option.Rel SameBlock s.timerStep t.timerStep := by
  unfold State.timerStep
  rw [h.tmrCount, h.tmrFuture]
  split
  · exact .none
  · split
    · exact .some (h.expire _)
    · exact .none
    · exact .some (h.expire _)

theorem SameBlock.release {s t : State} (h : SameBlock s t) (e : Event) :
    Option.Rel SameBlock (s.release e) (t.release e) := by
  unfold State.release
  rw [h.held e]
  split
  · exact h.timerStep
  · exact .some h

/-- A whole run of the same events keeps the agreement. -/
theorem SameBlock.runOp {s t : State} (h : SameBlock s t) (es : List Event) (r : Byte) :
    SameBlock (s.runOp es r) (t.runOp es r) := by
  induction es generalizing s t with
  | nil => exact h.complete r
  | cons e es ih =>
    have hr := h.release e
    simp only [State.runOp]
    generalize s.release e = a, t.release e = b at hr
    cases hr with
    | none => exact h.stall
    | some h' => exact ih (h'.issue e)

/-- Settles O48: the two states agree on the block, and a run of the same expansion keeps that. -/
theorem blockIgnoresOutside : Obligations.BlockIgnoresOutside := by
  intro i s a b x y lost r d hi
  have h : SameBlock s { s with
      clkFault := a, dioFault := b, clkBroken := x, dioBroken := y, wireLost := lost, rx := r, display := d } :=
    ⟨rfl, rfl, rfl, rfl, rfl, rfl, rfl, rfl, rfl, rfl, rfl⟩
  obtain ⟨-, hclk, hdio, hbusy, hopr, hupc, hexp, hcount, -, htrace, hrsp⟩ :=
    h.runOp (expand s.cfg i) (response s.cfg i)
  exact ⟨_, _, exec_host hi s, exec_host hi _, congrArg List.reverse htrace.symm, hclk.symm, hdio.symm, hbusy.symm,
    hopr.symm, hupc.symm, hrsp.symm, hexp.symm, hcount.symm⟩

end Sys2Proof.Machine
end

section
/-! PROOF. The block at rest and right after reset (R29). -/
namespace Sys2Proof.Machine

/-- Settles O12: without reset, wire byte, operation or word the block takes its idle step (R29). -/
theorem idleWaits : Obligations.IdleWaits := by
  intro s hr hw hb hh
  simp [step, State.turn, hr, hw, hb, hh, State.idle]

/-- Settles O14: each value is read off the state `State.construct` builds with this hardware's parameters. -/
theorem resetValues : Obligations.ResetValues :=
  ⟨rfl, rfl, rfl, rfl, ⟨Memory.read_nil, rfl, rfl, rfl⟩, rfl, rfl, rfl⟩

/-- Settles O57: at reset TRACE is empty, no operation runs, no request has failed and no cell is known. -/
theorem invariantsAtReset : Obligations.InvariantsAtReset :=
  ⟨Memory.wf_reset, rfl, rfl, ⟨rfl, rfl, rfl⟩, .of_not_busy rfl,
    fun hl => Bool.noConfusion hl⟩

end Sys2Proof.Machine
end

section
/-! PROOF. A whole transaction as R45 reads it off the wire: its bytes, its bracket and its levels. -/
namespace Sys2Proof.Machine

/-- The samples of a row of byte frames: for each byte its eight bits and the acknowledgement slot. -/
theorem byteFrames_samples (c : Config) (bs : List Byte) (clk dio : Bool) :
    samplesFrom clk dio (bs.flatMap fun b => pinsOf (byteFrame c b))
      = bs.flatMap fun b => bitsOf c.bitOrder b ++ [cellBit c.bitOrder b 7] := by
  induction bs generalizing clk dio with
  | nil => rfl
  | cons b bs ih => rw [List.flatMap_cons, samplesFrom_append, byteFrame_samples, ih, List.flatMap_cons]

/-- One group of nine samples is one byte; the ninth is ignored (R45). -/
theorem bytesOfSamples_group (o : BitOrder) (b : Byte) (x : Bool) (rest : List Bool) :
    bytesOfSamples o (bitsOf o b ++ [x] ++ rest) = (bytesOfSamples o rest).map (b :: ·) := by
  simp only [bitsOf, List.map_cons, List.map_nil, List.cons_append, List.nil_append, bytesOfSamples, byteOfBits_bits]
  cases bytesOfSamples o rest <;> rfl

/-- The samples of byte frames are read back as the bytes (R45). -/
theorem bytesOfSamples_bits (o : BitOrder) (bs : List Byte) :
    bytesOfSamples o (bs.flatMap fun b => bitsOf o b ++ [cellBit o b 7]) = some bs := by
  induction bs with
  | nil => rfl
  | cons b bs ih => rw [List.flatMap_cons, bytesOfSamples_group, ih, Option.map_some]

/-- A row of byte frames ends with CLK asked to go low. -/
theorem byteFrames_reverse (c : Config) {bs : List Byte} (h : bs ≠ []) :
    ∃ l, l ≠ [] ∧ (bs.flatMap fun b => pinsOf (byteFrame c b)).reverse = .c0 :: l := by
  obtain ⟨init, b, rfl⟩ : ∃ init b, bs = init ++ [b] := ⟨_, _, (List.dropLast_concat_getLast h).symm⟩
  obtain ⟨l, hl, e⟩ := byteFrame_reverse c b
  exact ⟨l ++ (init.flatMap fun b => pinsOf (byteFrame c b)).reverse, by simp [hl], by simp [e]⟩

/-- Byte frames end with the clock low and DIO at some level. -/
theorem byteFrames_levels_of_ne_nil (c : Config) {bs : List Byte} (h : bs ≠ []) (clk dio : Bool) :
    ∃ v, pinLevels clk dio (bs.flatMap fun b => pinsOf (byteFrame c b)) = (false, v) :=
  ⟨_, Prod.ext ((byteFrames_levels c bs clk dio).trans (if_neg h)) rfl⟩

/-- R45's reading of a transaction: two changes of DIO under a high clock, and a sample more than its bytes have. -/
theorem decodeTxn_txnFrame (c : Config) {bs : List Byte} (h : bs ≠ []) :
    decodeTxn c (pinsOf (txnFrame c bs)) = some bs := by
  obtain ⟨v, hv⟩ := byteFrames_levels_of_ne_nil c h true false
  have hedges : dataEdgesFrom true true (pinsOf (txnFrame c bs)) = 2 := by
    rw [pinsOf_txnFrame]
    simp [dataEdgesFrom, Pin.edge, Pin.clkAfter, Pin.dioAfter, dataEdgesFrom_append, byteFrames_dataEdges, hv]
  have hsamples : samplesFrom true true (pinsOf (txnFrame c bs))
      = (bs.flatMap fun b => bitsOf c.bitOrder b ++ [cellBit c.bitOrder b 7]) ++ [false] := by
    rw [pinsOf_txnFrame]
    simp [samplesFrom, Pin.edge, Pin.clkAfter, Pin.dioAfter, samplesFrom_append, byteFrames_samples, hv]
  rw [decodeTxn, if_pos hedges, hsamples, List.dropLast_concat, bytesOfSamples_bits]

/-- A transaction keeps R142's bracket: after the START come byte frames, and STOP's first request is followed by CLK
going high. -/
theorem txnFrame_keepsBracket (c : Config) {bs : List Byte} (h : bs ≠ []) :
    keepsBracket [] (pinsOf (txnFrame c bs)) = true := by
  obtain ⟨l, hl, e⟩ := byteFrames_reverse c h
  have hstop : keepsBracket (.c0 :: (l ++ [.d0])) [.d0, .c1, .d1] = true := by
    cases l with
    | nil => exact absurd rfl hl
    | cons q l => rfl
  rw [pinsOf_txnFrame, keepsBracket, keepsBracket_append, byteFrames_keepsBracket c bs rfl, e]
  exact hstop

/-- Settles O44: the reading of the samples gives the bytes, and each request that follows another keeps the bracket. -/
theorem transactionReadsBack : Obligations.TransactionReadsBack :=
  fun c _ h => ⟨decodeTxn_txnFrame c h, txnFrame_keepsBracket c h⟩

end Sys2Proof.Machine
end

section
/-! PROOF. Taking a transaction byte by byte is R44's table (log entry 14). -/
namespace Sys2Proof.Machine

theorem toNat_eq_split_two (b : Byte) : b.toNat = 4 * (b.extractLsb' 2 6).toNat + (b.extractLsb' 0 2).toNat := by
  simp only [BitVec.extractLsb'_toNat, Nat.shiftRight_eq_div_pow]
  omega

theorem toNat_eq_split_three (b : Byte) : b.toNat = 8 * (b.extractLsb' 3 5).toNat + (b.extractLsb' 0 3).toNat := by
  simp only [BitVec.extractLsb'_toNat, Nat.shiftRight_eq_div_pow]
  omega

/-- What a byte is in command position, in numbers (R57 to R59), with every other byte reserved (R64). -/
inductive CommandByte : Byte → Decoded → Prop
  | auto : CommandByte 0x40 (.ok .datacmdAuto)
  | fixed : CommandByte 0x44 (.ok .datacmdFixed)
  | address {b : Byte} (a : BitVec 2) (h : b.toNat = 0xC0 + a.toNat) : CommandByte b (.ok (.addrcmd a))
  | off : CommandByte 0x80 (.ok .dispctrlOff)
  | on {b : Byte} (f : BitVec 3) (h : b.toNat = 0x88 + f.toNat) : CommandByte b (.ok (.dispctrlOn f))
  | reserved {b : Byte} (h40 : b ≠ 0x40) (h44 : b ≠ 0x44) (h80 : b ≠ 0x80)
      (hon : b.toNat < 0x88 ∨ 0x8F < b.toNat) (haddr : b.toNat < 0xC0 ∨ 0xC3 < b.toNat) :
      CommandByte b (.error (.reservedCommand b))

theorem commandByte (b : Byte) : CommandByte b (decode (.wireCommand b)) := by
  have h2 := toNat_eq_split_two b
  have h3 := toNat_eq_split_three b
  simp only [decode, decodeCommandByte]
  by_cases h40 : b = 0x40
  · subst h40; exact .auto
  by_cases h44 : b = 0x44
  · subst h44; exact .fixed
  rw [if_neg h40, if_neg h44]
  by_cases ha : b.extractLsb' 2 6 = 0b110000#6
  · rw [if_pos ha]
    exact .address _ (by rw [h2, ha]; rfl)
  rw [if_neg ha]
  by_cases h80 : b = 0x80
  · subst h80; exact .off
  rw [if_neg h80]
  by_cases hf : b.extractLsb' 3 5 = 0b10001#5
  · rw [if_pos hf]
    exact .on _ (by rw [h3, hf]; rfl)
  rw [if_neg hf]
  have ha' : (b.extractLsb' 2 6).toNat ≠ 48 := fun h => ha (BitVec.eq_of_toNat_eq h)
  have hf' : (b.extractLsb' 3 5).toNat ≠ 17 := fun h => hf (BitVec.eq_of_toNat_eq h)
  exact .reserved h40 h44 h80 (by omega) (by omega)

/-! ## The display's bytes, place by place -/

theorem Display.takeByte_payload {d : Display} (h : d.phase ≠ .command) (b : Byte) : d.takeByte b = d.payload b := by
  unfold Display.takeByte Display.codeOf
  cases hp : d.phase with
  | command => exact absurd hp h
  | closed => rfl
  | data _ _ => rfl
  | lost => rfl

theorem Display.takeByte_command {d : Display} (h : d.phase = .command) {b : Byte} {i : Instr}
    (hd : decode (.wireCommand b) = .ok i) : d.takeByte b = wireEffect i d := by
  simp [Display.takeByte, Display.codeOf, h, hd]

theorem Display.takeByte_reserved {d : Display} (h : d.phase = .command) {b : Byte} {r : Reject}
    (hd : decode (.wireCommand b) = .error r) : d.takeByte b = d.lose := by
  simp [Display.takeByte, Display.codeOf, h, hd]

/-- After something undescribed the rest of the transaction makes nothing known. -/
theorem Display.endTxn_lost (vs : List Byte) {d : Display} (h : d.phase = .lost) :
    (vs.foldl Display.takeByte d).endTxn = { d.forget with phase := .command } := by
  induction vs generalizing d with
  | nil => simp [Display.endTxn, h]
  | cons v vs ih =>
    have hl : d.takeByte v = d.lose := by
      rw [Display.takeByte_payload (by simp [h])]
      simp [Display.payload, h]
    rw [List.foldl_cons, hl, ih rfl]
    rfl

/-- A command that stands alone in its transaction has its effect; bytes after it undo everything. -/
theorem Display.endTxn_closed (vs : List Byte) {d : Display} (h : d.phase = .closed) :
    (vs.foldl Display.takeByte d).endTxn = { if vs = [] then d else d.forget with phase := .command } := by
  cases vs with
  | nil => simp [Display.endTxn, h]
  | cons v vs =>
    have hl : d.takeByte v = d.lose := by
      rw [Display.takeByte_payload (by simp [h])]
      simp [Display.payload, h]
    rw [List.foldl_cons, hl, Display.endTxn_lost vs rfl]
    rfl

/-- Auto-increment mode: payload is stored from the selected position on, if there is some and it ends by position 3. -/
theorem Display.endTxn_auto (vs : List Byte) {d : Display} {next count : Nat} (hp : d.phase = .data next count)
    (hm : d.amode = some .auto) (hn : next ≤ Config.nDigits) :
    (vs.foldl Display.takeByte d).endTxn =
      if 0 < count + vs.length ∧ next + vs.length ≤ Config.nDigits then
        { d with cells := Memory.writeRun d.cells next vs, phase := .command }
      else { d.forget with phase := .command } := by
  induction vs generalizing d next count with
  | nil =>
    cases count with
    | zero => simp [Display.endTxn, hp]
    | succ k => simp [Display.endTxn, hp, hn, Memory.writeRun]
  | cons v vs ih =>
    rw [List.foldl_cons, Display.takeByte_payload (by simp [hp])]
    by_cases hlt : next < Config.nDigits
    · have hs : d.payload v = d.store v next count := by simp [Display.payload, hp, hm, hlt]
      rw [hs, ih (d := d.store v next count) rfl hm hlt]
      have hc : (0 < count + 1 + vs.length ∧ next + 1 + vs.length ≤ Config.nDigits)
          ↔ (0 < count + (v :: vs).length ∧ next + (v :: vs).length ≤ Config.nDigits) := by
        rw [List.length_cons]
        omega
      simp only [hc]
      rfl
    · have hl : d.payload v = d.lose := by simp [Display.payload, hp, hm, hlt]
      rw [hl, Display.endTxn_lost vs rfl, if_neg (by rw [List.length_cons]; omega)]
      rfl

/-- Fixed mode: exactly one payload byte is stored, at the selected position. -/
theorem Display.endTxn_fixed (vs : List Byte) {d : Display} {next : Nat} (hp : d.phase = .data next 0)
    (hm : d.amode = some .fixed) (hn : next < Config.nDigits) :
    (vs.foldl Display.takeByte d).endTxn =
      if vs.length = 1 then { d with cells := Memory.writeRun d.cells next vs, phase := .command }
      else { d.forget with phase := .command } := by
  cases vs with
  | nil => simp [Display.endTxn, hp]
  | cons v vs =>
    have hs : d.payload v = d.store v next 0 := by simp [Display.payload, hp, hm, hn]
    rw [List.foldl_cons, Display.takeByte_payload (by simp [hp]), hs]
    cases vs with
    | nil => rfl
    | cons w vs =>
      have hl : (d.store v next 0).takeByte w = (d.store v next 0).lose := by
        rw [Display.takeByte_payload (by simp [Display.store])]
        simp [Display.payload, Display.store, hm]
      rw [List.foldl_cons, hl, Display.endTxn_lost vs rfl]
      rfl

/-! ## R44's table, row by row -/

/-- The row of an address command with payload, in the two modes. -/
theorem Display.ghostUpdate_address (d : Display) (b : Byte) (a : BitVec 2) (h : b.toNat = 0xC0 + a.toNat)
    (vs : List Byte) :
    d.ghostUpdate (b :: vs) =
      if (d.amode = some .fixed ∧ vs.length = 1)
          ∨ (d.amode = some .auto ∧ 0 < vs.length ∧ a.toNat + vs.length ≤ Config.nDigits) then
        { d with cells := Memory.writeRun d.cells a.toNat vs, phase := .command }
      else { d.forget with phase := .command } := by
  have ha := a.isLt
  have h40 : b ≠ 0x40 := by bv_omega
  have h44 : b ≠ 0x44 := by bv_omega
  have h80 : b ≠ 0x80 := by bv_omega
  have hon : ¬b.toNat ≤ 0x8F := by omega
  have hge : 0xC0 ≤ b.toNat := by omega
  have hle : b.toNat ≤ 0xC3 := by omega
  have hsub : b.toNat - 0xC0 = a.toNat := by omega
  simp only [Display.ghostUpdate, h40, h44, h80, hon, hge, hle, hsub, false_and, and_false, if_false, true_and]
  cases hm : d.amode with
  | none => simp
  | some m => cases m <;> simp [Nat.one_le_iff_ne_zero, Nat.pos_iff_ne_zero]

/-- The row of the display-control commands that switch the display on. -/
theorem Display.ghostUpdate_displayOn (d : Display) (b : Byte) (f : BitVec 3) (h : b.toNat = 0x88 + f.toNat)
    (vs : List Byte) :
    d.ghostUpdate (b :: vs) =
      if vs = [] then { d with don := some true, dbr := some f, phase := .command }
      else { d.forget with phase := .command } := by
  have hf := f.isLt
  have h40 : b ≠ 0x40 := by bv_omega
  have h44 : b ≠ 0x44 := by bv_omega
  have h80 : b ≠ 0x80 := by bv_omega
  have hge : 0x88 ≤ b.toNat := by omega
  have hle : b.toNat ≤ 0x8F := by omega
  have haddr : ¬0xC0 ≤ b.toNat := by omega
  have hsub : BitVec.ofNat 3 (b.toNat - 0x88) = f := by simp [h]
  simp only [Display.ghostUpdate, h40, h44, h80, hge, hle, haddr, hsub, false_and, true_and, if_false]

/-- A first byte that is no command leaves nothing known. -/
theorem Display.ghostUpdate_reserved (d : Display) {b : Byte} (h40 : b ≠ 0x40) (h44 : b ≠ 0x44) (h80 : b ≠ 0x80)
    (hon : b.toNat < 0x88 ∨ 0x8F < b.toNat) (haddr : b.toNat < 0xC0 ∨ 0xC3 < b.toNat) (vs : List Byte) :
    d.ghostUpdate (b :: vs) = { d.forget with phase := .command } := by
  have hrange : ¬(0x88 ≤ b.toNat ∧ b.toNat ≤ 0x8F ∧ vs = []) := by omega
  have hfixed : ¬(0xC0 ≤ b.toNat ∧ b.toNat ≤ 0xC3 ∧ vs.length = 1 ∧ d.amode = some .fixed) := by omega
  have hauto : ¬(0xC0 ≤ b.toNat ∧ 1 ≤ vs.length ∧ b.toNat - 0xC0 + vs.length ≤ Config.nDigits
      ∧ d.amode = some .auto) := by
    simp only [Config.nDigits]
    omega
  simp only [Display.ghostUpdate, h40, h44, h80, false_and, if_false, if_neg hrange, if_neg hfixed, if_neg hauto]

/-- Settles O43: in command position a byte is one of R57 to R59's or reserved; what follows it is taken place by
place. -/
theorem bytewiseIsTable : Obligations.BytewiseIsTable := by
  intro B d
  cases B with
  | nil => rfl
  | cons b vs =>
    have hb := commandByte b
    generalize hd : decode (.wireCommand b) = D at hb
    have take : ∀ i, D = .ok i →
        Display.takeByte { d with phase := .command } b = wireEffect i { d with phase := .command } :=
      fun i hi => Display.takeByte_command rfl (hd.trans hi)
    simp only [Display.takeTxn, List.foldl_cons]
    cases hb with
    | auto =>
      rw [take _ rfl, Display.endTxn_closed vs rfl]
      cases vs <;> rfl
    | fixed =>
      rw [take _ rfl, Display.endTxn_closed vs rfl]
      cases vs <;> rfl
    | off =>
      rw [take _ rfl, Display.endTxn_closed vs rfl]
      cases vs <;> rfl
    | on f h =>
      rw [take _ rfl, Display.endTxn_closed vs rfl, Display.ghostUpdate_displayOn d b f h]
      cases vs <;> rfl
    | address a h =>
      rw [take _ rfl, Display.ghostUpdate_address d b a h]
      have ha : a.toNat < Config.nDigits := a.isLt
      simp only [wireEffect, Display.address]
      cases hm : d.amode with
      | none =>
        rw [Display.endTxn_lost vs rfl]
        simp
      | some m =>
        cases m with
        | auto =>
          rw [Display.endTxn_auto vs rfl rfl (Nat.le_of_lt ha)]
          simp
        | fixed =>
          rw [Display.endTxn_fixed vs rfl rfl ha]
          simp
    | reserved h40 h44 h80 hon haddr =>
      rw [Display.takeByte_reserved rfl hd, Display.endTxn_lost vs rfl,
        Display.ghostUpdate_reserved d h40 h44 h80 hon haddr]
      rfl

end Sys2Proof.Machine
end

section
/-! PROOF. Operations on a good wire deliver their transactions to the display (R46, R85). -/
namespace Sys2Proof.Machine

/-- The levels a transaction's requests pass between its start and its stop condition: no stop condition, and at the end the
clock is high and DIO low. -/
theorem txnFrame_interior (c : Config) {bs : List Byte} (h : bs ≠ []) :
    stopFree true false ((bs.flatMap fun b => pinsOf (byteFrame c b)) ++ [.d0, .c1]) = true
      ∧ pinLevels true false ((bs.flatMap fun b => pinsOf (byteFrame c b)) ++ [.d0, .c1]) = (true, false) := by
  obtain ⟨v, hv⟩ := byteFrames_levels_of_ne_nil c h true false
  rw [stopFree_append, byteFrames_stopFree, pinLevels_append, hv]
  exact ⟨rfl, rfl⟩

theorem pinsOf_txnFrame_bracket (c : Config) (bs : List Byte) :
    pinsOf (txnFrame c bs)
      = .d0 :: (((bs.flatMap fun b => pinsOf (byteFrame c b)) ++ [.d0, .c1]) ++ [.d1]) := by
  rw [pinsOf_txnFrame, List.append_assoc]
  rfl

/-- From an idle-high wire with sound pins, trusted or not, a transaction has R44's effect on the display and closes. -/
theorem State.play_txnFrame {s : State} (hc : s.clk = true) (hd : s.dio = true) (hr : s.rx = none) (hp : PinsSound s)
    {bs : List Byte} (h : bs ≠ []) :
    SameWire (s.setDisplay (s.display.ghostUpdate bs)) (s.play (txnFrame s.cfg bs)) := by
  obtain ⟨hstop, hlevels⟩ := txnFrame_interior s.cfg h
  have hb := State.driveAll_bracket hc hd hr hp hstop hlevels
  rw [← pinsOf_txnFrame_bracket, txnFrame_keepsBracket s.cfg h, decodeTxn_txnFrame s.cfg h, if_pos rfl,
    bytewiseIsTable] at hb
  exact hb.trans (State.play_wire _ s)

/-- A good wire is good for everything that agrees with it. -/
theorem WireGood.of_sameWire {s t : State} (h : WireGood s) (k : SameWire s t) : WireGood t where
  clk := k.clk.trans h.clk
  dio := k.dio.trans h.dio
  rx := k.rx.trans h.rx
  trusted := k.wireLost.trans h.trusted
  pins :=
    { clkReported := k.clkFault.trans h.pins.clkReported
      dioReported := k.dioFault.trans h.pins.dioReported
      clkUnreported := k.clkBroken.trans h.pins.clkUnreported
      dioUnreported := k.dioBroken.trans h.pins.dioUnreported }

theorem WireGood.setDisplay {s : State} (h : WireGood s) (d : Display) : WireGood (s.setDisplay d) :=
  ⟨h.clk, h.dio, h.rx, h.trusted, h.pins.1, h.pins.2, h.pins.3, h.pins.4⟩

theorem WireGood.complete {s : State} (h : WireGood s) (r : Byte) : WireGood (s.complete r) :=
  ⟨h.clk, h.dio, h.rx, h.trusted, h.pins.1, h.pins.2, h.pins.3, h.pins.4⟩

/-- A list of transactions on a good wire has the effect of R44, one after another, and leaves a good wire. -/
theorem WireGood.play_txnFrames {s : State} (h : WireGood s) {Bs : List (List Byte)} (hB : ∀ B ∈ Bs, B ≠ []) :
    WireGood (s.play (Bs.flatMap (txnFrame s.cfg)))
      ∧ (s.play (Bs.flatMap (txnFrame s.cfg))).display = Bs.foldl (fun d B => d.ghostUpdate B) s.display := by
  induction Bs generalizing s with
  | nil => exact ⟨h, rfl⟩
  | cons B Bs ih =>
    have hw := State.play_txnFrame h.clk h.dio h.rx h.pins (hB B (List.mem_cons_self ..))
    have hd : (s.play (txnFrame s.cfg B)).display = s.display.ghostUpdate B := by
      rw [hw.display, State.setDisplay_display, h.trusted]
      rfl
    have hrest := ih ((h.setDisplay _).of_sameWire hw) fun B' hB' => hB B' (List.mem_cons_of_mem _ hB')
    rwa [State.play_cfg, ← State.play_append, hd] at hrest

/-- A legal operation other than the transport layer's bare sequences is exactly the transactions it is made of (R67, R78,
R85). -/
theorem expand_eq_transactions {c : Config} {i : Instr} (hl : i.legal c = true) (hdelay : i ≠ .delay)
    (hstart : i ≠ .start) (hstop : i ≠ .stop) (hbyte : ∀ b, i ≠ .writeByte b) :
    expand c i = (transactions c i).flatMap (txnFrame c) := by
  have write : ∀ bs, c.transportOpsEnable = true → enabledEvents c (txnFrame c bs) = [bs].flatMap (txnFrame c) := by
    intro bs he
    rw [enabledEvents, if_pos he, List.flatMap_singleton]
  have pair : ∀ B B', txnFrame c B ++ txnFrame c B' = [B, B'].flatMap (txnFrame c) := by
    intro B B'
    rw [List.flatMap_cons, List.flatMap_singleton]
  cases i with
  | delay => exact absurd rfl hdelay
  | start => exact absurd rfl hstart
  | stop => exact absurd rfl hstop
  | writeByte b => exact absurd rfl (hbyte b)
  | write1 _ => exact write _ hl
  | write2 _ _ => exact write _ hl
  | write3 _ _ _ => exact write _ hl
  | write4 _ _ _ _ => exact write _ hl
  | write5 _ _ _ _ _ => exact write _ hl
  | setBrightness _ => exact (List.flatMap_singleton ..).symm
  | showSegment segment pos =>
    simp only [expand, transactions, segmentEvents, posOutOfRange, decide_eq_true_eq]
    split
    · rfl
    · exact pair _ _
  | showDigits _ _ _ _ => exact pair _ _
  | showNumber _ => exact pair _ _
  | encBrightness _ => rfl
  | getSegments _ => rfl
  | datacmdAuto => rfl
  | datacmdFixed => rfl
  | addrcmd _ => rfl
  | dispctrlOff => rfl
  | dispctrlOn _ => rfl
  | segpat _ => rfl

/-- No operation sends an empty transaction (R77). -/
theorem transactions_ne_nil (c : Config) (i : Instr) : ∀ B ∈ transactions c i, B ≠ [] := by
  cases i with
  | showSegment segment pos =>
    simp only [transactions]
    split <;> simp
  | _ => simp [transactions]

/-- DELAY asks nothing of the pins (R73). -/
theorem pinsOf_expand_delay (c : Config) : pinsOf (expand c .delay) = [] := by
  rw [expand, enabledEvents]
  split <;> rfl

/-- Settles O45: DELAY has no pin event; every other such operation is its transactions, delivered one after another. -/
theorem operationsDeliver : Obligations.OperationsDeliver := by
  intro i s hi hl ⟨hstart, hstop, hbyte⟩ hf hg
  refine ⟨_, exec_fair hi hf, ?_⟩
  by_cases hd : i = .delay
  · subst hd
    have hw := State.play_wire (expand s.cfg .delay) s
    rw [pinsOf_expand_delay] at hw
    exact ⟨(hg.of_sameWire hw).complete _, hw.display⟩
  · obtain ⟨hgood, hdisplay⟩ := hg.play_txnFrames (transactions_ne_nil s.cfg i)
    rw [← expand_eq_transactions hl hd hstart hstop hbyte] at hgood hdisplay
    exact ⟨hgood.complete _, hdisplay⟩

end Sys2Proof.Machine
end

section
/-! PROOF. The display's memory keeps its canonical form (R30, R36). -/
namespace Sys2Proof.Machine

/-- UNKNOWN in place of a display keeps the canonical form. -/
theorem Display.wf_ite_forget {d e : Display} (h : Memory.wf d.cells) (p : Prop) [Decidable p] :
    Memory.wf (if p then e.forget else d).cells := by
  split
  · exact e.wf_forget
  · exact h

theorem MemoryInv.setDisplay {s : State} {d : Display} (h : Memory.wf d.cells) : MemoryInv (s.setDisplay d) :=
  Display.wf_ite_forget h _

theorem MemoryInv.checkBracket {s : State} (h : MemoryInv s) (ps : List Pin) (p : Pin) :
    MemoryInv (s.checkBracket ps p) :=
  Display.wf_ite_forget h _

/-- The receiver writes the memory only by the transaction it hands to the display, or makes it UNKNOWN. -/
theorem MemoryInv.receive {s : State} (h : MemoryInv s) (p : Pin) (e : Edge) : MemoryInv (s.receive p e) := by
  unfold State.receive
  split
  · split
    · exact h
    · exact .setDisplay s.display.wf_forget
    · exact .setDisplay s.display.wf_forget
    · exact h
  · rename_i ps _
    have hb := h.checkBracket ps p
    split
    · exact .setDisplay (Display.wf_takeTxn _ hb)
    · exact hb
    · exact hb
    · exact hb

theorem MemoryInv.drive {s : State} (h : MemoryInv s) (p : Pin) : MemoryInv (s.drive p) := by
  unfold State.drive
  split
  · exact Display.wf_forget _
  · exact MemoryInv.receive (s := s.setPins (p.clkAfter s.clk) (p.dioAfter s.dio)) h p _

theorem MemoryInv.issue {s : State} (h : MemoryInv s) (e : Event) : MemoryInv (s.issue e) := by
  cases e with
  | pin p => exact h.drive p
  | ts d => exact h
  | tw => exact h

/-- A wire byte whose effect keeps the canonical form keeps it at the end of the transaction too. -/
theorem MemoryInv.takeWire {s : State} {f : Display → Display} (h : Memory.wf (f s.display).cells) :
    MemoryInv (s.takeWire f) := by
  refine .setDisplay ?_
  split
  · exact Display.wf_endTxn h
  · exact h

/-- Settles O51: the display is written by pin events and wire bytes only, and each keeps the canonical form; reset and a
stopped timer make it UNKNOWN. -/
theorem stepKeepsMemory : Obligations.StepKeepsMemory := by
  intro s t h0 h
  refine step_induct h h0 ?reset ?wire ?accept ?issue ?expire ?stall ?complete ?idle
  case reset => exact fun u _ => u.display.wf_forget
  case wire =>
    intro u bs f hu hf
    refine MemoryInv.takeWire ?_
    rcases hf with rfl | ⟨i, -, rfl⟩
    · exact Memory.wf_nil
    · exact wireEffect_wf i hu
  case accept => exact fun u w ws hu => hu
  case issue => exact fun u e hu => hu.issue e
  case expire => exact fun u f hu => hu
  case stall => exact fun u _ => u.display.wf_forget
  case complete => exact fun u r hu => hu
  case idle => exact fun u hu => hu

end Sys2Proof.Machine
end

section
/-! PROOF. What the block transmits: a function of the operation and the parameters (R35), and of the words in acceptance
order (R38). -/
namespace Sys2Proof.Machine

/-- Settles O49: a fair run appends exactly the operation's expansion, which names the operands and the parameters only,
and leaves parameters and timer for the next run. -/
theorem sameOperationSameEvents : Obligations.SameOperationSameEvents := by
  intro i s s' hi hc hf hf'
  have again : TimerFair ((s.play (expand s.cfg i)).complete (response s.cfg i)) := State.play_tmrFuture _ hf
  refine ⟨expand s.cfg i, _, _, _, exec_fair hi hf, exec_fair hi hf', exec_fair hi again, ?_, ?_, ?_⟩
  · rw [State.complete_trace, State.play_trace]
  · rw [State.complete_trace, State.play_trace, hc]
  · simp only [State.complete_trace, State.play_trace, State.complete_cfg, State.play_cfg]

/-- The turn of an idle block with a word presented is the word's (R79). -/
theorem State.turn_of_word {s : State} {w : HostWord} {ws : List HostWord} (hr : s.rst = false) (hw : s.wireIn = [])
    (hb : s.busy = false) (hh : s.host = w :: ws) : s.turn = State.hostTurn w { s with host := ws } := by
  simp [State.turn, hr, hw, hb, hh]

/-- A step of an idle block with a word presented is the run of the word's expansion, an illegal word's too (R64). -/
theorem step_of_word {s : State} {w : HostWord} {ws : List HostWord} (hr : s.rst = false) (hw : s.wireIn = [])
    (hb : s.busy = false) (hh : s.host = w :: ws) :
    step s = .next ((State.accept w { s with host := ws }).runOp (expandWord s.cfg w) (responseWord s.cfg w)) := by
  rw [step, State.turn_of_word hr hw hb hh, State.hostTurn]
  cases hd : decode (.host w) with
  | error r => simp [expandWord, responseWord, hd, State.runOp]
  | ok i => simp [expandWord, responseWord, hd, exec_host (isHost_of_decode hd)]

/-- Such a step under a fair timer has run the word's expansion and answered its response (R80, R81). -/
theorem step_of_word_fair {s : State} {w : HostWord} {ws : List HostWord} (hf : TimerFair s) (hr : s.rst = false)
    (hw : s.wireIn = []) (hb : s.busy = false) (hh : s.host = w :: ws) :
    ∃ t, step s = .next t
      ∧ Ran (expandWord s.cfg w) (responseWord s.cfg w) (State.accept w { s with host := ws }) t := by
  have hp := pacedBy_expandWord s.cfg w
  have hfair : TimerFair (State.accept w { s with host := ws }) := hf
  exact ⟨_, (step_of_word hr hw hb hh).trans (congrArg _ (State.runOp_fair _ hp hfair)), State.ran_play _ hp hfair⟩

/-- A run of any core goes on from the next state its first step answers. -/
theorem core_run_succ {M : Host.Core} {s t : M.State} (h : M.step s = .next t) (n : Nat) :
    M.run (n + 1) s = M.run n t := by
  rw [Host.Core.run, h]

/-- Settles O11, by induction on the words: a step under a fair timer runs one word's expansion and leaves the block idle
with the words that follow. -/
theorem programTrace : Obligations.ProgramTrace := by
  intro ws
  induction ws with
  | nil =>
    intro s _ _ _ hb hh
    exact ⟨s, rfl, hb, hh, (List.append_nil _).symm⟩
  | cons w ws ih =>
    intro s hf hr hw hb hh
    obtain ⟨u, hstep, hran⟩ := step_of_word_fair hf hr hw hb hh
    have hframe := hran.frame
    obtain ⟨t, hrun, hbusy, hhost, htrace⟩ :=
      ih u (hframe.tmrFuture.trans hf) (hframe.rst.trans hr) (hframe.wireIn.trans hw) hran.busy hframe.host
    refine ⟨t, (core_run_succ (M := Sys2Proof.core) hstep ws.length).trans hrun, hbusy, hhost, ?_⟩
    have hcfg : u.cfg = s.cfg := hframe.cfg
    have hu : u.trace = s.trace ++ expandWord s.cfg w := hran.trace
    rw [htrace, hu, hcfg, List.flatMap_cons, List.append_assoc]

end Sys2Proof.Machine
end

section
/-! PROOF. WRITE_BYTE on the wire (R54, R76). -/
namespace Sys2Proof.Machine

/-- The bit of cell `i`, as R76 words it for the two orders. -/
theorem cellBit_eq_ite (o : BitOrder) (b : Byte) (i : Nat) :
    cellBit o b i = if o = .lsbFirst then b.getLsbD i else b.getLsbD (7 - i) := by
  cases o <;> rfl

/-- A bit cell's events, the request and the quantum of each half slot written out (R52). -/
theorem bitCell_eq (c : Config) (v : Bool) :
    bitCell c v = [Event.pin .c0] ++ [Event.ts c.qUs, .tw] ++ [Event.pin (if v then .d1 else .d0)]
      ++ [Event.ts c.qUs, .tw] ++ [Event.pin .c1] ++ [Event.ts c.qUs, .tw] := rfl

/-- The acknowledgement slot's events (R53). -/
theorem ackSlot_eq (c : Config) :
    ackSlot c = [Event.pin .c0] ++ [Event.ts c.qUs, .tw] ++ [Event.pin .c1] ++ [Event.ts c.qUs, .tw]
      ++ [Event.ts c.qUs, .tw] ++ [Event.pin .c0] ++ [Event.ts c.qUs, .tw] := rfl

/-- A byte frame keeps the bracket exactly where its first request does. -/
theorem byteFrame_keepsBracket_eq (c : Config) (b : Byte) (p : Pin) (ps : List Pin) :
    keepsBracket (p :: ps) (pinsOf (byteFrame c b)) = !breaksBracket (p :: ps) .c0 := by
  cases h : breaksBracket (p :: ps) .c0 with
  | false => exact byteFrame_keepsBracket c b h
  | true =>
    rw [pinsOf_byteFrame]
    simp [bitsOf, cellPins, keepsBracket, h]

/-- A byte frame inside a transaction: the receiver collects it, and the display is lost only where its first request
breaks the bracket (R142). -/
theorem State.driveAll_byteFrame {s : State} {p : Pin} {ps : List Pin} (b : Byte) (hs : PinsSound s)
    (hr : s.rx = some (p :: ps)) :
    let t := s.driveAll (pinsOf (byteFrame s.cfg b))
    t.wireLost = s.wireLost ∧ t.rx ≠ none
      ∧ t.display = if breaksBracket (p :: ps) .c0 then s.display.forget else s.display := by
  simp only [State.driveAll_open hr hs (byteFrame_stopFree s.cfg b s.clk s.dio), byteFrame_keepsBracket_eq]
  cases breaksBracket (p :: ps) .c0 <;> simp

/-- Settles O25: the events are the byte frame's, and the wire side is that of its pin requests, inside and outside a
transaction. -/
theorem writeByteRuns : Obligations.WriteByteRuns := by
  intro b s hf he W bit cell
  have hcell : ∀ i, cell i = bitCell s.cfg (cellBit s.cfg.bitOrder b i) := by
    intro i
    rw [bitCell_eq, cellBit_eq_ite]
  have hframe : cell 0 ++ cell 1 ++ cell 2 ++ cell 3 ++ cell 4 ++ cell 5 ++ cell 6 ++ cell 7
      ++ [Event.pin .c0] ++ W ++ [Event.pin .c1] ++ W ++ W ++ [Event.pin .c0] ++ W = byteFrame s.cfg b := by
    simp only [hcell, byteFrame, ackSlot_eq, List.flatMap_cons, List.flatMap_nil, List.append_assoc, List.nil_append, W]
  have hbit : bit 7 = cellBit s.cfg.bitOrder b 7 := (cellBit_eq_ite ..).symm
  rw [hframe, hbit]
  have hexec := exec_fair (i := .writeByte b) rfl hf
  have hes : expand s.cfg (.writeByte b) = byteFrame s.cfg b := by rw [expand, enabledEvents, if_pos he]
  rw [hes] at hexec
  have hw := State.play_wire (byteFrame s.cfg b) s
  have hlevels := State.play_levels (byteFrame s.cfg b) s
  rw [levelsFrom_pins, byteFrame_levels, Prod.mk.injEq] at hlevels
  refine ⟨_, hexec, State.ran_play _ (pacedBy_byteFrame s.cfg b) hf, hlevels.1, hlevels.2, ?_, ?_⟩
  · intro p ps hs hr
    obtain ⟨hlost, hrx, hdisplay⟩ := State.driveAll_byteFrame b hs hr
    exact ⟨hw.wireLost.trans hlost, fun h => hrx (hw.rx.symm.trans h), hw.display.trans hdisplay⟩
  · intro hr
    obtain ⟨hrx, hdisplay⟩ := State.driveAll_outside hr (byteFrame_startFree s.cfg b s.clk s.dio)
    have hunknown := hdisplay (.inr (byteFrame_hasPulse s.cfg b s.clk s.dio))
    rw [← hw.display] at hunknown
    exact ⟨hw.rx.trans hrx, hunknown⟩

end Sys2Proof.Machine
end

section
/-! PROOF. A step takes the next word or byte and runs its meaning; what a wire byte does to the display (R44, R57 to
R60). -/
namespace Sys2Proof.Machine

theorem Display.codeOf_eq_ite (d : Display) (b : Byte) :
    d.codeOf b = if d.phase = .command then .wireCommand b else .wirePayload b := by
  unfold Display.codeOf
  cases d.phase <;> rfl

/-- A wire byte changes nothing but the display. -/
theorem State.takeWire_eq (f : Display → Display) (s : State) :
    s.takeWire f = { s with display := (s.takeWire f).display } := rfl

/-- On a wire that can be trusted the display takes the byte's effect, and the transaction's end after the last byte. -/
theorem State.takeWire_trusted {s : State} (hl : s.wireLost = false) (f : Display → Display) :
    s.takeWire f = { s with display := if s.wireIn = [] then (f s.display).endTxn else f s.display } := by
  simp [State.takeWire, State.setDisplay, hl]

theorem AllUnknown.lose (d : Display) : AllUnknown d.lose := ⟨fun _ => rfl, rfl, rfl, rfl⟩

/-- The end of a transaction makes nothing known. -/
theorem AllUnknown.endTxn {d : Display} (h : AllUnknown d) : AllUnknown d.endTxn := by
  have keep : AllUnknown { d with phase := .command } := ⟨h.cells, h.don, h.dbr, h.amode⟩
  have drop : AllUnknown { d.forget with phase := .command } := ⟨fun _ => rfl, rfl, rfl, rfl⟩
  unfold Display.endTxn
  split
  · exact keep
  · exact keep
  · exact drop
  · exact drop
  · exact drop

/-- A byte that leaves nothing known leaves nothing known at the transaction's end and on a lost wire either. -/
theorem State.takeWire_unknown {s : State} {f : Display → Display} (h : AllUnknown (f s.display)) :
    AllUnknown (s.takeWire f).display := by
  unfold State.takeWire
  rw [State.setDisplay_display]
  split
  · exact .forget _
  · split
    · exact h.endTxn
    · exact h

/-- Settles O4: the turn of a state without reset is its next byte, and without a byte its next word. -/
theorem stepRunsDecoded : Obligations.StepRunsDecoded := by
  intro s hr
  have wire : ∀ b bs, s.wireIn = b :: bs → s.turn = State.wireTurn b { s with wireIn := bs } := by
    intro b bs hw
    simp [State.turn, hr, hw]
  refine ⟨?_, ?_, ?_⟩
  · intro i w ws hw hb hh hd
    rw [step, State.turn_of_word hr hw hb hh, State.hostTurn]
    simp only [hd]
    rfl
  · intro i b bs hw hd
    rw [← Display.codeOf_eq_ite] at hd
    rw [step, wire b bs hw, State.wireTurn]
    simp only [hd]
  · intro r b bs hw hd
    rw [← Display.codeOf_eq_ite] at hd
    rw [step, wire b bs hw, State.wireTurn]
    simp only [hd]
    exact ⟨_, rfl, rfl, State.takeWire_unknown (.lose _)⟩

/-! ## Commands -/

/-- A command that stands alone in its transaction: its effect, and the place after it. -/
theorem exec_closed {i : Instr} {s : State} (hi : i.isHost = false) (hl : s.wireLost = false)
    (hc : (wireEffect i s.display).phase = .closed) :
    exec i s = .next { s with
      display := { wireEffect i s.display with phase := if s.wireIn = [] then Phase.command else .closed } } := by
  rw [exec_wire hi, State.takeWire_trusted hl]
  split
  · simp [Display.endTxn, hc]
  · simp [← hc]

/-- Settles O39: each of the four is such a command. -/
theorem wireCommandsAct : Obligations.WireCommandsAct :=
  fun _ hl => ⟨exec_closed rfl hl rfl, exec_closed rfl hl rfl, exec_closed rfl hl rfl, fun _ => exec_closed rfl hl rfl⟩

theorem Display.address_known {d : Display} (h : d.amode ≠ none) (a : BitVec 2) :
    d.address a = { d with phase := .data a.toNat 0 } := by
  obtain ⟨m, hm⟩ := Option.ne_none_iff_exists'.mp h
  simp [Display.address, hm]

theorem Display.address_unknown {d : Display} (h : d.amode = none) (a : BitVec 2) : d.address a = d.lose := by
  simp [Display.address, h]

/-- Settles O40: with a mode the address selects its position, which a transaction that ends there makes UNKNOWN again;
without one nothing stays known. -/
theorem wireAddressSelects : Obligations.WireAddressSelects := by
  intro a s hl
  constructor
  · intro hw hm
    rw [exec_wire rfl, State.takeWire_trusted hl, if_neg hw, wireEffect, Display.address_known hm]
  · intro h
    refine ⟨_, (exec_wire rfl s).trans (congrArg _ (State.takeWire_eq _ s)), ?_⟩
    by_cases hm : s.display.amode = none
    · exact State.takeWire_unknown (by rw [wireEffect, Display.address_unknown hm]; exact .lose _)
    · rw [State.takeWire_trusted hl, if_pos (h.resolve_right hm), wireEffect, Display.address_known hm]
      exact ⟨fun _ => rfl, rfl, rfl, rfl⟩

/-! ## Payload -/

/-- Where a pattern may go it is stored (R60). -/
theorem Display.payload_store {d : Display} {next count : Nat} (hp : d.phase = .data next count) (hn : next ≤ 3)
    (hm : d.amode = some .auto ∨ (d.amode = some .fixed ∧ count = 0)) (v : Byte) :
    d.payload v = d.store v next count := by
  have hlt : next < Config.nDigits := Nat.lt_succ_of_le hn
  rcases hm with hm | ⟨hm, hc⟩
  · simp [Display.payload, hp, hm, hlt]
  · simp [Display.payload, hp, hm, hc, hlt]

/-- Anywhere else it leaves nothing known. -/
theorem Display.payload_lose {d : Display}
    (h : ∀ next count, d.phase = .data next count →
      3 < next ∨ d.amode = none ∨ (d.amode = some .fixed ∧ 0 < count)) (v : Byte) :
    d.payload v = d.lose := by
  unfold Display.payload
  cases hp : d.phase with
  | data next count =>
    rcases h next count hp with hn | hm | ⟨hm, hc⟩
    · have hge : ¬next < Config.nDigits := by simp only [Config.nDigits]; omega
      cases d.amode with
      | none => rfl
      | some m => cases m <;> simp [hge]
    · simp [hm]
    · simp [hm, Nat.ne_of_gt hc]
  | command => rfl
  | closed => rfl
  | lost => rfl

/-- Settles O41: a pattern at a described place is stored and the display goes on to the next position, or to the next
transaction; at any other place it leaves nothing known. -/
theorem wirePatternStores : Obligations.WirePatternStores := by
  intro v s hl
  constructor
  · intro next count hp hn hm
    have heffect : wireEffect (.segpat v) s.display = s.display.store v next count := Display.payload_store hp hn hm v
    have htake : s.takeWire (wireEffect (.segpat v)) =
        { s with
          display := { s.display.store v next count with
            phase := if s.wireIn = [] then .command else .data (next + 1) (count + 1) } } := by
      rw [State.takeWire_trusted hl, heffect]
      split <;> rfl
    refine ⟨_, (exec_wire rfl s).trans (congrArg _ htake), rfl, ?_, ?_, rfl, rfl, rfl, rfl⟩
    · exact Memory.read_write_same ..
    · exact fun a ha => Memory.read_write_of_ne ha
  · intro h
    refine ⟨_, exec_wire rfl s, State.takeWire_eq _ s, State.takeWire_unknown ?_⟩
    rw [wireEffect, Display.payload_lose h]
    exact .lose _

end Sys2Proof.Machine
end

section
/-! PROOF. The transactions of the command and presentation layers (R36, R57 to R59, R64). -/
namespace Sys2Proof.Machine

/-- A transaction R44 describes, by its bytes alone: a data or display-control command that stands alone, or an address
command whose payload does not run past position 3. -/
def Described (B : List Byte) : Prop :=
  ∃ b payload, B = b :: payload
    ∧ (((b = 0x40 ∨ b = 0x44 ∨ b = 0x80 ∨ (0x88 ≤ b.toNat ∧ b.toNat ≤ 0x8F)) ∧ payload = [])
      ∨ (0xC0 ≤ b.toNat ∧ 1 ≤ payload.length ∧ b.toNat - 0xC0 + payload.length ≤ 4))

/-- The encoded control byte is one of R59's (R90). -/
theorem ctrl_displayControl (level : Nat) :
    ctrl level = 0x80 ∨ (0x88 ≤ (ctrl level).toNat ∧ (ctrl level).toNat ≤ 0x8F) := by
  have encoded : ∀ k < 8, 0x88 ≤ ((0x88 : Byte) ||| BitVec.ofNat 8 k).toNat
      ∧ ((0x88 : Byte) ||| BitVec.ofNat 8 k).toNat ≤ 0x8F := by decide
  unfold ctrl
  split
  · exact .inl rfl
  · refine .inr (encoded _ ?_)
    unfold clamp
    split
    · omega
    · split <;> omega

/-- The address byte of a position that exists (R94). -/
theorem addressOfPos_toNat {pos : Byte} (h : pos.toNat ≤ 3) : (0xC0 + pos).toNat = 0xC0 + pos.toNat := by
  rw [BitVec.toNat_add]
  exact Nat.mod_eq_of_lt (by simp; omega)

/-- Every transaction of a command- or presentation-layer operation is described. -/
theorem transactions_described (c : Config) {i : Instr} (ht : i.isTransport = false) :
    ∀ B ∈ transactions c i, Described B := by
  have digits : ∀ s0 s1 s2 s3 : Byte, ∀ B ∈ [[0x40], [0xC0, s0, s1, s2, s3]], Described B := by
    intro s0 s1 s2 s3
    simp only [List.forall_mem_cons]
    refine ⟨⟨_, _, rfl, .inl ⟨.inl rfl, rfl⟩⟩, ⟨_, _, rfl, .inr ⟨by decide, by simp, by simp⟩⟩, ?_⟩
    simp
  cases i with
  | setBrightness level =>
    simp only [transactions, List.forall_mem_singleton]
    exact ⟨_, _, rfl, .inl ⟨.inr (.inr (ctrl_displayControl level.toNat)), rfl⟩⟩
  | showSegment segment pos =>
    simp only [transactions]
    split
    · simp
    · have hpos := addressOfPos_toNat (pos := pos) (by omega)
      simp only [List.forall_mem_cons]
      refine ⟨⟨_, _, rfl, .inl ⟨.inr (.inl rfl), rfl⟩⟩, ⟨_, _, rfl, .inr ⟨by omega, by simp, ?_⟩⟩, ?_⟩
      · rw [hpos, List.length_singleton]
        omega
      · simp
  | showDigits s0 s1 s2 s3 => exact digits s0 s1 s2 s3
  | showNumber n => exact digits _ _ _ _
  | delay | start | stop | writeByte _ | write1 _ | write2 _ _ | write3 _ _ _ | write4 _ _ _ _ | write5 _ _ _ _ _ =>
    exact Bool.noConfusion ht
  | encBrightness _ | getSegments _ | datacmdAuto | datacmdFixed | addrcmd _ | dispctrlOff | dispctrlOn _ | segpat _ =>
    simp [transactions]

/-- An operation of those layers sends its transactions and nothing else (R85). -/
theorem expand_eq_transactions_of_layer (c : Config) {i : Instr} (ht : i.isTransport = false) :
    expand c i = (transactions c i).flatMap (txnFrame c) :=
  expand_eq_transactions (by simp [Instr.legal, ht]) (by rintro rfl; cases ht) (by rintro rfl; cases ht)
    (by rintro rfl; cases ht) (by rintro b rfl; cases ht)

/-- Brightness level `f + 1` has the control byte with field `f` (R90). -/
theorem ctrl_succ (f : BitVec 3) : (ctrl (f.setWidth 8 + 1 : Byte).toNat).toNat = 0x88 + f.toNat := by
  revert f
  decide

/-- Settles O33: the operations are their transactions; and every known command byte is the mode command or the address of
a store, or the control byte of a brightness level. -/
theorem commandBytesOnWire : Obligations.CommandBytesOnWire := by
  intro c
  constructor
  · exact fun i _ ht => ⟨transactions c i, expand_eq_transactions_of_layer c ht, transactions_described c ht⟩
  · intro b j hd
    have hb := commandByte b
    rw [hd] at hb
    cases hb with
    | auto => exact ⟨.showDigits 0 0 0 0, [], [], txnFrame c [0xC0, 0, 0, 0, 0], rfl, rfl, rfl⟩
    | fixed => exact ⟨.showSegment 0 0, [], [], txnFrame c [0xC0, 0], rfl, rfl, rfl⟩
    | off => exact ⟨.setBrightness 0, [], [], [], rfl, rfl, (List.append_nil _).symm⟩
    | on f h =>
      have hc : ctrl (f.setWidth 8 + 1 : Byte).toNat = b := BitVec.eq_of_toNat_eq ((ctrl_succ f).trans h.symm)
      refine ⟨.setBrightness (f.setWidth 8 + 1), [], [], [], rfl, rfl, ?_⟩
      rw [expand, hc, List.nil_append, List.append_nil]
    | address a h =>
      have hval : (a.setWidth 8 : Byte).toNat = a.toNat := BitVec.toNat_setWidth_of_le (by decide)
      have hpos : (a.setWidth 8 : Byte).toNat ≤ 3 := by
        rw [hval]
        exact Nat.le_of_lt_succ a.isLt
      have haddr : 0xC0 + a.setWidth 8 = b :=
        BitVec.eq_of_toNat_eq ((addressOfPos_toNat hpos).trans (by rw [hval, h]))
      refine ⟨.showSegment 0 (a.setWidth 8), [0], txnFrame c [0x44], [], rfl, rfl, ?_⟩
      rw [expand_eq_transactions_of_layer c rfl, transactions, if_neg (Nat.not_lt.mpr hpos), haddr, List.flatMap_cons,
        List.flatMap_singleton, List.append_nil]

end Sys2Proof.Machine
end

section
/-! PROOF. Transmitting while the clock is low: no start condition, and nothing known (R45, R141; 95, P5). -/
namespace Sys2Proof.Machine

/-! ## Start conditions of whole transactions -/

theorem starts_append (clk dio : Bool) (ps qs : List Pin) :
    starts clk dio (ps ++ qs)
      = starts clk dio ps + starts (pinLevels clk dio ps).1 (pinLevels clk dio ps).2 qs := by
  induction ps generalizing clk dio with
  | nil => simp [starts, pinLevels]
  | cons p ps ih => simp only [List.cons_append, starts, pinLevels, ih, Nat.add_assoc]

theorem starts_of_startFree {clk dio : Bool} {ps : List Pin} (h : startFree clk dio ps = true) :
    starts clk dio ps = 0 := by
  induction ps generalizing clk dio with
  | nil => rfl
  | cons p ps ih =>
    simp only [startFree, Bool.and_eq_true, bne_iff_ne, ne_eq] at h
    obtain ⟨hp, hps⟩ := h
    rw [starts, ih hps]
    cases hE : p.edge clk dio with
    | start => exact absurd hE hp
    | stop => rfl
    | sample => rfl
    | other => rfl

theorem byteFrames_startFree (c : Config) (bs : List Byte) (clk dio : Bool) :
    startFree clk dio (bs.flatMap fun b => pinsOf (byteFrame c b)) = true := by
  induction bs generalizing clk dio with
  | nil => rfl
  | cons b bs ih => rw [List.flatMap_cons, startFree_append, byteFrame_startFree, ih]; rfl

/-- Byte frames and STOP's requests, begun under a low clock, put no start condition on the wire, and STOP pulses the
clock. -/
theorem framesStop_low (c : Config) (bs : List Byte) (dio : Bool) :
    startFree false dio ((bs.flatMap fun b => pinsOf (byteFrame c b)) ++ [.d0, .c1, .d1]) = true
      ∧ hasPulse false dio ((bs.flatMap fun b => pinsOf (byteFrame c b)) ++ [.d0, .c1, .d1]) = true := by
  have hclk : (pinLevels false dio (bs.flatMap fun b => pinsOf (byteFrame c b))).1 = false :=
    (byteFrames_levels c bs false dio).trans (ite_self _)
  rw [startFree_append, byteFrames_startFree, hasPulse_append, hclk]
  generalize (pinLevels false dio (bs.flatMap fun b => pinsOf (byteFrame c b))).2 = v
  cases v
  · exact ⟨rfl, Bool.or_true _⟩
  · exact ⟨rfl, Bool.or_true _⟩

/-- A whole transaction begun under a low clock: START's request is no start condition there (R74). -/
theorem txnFrame_low (c : Config) (bs : List Byte) (dio : Bool) :
    startFree false dio (pinsOf (txnFrame c bs)) = true ∧ hasPulse false dio (pinsOf (txnFrame c bs)) = true := by
  rw [pinsOf_txnFrame]
  exact framesStop_low c bs false

theorem txnFrame_pinLevels (c : Config) (bs : List Byte) (clk dio : Bool) :
    pinLevels clk dio (pinsOf (txnFrame c bs)) = (true, true) := by
  rw [← levelsFrom_pins, txnFrame_levels]

/-- From the idle-high wire a transaction has one start condition. -/
theorem starts_txnFrame (c : Config) {bs : List Byte} (h : bs ≠ []) :
    starts true true (pinsOf (txnFrame c bs)) = 1 := by
  obtain ⟨v, hv⟩ := byteFrames_levels_of_ne_nil c h true false
  have hrest : startFree true false ((bs.flatMap fun b => pinsOf (byteFrame c b)) ++ [.d0, .c1, .d1]) = true := by
    rw [startFree_append, byteFrames_startFree, hv]
    cases v <;> rfl
  rw [pinsOf_txnFrame]
  exact congrArg (1 + ·) (starts_of_startFree hrest)

theorem starts_txnFrames (c : Config) {Bs : List (List Byte)} (h : ∀ B ∈ Bs, B ≠ []) :
    starts true true (pinsOf (Bs.flatMap (txnFrame c))) = Bs.length := by
  induction Bs with
  | nil => rfl
  | cons B Bs ih =>
    rw [List.flatMap_cons, pinsOf_append, starts_append, txnFrame_pinLevels,
      starts_txnFrame c (h B (List.mem_cons_self ..)), ih fun B' hB' => h B' (List.mem_cons_of_mem _ hB'),
      List.length_cons, Nat.add_comm]

/-! ## What such transactions leave, whatever the pins do -/

/-- A stop condition leaves no transaction open, whether the wire can be trusted or not. -/
theorem State.drive_stop_rx {s : State} {p : Pin} (h : p.edge s.clk s.dio = .stop) : (s.drive p).rx = none := by
  unfold State.drive State.receive
  simp only [State.setPins_rx, h]
  cases hr : s.rx <;> split <;> simp [State.loseWire, hr]

theorem State.driveAll_levels (ps : List Pin) (s : State) :
    ((s.driveAll ps).clk, (s.driveAll ps).dio) = pinLevels s.clk s.dio ps := by
  induction ps generalizing s with
  | nil => rfl
  | cons p ps ih => rw [State.driveAll_cons, ih, State.drive_clk, State.drive_dio, pinLevels]

/-- A transaction's last request is a stop condition (R55). -/
theorem State.driveAll_txnFrame_rx (c : Config) (bs : List Byte) (s : State) :
    (s.driveAll (pinsOf (txnFrame c bs))).rx = none := by
  have hl := State.driveAll_levels (.d0 :: ((bs.flatMap fun b => pinsOf (byteFrame c b)) ++ [.d0, .c1])) s
  rw [pinLevels, pinLevels_append] at hl
  obtain ⟨hclk, hdio⟩ := Prod.mk.inj hl
  rw [pinsOf_txnFrame_bracket, ← List.cons_append, State.driveAll_append]
  exact State.drive_stop_rx (by rw [hclk, hdio]; rfl)

/-- The wire idle-high with no transaction open, and nothing known of the display. -/
structure State.Blank (s : State) : Prop where
  clk : s.clk = true
  dio : s.dio = true
  rx : s.rx = none
  unknown : AllUnknown s.display

/-- After a transaction, of all this only the display is left to ask. -/
theorem State.blank_play_txnFrame {s : State} {bs : List Byte} (h : AllUnknown (s.play (txnFrame s.cfg bs)).display) :
    (s.play (txnFrame s.cfg bs)).Blank where
  clk := by rw [State.play_clk, txnFrame_levels]
  dio := by rw [State.play_dio, txnFrame_levels]
  rx := (State.play_wire _ s).rx.trans (State.driveAll_txnFrame_rx _ _ s)
  unknown := h

/-- A transaction begun under a low clock, outside a transaction, leaves nothing known: STOP's clock pulse is seen outside
a transaction (R142). -/
theorem State.blank_of_low {s : State} (hc : s.clk = false) (hr : s.rx = none) (bs : List Byte) :
    (s.play (txnFrame s.cfg bs)).Blank := by
  obtain ⟨hfree, hpulse⟩ := txnFrame_low s.cfg bs s.dio
  rw [← hc] at hfree hpulse
  obtain ⟨-, hunknown⟩ := State.driveAll_outside hr hfree
  refine State.blank_play_txnFrame ?_
  rw [(State.play_wire _ s).display]
  exact hunknown (.inr hpulse)

/-- Either the pins are sound, or requests of one of them fail. -/
theorem State.pinsSound_or_fails (s : State) :
    PinsSound s ∨ s.requestFails .c1 = true ∨ s.requestFails .d0 = true := by
  simp only [State.requestFails, Bool.or_eq_true]
  by_cases hc : s.clkFault = true ∨ s.clkBroken = true
  · exact .inr (.inl hc)
  by_cases hd : s.dioFault = true ∨ s.dioBroken = true
  · exact .inr (.inr hd)
  simp only [not_or, Bool.not_eq_true] at hc hd
  exact .inl ⟨hc.1, hd.1, hc.2, hd.2⟩

/-- A transaction asks both pins something. -/
theorem mem_txnFrame (c : Config) (bs : List Byte) :
    .pin .c1 ∈ txnFrame c bs ∧ .pin .d0 ∈ txnFrame c bs := by
  simp [txnFrame, startSeq, stopSeq, paced]

/-- With the mode UNKNOWN an address transaction makes nothing known (R44). -/
theorem Display.ghostUpdate_unknown {d : Display} {b : Byte} (hm : d.amode = none) (hb : 0xC0 ≤ b.toNat)
    (vs : List Byte) : d.ghostUpdate (b :: vs) = { d.forget with phase := .command } := by
  have h40 : b ≠ 0x40 := by bv_omega
  have h44 : b ≠ 0x44 := by bv_omega
  have h80 : b ≠ 0x80 := by bv_omega
  have hon : ¬b.toNat ≤ 0x8F := by omega
  simp only [Display.ghostUpdate, h40, h44, h80, hon, hm, reduceCtorEq, false_and, and_false, if_false]

/-- An address transaction from a blank state leaves a blank state, with sound pins and with failing ones. -/
theorem State.Blank.play_address {s : State} (h : s.Blank) {b : Byte} (hb : 0xC0 ≤ b.toNat) (vs : List Byte) :
    (s.play (txnFrame s.cfg (b :: vs))).Blank := by
  obtain ⟨hclk, hdio, hrx, hunknown⟩ := h
  obtain ⟨hmem_clk, hmem_dio⟩ := mem_txnFrame s.cfg (b :: vs)
  refine State.blank_play_txnFrame ?_
  rcases s.pinsSound_or_fails with hp | hf | hf
  · have hw := State.play_txnFrame hclk hdio hrx hp (List.cons_ne_nil b vs)
    rw [hw.display, Display.ghostUpdate_unknown hunknown.amode hb, State.setDisplay_display]
    split <;> exact ⟨fun _ => rfl, rfl, rfl, rfl⟩
  · exact (State.play_dark hmem_clk hf).unknown
  · exact (State.play_dark hmem_dio hf).unknown

/-- The first byte is 0xC0 or above: if it is a command, it is an address command (R58). -/
def AddressFirst (B : List Byte) : Prop := ∃ b payload, B = b :: payload ∧ 0xC0 ≤ b.toNat

theorem State.Blank.play_addresses {s : State} (h : s.Blank) {Bs : List (List Byte)} (hB : ∀ B ∈ Bs, AddressFirst B) :
    (s.play (Bs.flatMap (txnFrame s.cfg))).Blank := by
  induction Bs generalizing s with
  | nil => exact h
  | cons B Bs ih =>
    obtain ⟨b, vs, rfl, hb⟩ := hB B (List.mem_cons_self ..)
    have hrest := ih (h.play_address hb vs) fun B' hB' => hB B' (List.mem_cons_of_mem _ hB')
    rwa [State.play_cfg, ← State.play_append] at hrest

/-! ## The operations -/

/-- Every transaction of an operation after its first one is an address command with payload (R92, R93, R102). -/
theorem transactions_tail (c : Config) (i : Instr) : ∀ B ∈ (transactions c i).tail, AddressFirst B := by
  cases i with
  | showSegment segment pos =>
    simp only [transactions]
    split
    · simp
    · have hpos := addressOfPos_toNat (pos := pos) (by omega)
      simp only [List.tail_cons, List.forall_mem_singleton]
      exact ⟨_, _, rfl, by omega⟩
  | _ => simp [transactions, AddressFirst]

/-- An operation that transmits responds 0x00 (R68). -/
theorem response_of_transmits {c : Config} {i : Instr} (h : transactions c i ≠ []) : response c i = 0x00 := by
  cases i with
  | encBrightness _ => exact absurd rfl h
  | getSegments _ => exact absurd rfl h
  | _ => rfl

/-- A legal operation that transmits is exactly the transactions it is made of. -/
theorem expand_of_transmits {c : Config} {i : Instr} (hl : i.legal c = true) (h : transactions c i ≠ []) :
    expand c i = (transactions c i).flatMap (txnFrame c) :=
  expand_eq_transactions hl (by rintro rfl; exact h rfl) (by rintro rfl; exact h rfl) (by rintro rfl; exact h rfl)
    (by rintro b rfl; exact h rfl)

/-- Settles O46: the first transaction is sent under the low clock and leaves a blank state, in which the others, each an
address command without a mode, make nothing known. -/
theorem brokenFramingUnknown : Obligations.BrokenFramingUnknown := by
  intro i s hi hl ht hf hr hc
  have hran := State.ran_play (response s.cfg i) (pacedBy_expand s.cfg i) hf
  have hexec := exec_fair hi hf
  have hexpand := expand_of_transmits hl ht
  have hne := transactions_ne_nil s.cfg i
  have htail := transactions_tail s.cfg i
  rw [response_of_transmits ht] at hexec hran
  cases hB : transactions s.cfg i with
  | nil => exact absurd hB ht
  | cons B Bs =>
    rw [hB] at hexpand hne htail
    rw [List.flatMap_cons] at hexpand
    rw [List.tail_cons] at htail
    have hblank := (State.blank_of_low hc hr B).play_addresses htail
    rw [State.play_cfg, ← State.play_append, ← hexpand] at hblank
    obtain ⟨hclk, hdio, hrx, hunknown⟩ := hblank
    have hstarts : starts s.clk s.dio (pinsOf (expand s.cfg i)) = Bs.length := by
      have hfirst := starts_of_startFree (txnFrame_low s.cfg B s.dio).1
      rw [hexpand, pinsOf_append, starts_append, txnFrame_pinLevels, hc, hfirst, Nat.zero_add,
        starts_txnFrames s.cfg fun B' hB' => hne B' (List.mem_cons_of_mem _ hB')]
    exact ⟨_, hexec, hran, hclk, hdio, hrx, by rw [hstarts, List.length_cons], hunknown⟩

end Sys2Proof.Machine
end

section
/-! PROOF. The encoding of host words and wire bytes (R57 to R65), total on every operand and exact on every code. -/
namespace Sys2Proof

/-- Decoding a word written out in fields is decoding the fields (R61). -/
theorem decode_hostCode (op aux b4 b3 b2 b1 b0 : Byte) :
    decode (hostCode op aux b4 b3 b2 b1 b0) = decodeFields ⟨op, aux, b4, b3, b2, b1, b0⟩ :=
  congrArg decodeFields (splitHost_joinHost _)

theorem decode_addressByte (a : BitVec 2) : decode (.wireCommand (addressByte a)) = .ok (.addrcmd a) := by
  revert a
  decide

theorem decode_displayOnByte (f : BitVec 3) : decode (.wireCommand (displayOnByte f)) = .ok (.dispctrlOn f) := by
  revert f
  decide

/-- Settles O1: a host operation by its fields, a wire byte by its bits; only SHOW_NUMBER's operand has to be put
together again from its bytes. -/
theorem decodeOfEncode : Obligations.DecodeOfEncode := by
  intro i
  cases i with
  | delay | start | stop | writeByte | write1 | write2 | write3 | write4 | write5 => exact decode_hostCode ..
  | encBrightness | setBrightness | showSegment | showDigits | getSegments => exact decode_hostCode ..
  | showNumber n =>
    exact (decode_hostCode ..).trans (congrArg (fun m => Decoded.ok (.showNumber m)) (numberOfBytes_extract n))
  | addrcmd a => exact decode_addressByte a
  | dispctrlOn f => exact decode_displayOnByte f
  | datacmdAuto | datacmdFixed | dispctrlOff | segpat => rfl

/-! ## What decodes is the encoding of its instruction -/

theorem encode_of_decodeBare {f : HostFields} {i j : Instr} (hi : encode i = hostCode f.op 0 0 0 0 0 0)
    (h : decodeBare f i = .ok j) : encode j = .host (joinHost f) := by
  obtain ⟨op, aux, b4, b3, b2, b1, b0⟩ := f
  obtain ⟨rfl, rfl, rfl, rfl, rfl, rfl, rfl⟩ := decodeBare_ok h
  exact hi

theorem encode_of_decodeByte {f : HostFields} {i : Byte → Instr} {j : Instr}
    (hi : ∀ b, encode (i b) = hostCode f.op 0 0 0 0 0 b) (h : decodeByte f i = .ok j) :
    encode j = .host (joinHost f) := by
  obtain ⟨op, aux, b4, b3, b2, b1, b0⟩ := f
  obtain ⟨rfl, rfl, rfl, rfl, rfl, rfl⟩ := decodeByte_ok h
  exact hi b0

theorem encode_of_decodeQuad {f : HostFields} {i : Byte → Byte → Byte → Byte → Instr} {j : Instr}
    (hi : ∀ b0 b1 b2 b3, encode (i b0 b1 b2 b3) = hostCode f.op 0 0 b3 b2 b1 b0) (h : decodeQuad f i = .ok j) :
    encode j = .host (joinHost f) := by
  obtain ⟨op, aux, b4, b3, b2, b1, b0⟩ := f
  obtain ⟨rfl, rfl, rfl⟩ := decodeQuad_ok h
  exact hi b0 b1 b2 b3

theorem encode_of_decodeShowSegment {f : HostFields} {j : Instr} (hop : f.op = 0x12)
    (h : decodeShowSegment f = .ok j) : encode j = .host (joinHost f) := by
  obtain ⟨op, aux, b4, b3, b2, b1, b0⟩ := f
  obtain ⟨rfl, rfl, rfl, rfl, rfl⟩ := decodeShowSegment_ok h
  subst hop
  rfl

theorem encode_of_decodeWrite {f : HostFields} {j : Instr} (hop : f.op = 0x05) (h : decodeWrite f = .ok j) :
    encode j = .host (joinHost f) := by
  obtain ⟨op, aux, b4, b3, b2, b1, b0⟩ := f
  subst hop
  rcases decodeWrite_ok h with ⟨rfl, rfl, rfl, rfl, rfl, rfl⟩ | ⟨rfl, rfl, rfl, rfl, rfl⟩ | ⟨rfl, rfl, rfl, rfl⟩
      | ⟨rfl, rfl, rfl⟩ | ⟨rfl, rfl⟩
  all_goals rfl

theorem encode_showNumber (b0 b1 b2 b3 : Byte) :
    encode (.showNumber (numberOfBytes b0 b1 b2 b3)) = hostCode 0x21 0 0 b3 b2 b1 b0 := by
  obtain ⟨h0, h1, h2, h3⟩ := extract_numberOfBytes b0 b1 b2 b3
  rw [encode, h0, h1, h2, h3]

/-- Host words, operation by operation (R62, R63). -/
theorem encode_of_decodeFields {f : HostFields} {i : Instr} (h : decodeFields f = .ok i) :
    encode i = .host (joinHost f) := by
  obtain ⟨op, aux, b4, b3, b2, b1, b0⟩ := f
  by_cases h1 : op = 0x01
  · subst h1; exact encode_of_decodeBare rfl h
  by_cases h2 : op = 0x02
  · subst h2; exact encode_of_decodeBare rfl h
  by_cases h3 : op = 0x03
  · subst h3; exact encode_of_decodeBare rfl h
  by_cases h4 : op = 0x04
  · subst h4; exact encode_of_decodeByte (fun _ => rfl) h
  by_cases h5 : op = 0x05
  · subst h5; exact encode_of_decodeWrite rfl h
  by_cases h10 : op = 0x10
  · subst h10; exact encode_of_decodeByte (fun _ => rfl) h
  by_cases h11 : op = 0x11
  · subst h11; exact encode_of_decodeByte (fun _ => rfl) h
  by_cases h12 : op = 0x12
  · subst h12; exact encode_of_decodeShowSegment rfl h
  by_cases h13 : op = 0x13
  · subst h13; exact encode_of_decodeQuad (fun _ _ _ _ => rfl) h
  by_cases h20 : op = 0x20
  · subst h20; exact encode_of_decodeByte (fun _ => rfl) h
  by_cases h21 : op = 0x21
  · subst h21; exact encode_of_decodeQuad encode_showNumber h
  simp only [decodeFields, h1, h2, h3, h4, h5, h10, h11, h12, h13, h20, h21, if_false, reduceCtorEq] at h

theorem addressByte_toNat (a : BitVec 2) : (addressByte a).toNat = 0xC0 + a.toNat := by
  revert a
  decide

theorem displayOnByte_toNat (f : BitVec 3) : (displayOnByte f).toNat = 0x88 + f.toNat := by
  revert f
  decide

/-- Command bytes (R57 to R59). -/
theorem encode_of_decodeCommand {b : Byte} {i : Instr} (h : decode (.wireCommand b) = .ok i) :
    encode i = .wireCommand b := by
  have hb := Machine.commandByte b
  rw [h] at hb
  cases hb with
  | auto => rfl
  | fixed => rfl
  | address a ha => exact congrArg Code.wireCommand (BitVec.eq_of_toNat_eq ((addressByte_toNat a).trans ha.symm))
  | off => rfl
  | on f hf => exact congrArg Code.wireCommand (BitVec.eq_of_toNat_eq ((displayOnByte_toNat f).trans hf.symm))

/-- Settles O2: a host word is the join of its fields, a command byte its number, and a payload byte its own pattern. -/
theorem encodeOfDecode : Obligations.EncodeOfDecode := by
  intro k i h
  cases k with
  | host w => rw [encode_of_decodeFields h, joinHost_splitHost]
  | wireCommand b => exact encode_of_decodeCommand h
  | wirePayload b =>
    cases h
    rfl

/-- The code an instruction encodes to decodes to that instruction. -/
theorem decode_of_encode {k : Code} {i : Instr} (h : encode i = k) : decode k = .ok i := h ▸ decodeOfEncode i

/-- Settles O3: each accepted word is an encoding, and each rejected one is evaluated. -/
theorem specWordsDecode : Obligations.SpecWordsDecode := by
  refine ⟨decode_of_encode ?_, decode_of_encode ?_, decode_of_encode ?_, decode_of_encode ?_, decode_of_encode ?_,
    decode_of_encode ?_, ?_, ?_, ?_, decode_of_encode ?_, decode_of_encode ?_, decode_of_encode ?_⟩
  all_goals decide

end Sys2Proof
end

section
/-! PROOF. Transport operations from the host: the words that run nothing (R62, R64), and WRITE (R77). -/
namespace Sys2Proof.Machine

theorem isHost_of_isTransport {i : Instr} (h : i.isTransport = true) : i.isHost = true := by
  cases i with
  | delay | start | stop | writeByte | write1 | write2 | write3 | write4 | write5 => rfl
  | _ => cases h

/-- A transport operation responds 0x00 (R68). -/
theorem response_of_isTransport (c : Config) {i : Instr} (h : i.isTransport = true) : response c i = 0x00 := by
  cases i with
  | delay | start | stop | writeByte | write1 | write2 | write3 | write4 | write5 => rfl
  | _ => cases h

/-- With TRANSPORT_OPS_ENABLE = 0 a transport operation has no event (R64). -/
theorem expand_of_disabled {c : Config} {i : Instr} (h : i.isTransport = true) (he : c.transportOpsEnable = false) :
    expand c i = [] := by
  have hn : ∀ es, enabledEvents c es = [] := fun es => by simp [enabledEvents, he]
  cases i with
  | delay | start | stop | writeByte | write1 | write2 | write3 | write4 | write5 => exact hn _
  | _ => cases h

/-- Settles O21: no event and response 0x00, so the run is completion alone (R81). -/
theorem transportDisabled : Obligations.TransportDisabled := by
  intro i s ht he
  rw [exec_host (isHost_of_isTransport ht), expand_of_disabled ht he, response_of_isTransport s.cfg ht]
  rfl

/-- An illegal word has an empty expansion and the response 0x00 (R64). -/
theorem expandWord_of_illegal {c : Config} {w : HostWord}
    (h : ∀ i, decode (.host w) = .ok i → i.isTransport = true ∧ c.transportOpsEnable = false) :
    expandWord c w = [] ∧ responseWord c w = 0x00 := by
  unfold expandWord responseWord
  cases hd : decode (.host w) with
  | error r => exact ⟨rfl, rfl⟩
  | ok i =>
    obtain ⟨ht, he⟩ := h i hd
    exact ⟨expand_of_disabled ht he, response_of_isTransport c ht⟩

/-- Settles O5: acceptance followed at once by completion. -/
theorem illegalWordIsEmpty : Obligations.IllegalWordIsEmpty := by
  intro s w ws hr hw hb hh hill
  obtain ⟨hes, hrsp⟩ := expandWord_of_illegal hill
  rw [step_of_word hr hw hb hh, hes, hrsp]
  rfl

/-- WRITE of `bs` is the transaction of `bs` (R77). -/
theorem isTransport_and_expand_of_writtenBytes {c : Config} {i : Instr} {bs : List Byte}
    (h : writtenBytes i = some bs) : i.isTransport = true ∧ expand c i = enabledEvents c (txnFrame c bs) := by
  cases i with
  | write1 | write2 | write3 | write4 | write5 =>
    cases h
    exact ⟨rfl, rfl⟩
  | _ => cases h

/-- Settles O27: the run of one transaction, which ends with both lines high. -/
theorem writeRuns : Obligations.WriteRuns := by
  intro i bs s hi hf he
  obtain ⟨ht, hes⟩ := isTransport_and_expand_of_writtenBytes (c := s.cfg) hi
  have hexec := exec_fair (isHost_of_isTransport ht) hf
  rw [hes, enabledEvents, if_pos he, response_of_isTransport s.cfg ht] at hexec
  have hran := State.ran_play 0x00 (pacedBy_txnFrame s.cfg bs) hf
  refine ⟨_, hexec, hran, ?_, ?_⟩
  · rw [State.complete_clk, State.play_clk, txnFrame_levels]
  · rw [State.complete_dio, State.play_dio, txnFrame_levels]

end Sys2Proof.Machine
end

section
/-! PROOF. The slots of the wire formats (R52, R53) and the segments of the table's entries (R60, R100). -/
namespace Sys2Proof.Machine

/-- Settles O18: the slots are the formats' own events; the levels follow the three requests of each. -/
theorem formatLevels : Obligations.FormatLevels := by
  intro c clk dio v W cell ack after
  have hcell : [1, 2, 3, 4, 5, 6].map (after cell)
      = [(false, dio), (false, dio), (false, v), (false, v), (true, v), (true, v)] := by
    cases v <;> rfl
  have hdata : ∀ p ∈ pinsOf (ackSlot c), p ≠ .d0 ∧ p ≠ .d1 := by
    rw [pinsOf_ackSlot]
    decide
  exact ⟨bitCell_eq c v, hcell, rfl, rfl, rfl, ackSlot_eq c, rfl, rfl, rfl, rfl, hdata⟩

/-- A digit's shape has seven bits, so its pattern leaves the decimal point dark (R60). -/
theorem shapePattern_decimalPoint (g : DigitShape) : segmentLit (shapePattern g) .decimalPoint = false := by
  simp [segmentLit, shapePattern, Segment.bit]

theorem segLut_decimalPoint (c : Config) (n : Nat) : segmentLit (segLut c n) .decimalPoint = false := by
  unfold segLut
  split
  case h_1 | h_6 | h_7 | h_8 | h_9 | h_10 => exact shapePattern_decimalPoint _
  all_goals decide

theorem seg_decimalPoint (c : Config) (digit : Int) : segmentLit (seg c digit) .decimalPoint = false := by
  unfold seg
  split
  · rfl
  · exact segLut_decimalPoint c _

/-- Settles O38: the four entries segment by segment, and the decimal point for every digit. -/
theorem segmentShapes : Obligations.SegmentShapes := by
  intro c g
  refine ⟨?_, ?_, ?_, ?_, seg_decimalPoint c⟩
  all_goals
    simp only [segLut]
    cases g <;> decide

end Sys2Proof.Machine
end

section
/-! PROOF. What is issued and what is still to be issued, across one step: TRACE stays paced (R84), and without the
transport operations every operation ends with both lines high (R85). -/
namespace Sys2Proof.Machine

/-- The sequencer's step is one of five: an event issued (R80), the timer's expiry (R25), a stopped timer (R147),
completion after the last event (R81), or nothing. -/
theorem State.sequencerStep_cases (s : State) :
    (∃ e, s.latched[s.upc]? = some e ∧ s.sequencerStep = s.issue e)
    ∨ (∃ f, s.sequencerStep = s.expire f)
    ∨ s.sequencerStep = s.stall
    ∨ (s.upc = s.latched.length ∧ ∃ r, s.sequencerStep = s.complete r)
    ∨ s.sequencerStep = s := by
  cases he : s.latched[s.upc]? with
  | some e =>
    cases hh : s.held e with
    | false => exact .inl ⟨e, rfl, State.sequencerStep_of_free he hh⟩
    | true =>
      cases ht : s.timerStep with
      | some t =>
        obtain ⟨-, f, -, rfl, -⟩ := State.timerStep_eq_some ht
        exact .inr (.inl ⟨f, State.sequencerStep_of_timer he hh ht⟩)
      | none => exact .inr (.inr (.inl (State.sequencerStep_of_stopped he hh ht)))
  | none =>
    by_cases hu : s.upc = s.latched.length
    · exact .inr (.inr (.inr (.inl ⟨hu, _, State.sequencerStep_at_length hu⟩)))
    · exact .inr (.inr (.inr (.inr (by simp [State.sequencerStep, he, hu]))))

theorem State.remaining_of_idle {s : State} (hb : s.busy = false) : s.remaining = [] := by
  simp [State.remaining, hb]

/-- At the end of its expansion an operation has nothing left to issue. -/
theorem State.remaining_at_length {s : State} (hu : s.upc = s.latched.length) : s.remaining = [] := by
  simp [State.remaining, hu]

/-- Issuing the event at UPC takes it off what is left to issue. -/
theorem State.remaining_of_issue {s : State} {e : Event} (hb : s.busy = true) (he : s.latched[s.upc]? = some e) :
    s.remaining = e :: (s.issue e).remaining := by
  obtain ⟨hlt, hcur⟩ := List.getElem?_eq_some_iff.mp he
  rw [State.remaining, State.remaining, State.issue_busy, State.issue_latched, State.issue_upc, if_pos hb, if_pos hb,
    List.drop_eq_getElem_cons hlt, hcur]

/-- From a block with parameters `c`, at levels `clk` and `dio` and with the events `done` issued, the state `t` is
under way to issue exactly the events `es`: what it has issued and what it has left are together `done` and `es`, and it
will end at the levels they lead to. -/
structure UnderWay (c : Config) (clk dio : Bool) (done es : List Event) (t : State) : Prop where
  cfg : t.cfg = c
  events : t.trace ++ t.remaining = done ++ es
  levels : levelsFrom t.clk t.dio t.remaining = levelsFrom clk dio es

/-- The sequencer's step goes on with what is left to issue. -/
theorem State.underWay_sequencerStep {s : State} (hb : s.busy = true) :
    UnderWay s.cfg s.clk s.dio s.trace s.remaining s.sequencerStep := by
  rcases s.sequencerStep_cases with ⟨e, he, h⟩ | ⟨f, h⟩ | h | ⟨hu, r, h⟩ | h <;> rw [h]
  · rw [State.remaining_of_issue hb he]
    exact ⟨State.issue_cfg e s, by simp, by rw [levelsFrom_cons, State.issue_clk, State.issue_dio]⟩
  · exact ⟨rfl, rfl, rfl⟩
  · exact ⟨rfl, rfl, rfl⟩
  · rw [State.remaining_at_length hu]
    exact ⟨rfl, rfl, rfl⟩
  · exact ⟨rfl, rfl, rfl⟩

/-- What a step does to the plan of events: reset drops it, acceptance begins a word's expansion, and every other step
goes on with what is left. -/
theorem step_underWay {s t : State} (h : step s = .next t) :
    t = s.resetBlock
    ∨ UnderWay s.cfg s.clk s.dio s.trace s.remaining t
    ∨ s.busy = false ∧ ∃ w, UnderWay s.cfg s.clk s.dio s.trace (expandWord s.cfg w) t := by
  rcases step_cases h with ⟨-, rfl⟩ | ⟨-, b, bs, f, -, rfl, -⟩ | ⟨-, -, hb, rfl⟩ | ⟨-, -, hb, w, ws, -, rfl⟩
      | ⟨-, -, -, -, rfl⟩
  · exact .inl rfl
  · exact .inr (.inl ⟨rfl, rfl, rfl⟩)
  · exact .inr (.inl (State.underWay_sequencerStep hb))
  · obtain ⟨hevents, hlevels, hcfg, -⟩ := State.runOp_remaining (s := State.accept w { s with host := ws })
      (r := responseWord s.cfg w) rfl (Nat.zero_le _) rfl
    exact .inr (.inr ⟨hb, w, hcfg, hevents, hlevels⟩)
  · exact .inr (.inl ⟨rfl, rfl, rfl⟩)

/-- Settles O53: reset empties TRACE, an accepted word appends a paced expansion to a paced TRACE, and every other step
leaves what is issued and what is left together as they are. -/
theorem stepKeepsPacing : Obligations.StepKeepsPacing := by
  intro s t h0 h
  unfold PacingInv at h0 ⊢
  rcases step_underWay h with rfl | ⟨hcfg, hevents, -⟩ | ⟨hb, w, hcfg, hevents, -⟩
  · rfl
  · rwa [hcfg, hevents]
  · rw [State.remaining_of_idle hb, List.append_nil] at h0
    rw [hcfg, hevents]
    exact pacedBy_append h0 (pacedBy_expandWord s.cfg w)

/-- Transactions begun at idle-high levels end at them. -/
theorem txnFrames_idleHigh (c : Config) (Bs : List (List Byte)) :
    levelsFrom true true (Bs.flatMap (txnFrame c)) = (true, true) := by
  induction Bs with
  | nil => rfl
  | cons B Bs ih => rw [List.flatMap_cons, levelsFrom_append, txnFrame_levels, ih]

/-- Without the transport operations a host word is an empty operation or a list of whole transactions (R64, R85). -/
theorem expandWord_idleHigh {c : Config} (he : c.transportOpsEnable = false) (w : HostWord) :
    levelsFrom true true (expandWord c w) = (true, true) := by
  unfold expandWord
  split
  · rename_i i _
    cases ht : i.isTransport with
    | true =>
      rw [expand_of_disabled ht he]
      rfl
    | false => rw [expand_eq_transactions_of_layer c ht, txnFrames_idleHigh]
  · rfl

/-- Settles O54: reset puts the lines high, an accepted word is sent from idle-high lines and returns them there, and every
other step goes on to the same levels. -/
theorem stepKeepsIdleHigh : Obligations.StepKeepsIdleHigh := by
  rintro s t ⟨he, hp, hl⟩ h
  unfold IdleHighInv
  rcases step_underWay h with rfl | ⟨hcfg, -, hlevels⟩ | ⟨hb, w, hcfg, -, hlevels⟩
  · refine ⟨he, hp, ?_⟩
    rw [State.resetBlock_clk, State.resetBlock_dio, hp]
    rfl
  · rw [hcfg, hlevels]
    exact ⟨he, hp, hl⟩
  · rw [State.remaining_of_idle hb] at hl
    obtain ⟨hclk, hdio⟩ := Prod.mk.inj hl
    rw [hcfg, hlevels, hclk, hdio]
    exact ⟨he, hp, expandWord_idleHigh he w⟩

end Sys2Proof.Machine
end

section
/-! PROOF. The primitive events and the sequencer's step on them (R70 to R72, R80, R81). -/
namespace Sys2Proof.Machine

/-- Settles O6: an event that nothing holds is issued, and after the last event the operation completes. -/
theorem sequencerSteps : Obligations.SequencerSteps := by
  intro s hr hw hb
  rw [step_of_busy hr hw hb]
  constructor
  · intro e he hfree
    have hf : s.held e = false := by
      rw [← Bool.not_eq_true, State.held_iff]
      rintro ⟨rfl, hx⟩
      simp [hfree rfl] at hx
    refine ⟨_, rfl, ?_⟩
    rw [State.sequencerStep_of_free he hf]
    exact ⟨State.issue_trace e s, State.issue_upc e s, (State.issue_busy e s).trans hb, State.issue_rsp e s,
      State.issue_host e s, State.issue_opr e s⟩
  · intro hu
    rw [State.sequencerStep_at_length hu]
    rfl

/-- What a pin event does to the block and its timer (R70): the levels and TRACE, and nothing else. -/
structure PinIssued (p : Pin) (s t : State) : Prop where
  clk : t.clk = p.clkAfter s.clk
  dio : t.dio = p.dioAfter s.dio
  trace : t.trace = s.trace ++ [.pin p]
  busy : t.busy = s.busy
  opr : t.opr = s.opr
  upc : t.upc = s.upc
  tmrExpired : t.tmrExpired = s.tmrExpired
  tmrCount : t.tmrCount = s.tmrCount

theorem State.emit_pin (p : Pin) (s : State) : PinIssued p s (s.emit (.pin p)) := by
  constructor <;> simp [State.emit, State.trace]

/-- Settles O16: whatever fails, what a pin event does to the block is a function of the block. -/
theorem pinEvents : Obligations.PinEvents := by
  intro s p t
  obtain ⟨hclk, hdio, htrace, hbusy, hopr, hupc, hexpired, hcount⟩ := s.emit_pin p
  refine ⟨?_, ?_, htrace, hbusy, hopr, hupc, hexpired, hcount, ?_⟩
  · rw [hclk]
    cases p <;> rfl
  · rw [hdio]
    cases p <;> rfl
  · intro a b x y u
    have hu := State.emit_pin p { s with clkFault := a, dioFault := b, clkBroken := x, dioBroken := y }
    exact ⟨hu.clk.trans hclk.symm, hu.dio.trans hdio.symm, hu.trace.trans htrace.symm, hu.upc.trans hupc.symm,
      hu.tmrExpired.trans hexpired.symm⟩

/-- In a paced list each `TS` is one quantum's and is followed at once by `TW`. -/
theorem pacedBy_after_ts {q d i : Nat} {es : List Event} (h : pacedBy q es = true) (hi : es[i]? = some (.ts d)) :
    d = q ∧ es[i + 1]? = some .tw := by
  induction es using pacedBy.induct generalizing i with
  | case1 => simp at hi
  | case2 p d' rest ih =>
    simp only [pacedBy, Bool.and_eq_true, beq_iff_eq] at h
    match i with
    | 0 => simp at hi
    | 1 => exact ⟨by simp_all, rfl⟩
    | 2 => simp at hi
    | k + 3 => exact ih h.2 hi
  | case3 d' rest ih =>
    simp only [pacedBy, Bool.and_eq_true, beq_iff_eq] at h
    match i with
    | 0 => exact ⟨by simp_all, rfl⟩
    | 1 => simp at hi
    | k + 2 => exact ih h.2 hi
  | case4 es h1 h2 h3 => simp [pacedBy] at h

/-- Settles O17: `TS` as a whole-state equation, and every expansion is paced. -/
theorem timerStarts : Obligations.TimerStarts :=
  ⟨fun _ _ => rfl, fun c i _ _ => pacedBy_after_ts (pacedBy_expand c i)⟩

/-- While the timer never expires, the step of a block at TW loses the display and changes nothing else. -/
theorem step_of_stopped {s : State} (hr : s.rst = false) (hw : s.wireIn = []) (hb : s.busy = true)
    (he : s.latched[s.upc]? = some .tw) (hx : s.tmrExpired = false) (hf : s.tmrFuture = some 0) :
    step s = .next s.stall := by
  rw [step_of_busy hr hw hb, State.sequencerStep_of_stopped he (State.held_iff.mpr ⟨rfl, hx⟩)
    (State.timerStep_eq_none_iff.mpr (.inr hf))]

/-- A run of any core stays at a state that its step answers again. -/
theorem core_run_of_fixed {M : Host.Core} {t : M.State} (h : M.step t = .next t) (n : Nat) : M.run n t = .next t := by
  induction n with
  | zero => rfl
  | succ n ih => rw [core_run_succ h, ih]

/-- Settles O8: the first step leaves the display UNKNOWN, and every later one answers the same state again. -/
theorem heldForever : Obligations.HeldForever := by
  intro s n hr hw hb he hx hf
  have hfirst : Sys2Proof.core.step s = .next s.stall := step_of_stopped hr hw hb he hx hf
  have hfixed : Sys2Proof.core.step s.stall = .next s.stall :=
    step_of_stopped (s := s.stall) hr hw hb he hx hf
  exact ⟨s.stall, (core_run_succ hfirst n).trans (core_run_of_fixed hfixed n), rfl, .forget _⟩

end Sys2Proof.Machine
end

section
/-! PROOF. The sizes of every format and operation (R83), and the quanta between pin events (R84). -/
namespace Sys2Proof.Machine

/-- R83's three columns: pin events, DELAYs and primitive events. -/
def eventCounts (es : List Event) : Nat × Nat × Nat := ((pinsOf es).length, quanta es, es.length)

theorem eventCounts_append {es fs : List Event} {p q n p' q' n' : Nat} (he : eventCounts es = (p, q, n))
    (hf : eventCounts fs = (p', q', n')) : eventCounts (es ++ fs) = (p + p', q + q', n + n') := by
  simp only [eventCounts, quanta, Prod.mk.injEq] at he hf ⊢
  obtain ⟨hp, hq, hn⟩ := he
  obtain ⟨hp', hq', hn'⟩ := hf
  rw [pinsOf_append, List.length_append, List.countP_append, List.length_append, hp, hq, hn, hp', hq', hn']
  exact ⟨rfl, rfl, rfl⟩

/-- Lists of one size each. -/
theorem eventCounts_flatMap {α : Type} {f : α → List Event} {p q n : Nat} (h : ∀ x, eventCounts (f x) = (p, q, n))
    (xs : List α) : eventCounts (xs.flatMap f) = (p * xs.length, q * xs.length, n * xs.length) := by
  induction xs with
  | nil => rfl
  | cons x xs ih =>
    rw [List.flatMap_cons, eventCounts_append (h x) ih, List.length_cons, Nat.mul_succ, Nat.mul_succ, Nat.mul_succ,
      Nat.add_comm p, Nat.add_comm q, Nat.add_comm n]

theorem eventCounts_bitCell (c : Config) (v : Bool) : eventCounts (bitCell c v) = (3, 3, 9) := rfl

theorem eventCounts_byteFrame (c : Config) (b : Byte) : eventCounts (byteFrame c b) = (27, 28, 83) :=
  have hack : eventCounts (ackSlot c) = (3, 4, 11) := rfl
  eventCounts_append (eventCounts_flatMap (fun _ => eventCounts_bitCell c _) _) hack

theorem eventCounts_txnFrame (c : Config) (bs : List Byte) :
    eventCounts (txnFrame c bs) = (4 + 27 * bs.length, 4 + 28 * bs.length, 12 + 83 * bs.length) := by
  have hstart : eventCounts (startSeq c) = (1, 1, 3) := rfl
  have hstop : eventCounts (stopSeq c) = (3, 3, 9) := rfl
  rw [txnFrame, eventCounts_append (eventCounts_append hstart (eventCounts_flatMap (eventCounts_byteFrame c) bs)) hstop]
  simp only [Prod.mk.injEq]
  omega

/-- The sizes of a transaction of a given length. -/
theorem eventCounts_txnFrame_of_length (c : Config) {bs : List Byte} {k : Nat} (h : bs.length = k) :
    eventCounts (txnFrame c bs) = (4 + 27 * k, 4 + 28 * k, 12 + 83 * k) := h ▸ eventCounts_txnFrame c bs

theorem eventCounts_segmentEvents (c : Config) (v pos : Byte) :
    eventCounts (segmentEvents c v pos) = if 3 < pos.toNat then (0, 0, 0) else (89, 92, 273) := by
  simp only [segmentEvents, posOutOfRange, decide_eq_true_eq]
  split
  · rfl
  · exact eventCounts_append (eventCounts_txnFrame_of_length c (k := 1) rfl)
      (eventCounts_txnFrame_of_length c (k := 2) rfl)

theorem eventCounts_digitsEvents (c : Config) (s0 s1 s2 s3 : Byte) :
    eventCounts (digitsEvents c s0 s1 s2 s3) = (170, 176, 522) :=
  eventCounts_append (eventCounts_txnFrame_of_length c (k := 1) rfl) (eventCounts_txnFrame_of_length c (k := 5) rfl)

theorem length_of_eventCounts {es : List Event} {p q n : Nat} (h : eventCounts es = (p, q, n)) : es.length = n :=
  congrArg (fun x => x.2.2) h

theorem length_enabledEvents_le (c : Config) (es : List Event) : (enabledEvents c es).length ≤ es.length := by
  unfold enabledEvents
  split
  · exact Nat.le_refl _
  · exact Nat.zero_le _

/-- No expansion is longer than SHOW_DIGITS' (R83). -/
theorem length_expand_le (c : Config) (i : Instr) : (expand c i).length ≤ 522 := by
  have sized : ∀ {es : List Event} {p q n : Nat}, eventCounts es = (p, q, n) → n ≤ 522 → es.length ≤ 522 :=
    fun h hn => Nat.le_trans (Nat.le_of_eq (length_of_eventCounts h)) hn
  have enabled : ∀ {es : List Event} {p q n : Nat}, eventCounts es = (p, q, n) → n ≤ 522 →
      (enabledEvents c es).length ≤ 522 :=
    fun h hn => Nat.le_trans (length_enabledEvents_le c _) (sized h hn)
  have write : ∀ bs : List Byte, bs.length ≤ 5 → (enabledEvents c (txnFrame c bs)).length ≤ 522 :=
    fun bs h => enabled (eventCounts_txnFrame c bs) (by omega)
  cases i with
  | delay => exact enabled (es := delaySeq c) (p := 0) (q := 1) (n := 2) rfl (by decide)
  | start => exact enabled (es := startSeq c) (p := 1) (q := 1) (n := 3) rfl (by decide)
  | stop => exact enabled (es := stopSeq c) (p := 3) (q := 3) (n := 9) rfl (by decide)
  | writeByte b => exact enabled (eventCounts_byteFrame c b) (by decide)
  | write1 | write2 | write3 | write4 | write5 =>
    refine write _ ?_
    simp only [List.length_cons, List.length_nil]
    decide
  | setBrightness _ => exact sized (eventCounts_txnFrame_of_length c (k := 1) rfl) (by decide)
  | showSegment v pos =>
    have h := eventCounts_segmentEvents c v pos
    split at h
    · exact sized h (by decide)
    · exact sized h (by decide)
  | showDigits _ _ _ _ => exact sized (eventCounts_digitsEvents c _ _ _ _) (by decide)
  | showNumber _ => exact sized (eventCounts_digitsEvents c _ _ _ _) (by decide)
  | encBrightness | getSegments | datacmdAuto | datacmdFixed | addrcmd | dispctrlOff | dispctrlOn | segpat =>
    exact Nat.zero_le _

@[simp] theorem quanta_pin_cons (p : Pin) (es : List Event) : quanta (.pin p :: es) = quanta es :=
  List.countP_cons_of_neg (by simp)

@[simp] theorem quanta_ts_cons (d : Nat) (es : List Event) : quanta (.ts d :: es) = quanta es + 1 :=
  List.countP_cons_of_pos rfl

@[simp] theorem quanta_tw_cons (es : List Event) : quanta (.tw :: es) = quanta es :=
  List.countP_cons_of_neg (by simp)

/-- A paced list lasts at least its quanta (R84). -/
theorem leastMicros_of_paced {q : Nat} {es : List Event} (h : pacedBy q es = true) :
    leastMicros es = q * quanta es := by
  induction es using pacedBy.induct with
  | case1 => rfl
  | case2 p d rest ih =>
    simp only [pacedBy, Bool.and_eq_true, beq_iff_eq] at h
    simp only [leastMicros, quanta_pin_cons, quanta_ts_cons, quanta_tw_cons, ih h.2, h.1, Nat.mul_succ]
    exact Nat.add_comm ..
  | case3 d rest ih =>
    simp only [pacedBy, Bool.and_eq_true, beq_iff_eq] at h
    simp only [leastMicros, quanta_ts_cons, quanta_tw_cons, ih h.2, h.1, Nat.mul_succ]
    exact Nat.add_comm ..
  | case4 es h1 h2 h3 => simp [pacedBy] at h

/-- Settles O19: the formats' sizes add up to the operations'. -/
theorem expansionSizes : Obligations.ExpansionSizes := by
  intro c size
  exact ⟨rfl, rfl, rfl, eventCounts_bitCell c, rfl, eventCounts_byteFrame c, eventCounts_txnFrame c,
    fun level => eventCounts_txnFrame_of_length c (k := 1) rfl, eventCounts_segmentEvents c, eventCounts_digitsEvents c,
    fun n => eventCounts_digitsEvents c _ _ _ _, fun _ => rfl, fun _ => rfl,
    fun i => ⟨length_expand_le c i, leastMicros_of_paced (pacedBy_expand c i)⟩⟩

/-- In a paced list the DELAY between two pin events is the one right after the first (R84). -/
theorem Spaced.of_paced {q : Nat} {es : List Event} (h : pacedBy q es = true) : Spaced q es := by
  intro i j p p' hij hi hj
  obtain ⟨hts, htw⟩ := pacedBy_after_pin h hi
  have h1 : j ≠ i + 1 := by
    rintro rfl
    rw [hts] at hj
    cases hj
  have h2 : j ≠ i + 2 := by
    rintro rfl
    rw [htw] at hj
    cases hj
  exact ⟨i + 1, by omega, by omega, hts, htw⟩

/-- What has been issued of a spaced list is spaced. -/
theorem Spaced.of_append {q : Nat} {es fs : List Event} (h : Spaced q (es ++ fs)) : Spaced q es := by
  have part : ∀ {i e}, es[i]? = some e → i < es.length ∧ (es ++ fs)[i]? = some e := by
    intro i e hi
    have hlt := (List.getElem?_eq_some_iff.mp hi).1
    exact ⟨hlt, (List.getElem?_append_left hlt).trans hi⟩
  intro i j p p' hij hi hj
  obtain ⟨hlt, hj'⟩ := part hj
  obtain ⟨k, hik, hkj, hts, htw⟩ := h i j p p' hij (part hi).2 hj'
  rw [List.getElem?_append_left (by omega)] at hts htw
  exact ⟨k, hik, hkj, hts, htw⟩

/-- Settles O20: every expansion is paced, and so is TRACE with what is left to issue after a step. -/
theorem traceIsSpaced : Obligations.TraceIsSpaced :=
  ⟨fun c i => .of_paced (pacedBy_expand c i), fun s t h0 h => (Spaced.of_paced (stepKeepsPacing s t h0 h)).of_append⟩

end Sys2Proof.Machine
end

section
/-! PROOF. DELAY, START and STOP from the host (R73 to R75): their events, and what the wire and the display make of their
requests. -/
namespace Sys2Proof.Machine

/-- An enabled transport operation runs its sequence and responds 0x00; the wire sees the sequence's requests. -/
theorem exec_enabled {i : Instr} {es : List Event} {s : State} (ht : i.isTransport = true)
    (hes : expand s.cfg i = enabledEvents s.cfg es) (hf : TimerFair s) (he : s.cfg.transportOpsEnable = true) :
    exec i s = .next ((s.play es).complete 0x00) ∧ Ran es 0x00 s ((s.play es).complete 0x00)
      ∧ SameWire (s.driveAll (pinsOf es)) ((s.play es).complete 0x00) := by
  rw [enabledEvents, if_pos he] at hes
  have hexec := exec_fair (isHost_of_isTransport ht) hf
  rw [hes, response_of_isTransport s.cfg ht] at hexec
  have hpaced : pacedBy s.cfg.qUs es = true := hes ▸ pacedBy_expand s.cfg i
  obtain ⟨hcfg, hclk, hdio, hrx, hlost, hdisplay, hcf, hdf, hcb, hdb⟩ := State.play_wire es s
  exact ⟨hexec, State.ran_play _ hpaced hf, hcfg, hclk, hdio, hrx, hlost, hdisplay, hcf, hdf, hcb, hdb⟩

theorem SameWire.wireKept {s t : State} (h : SameWire s t) : WireKept s t where
  clk := h.clk
  dio := h.dio
  rx := h.rx
  wireLost := h.wireLost
  cell := fun a => by rw [State.cell, State.cell, h.display]
  don := by rw [h.display]
  dbr := by rw [h.display]
  amode := by rw [h.display]
  phase := by rw [h.display]

/-- Settles O22: DELAY asks nothing of the pins, so the wire sees nothing. -/
theorem delayRuns : Obligations.DelayRuns := by
  intro s hf he
  obtain ⟨hexec, hran, hwire⟩ := exec_enabled (i := .delay) rfl rfl hf he
  exact ⟨_, hexec, hran, hwire.wireKept⟩

/-! ## One request, on the wire -/

/-- Inside a transaction a request that is no stop condition is collected; the display is lost where it breaks R142's
bracket. -/
theorem State.drive_open {s : State} {p : Pin} {ps : List Pin} (hr : s.rx = some ps) (hf : s.requestFails p = false)
    (he : p.edge s.clk s.dio ≠ .stop) :
    (s.drive p).rx = some (p :: ps)
      ∧ (s.drive p).display = if breaksBracket ps p then s.display.forget else s.display := by
  unfold State.drive State.receive
  simp only [State.setPins_rx, hr, hf]
  cases hE : p.edge s.clk s.dio with
  | stop => exact absurd hE he
  | start | sample | other => exact ⟨rfl, rfl⟩

/-- Outside a transaction the request for a low data line opens one where it is a start condition, and leaves the display
as it is. -/
theorem State.drive_d0_outside {s : State} (hr : s.rx = none) (hf : s.requestFails .d0 = false) :
    (s.drive .d0).rx = (if s.clk = true ∧ s.dio = true then some [.d0] else none)
      ∧ (s.drive .d0).display = s.display := by
  unfold State.drive State.receive
  simp only [State.setPins_rx, hr, hf, Pin.edge]
  cases s.clk <;> cases s.dio <;> simp [hr]

/-- A stop condition that ends a transaction hands the display what R45 reads off the wire. -/
theorem State.drive_stop_display {s : State} {p : Pin} {ps : List Pin} (hr : s.rx = some ps)
    (hf : s.requestFails p = false) (he : p.edge s.clk s.dio = .stop) :
    (s.drive p).display
      = (s.setDisplay ((s.checkBracket ps p).display.takeTxn (decodeTxn s.cfg (p :: ps).reverse))).display := by
  unfold State.drive State.receive
  simp only [State.setPins_rx, hr, hf, he]
  rfl

theorem State.edge_d0_ne_stop (s : State) : Pin.d0.edge s.clk s.dio ≠ .stop := by
  cases s.clk <;> cases s.dio <;> decide

/-- Settles O23: the one request of START drives DIO low, inside a transaction or outside one; if it fails nothing stays
known. -/
theorem startRuns : Obligations.StartRuns := by
  intro s hf he
  obtain ⟨hexec, hran, hwire⟩ := exec_enabled (i := .start) rfl rfl hf he
  have hwire : SameWire (s.drive .d0) _ := hwire
  refine ⟨_, hexec, hran, hwire.clk.trans (State.drive_clk .d0 s), hwire.dio.trans (State.drive_dio .d0 s), ?_, ?_⟩
  · intro hfault hbroken
    have hok : s.requestFails .d0 = false := by simp [State.requestFails, hfault, hbroken]
    rw [hwire.wireLost, hwire.display, hwire.rx, State.drive_wireLost, hok, Bool.or_false]
    refine ⟨rfl, ?_⟩
    cases hr : s.rx with
    | none =>
      obtain ⟨hrx, hdisplay⟩ := State.drive_d0_outside hr hok
      exact ⟨fun _ => hdisplay, nofun, hrx⟩
    | some ps =>
      obtain ⟨hrx, hdisplay⟩ := State.drive_open hr hok s.edge_d0_ne_stop
      refine ⟨?_, ?_, hrx⟩
      · intro hkept
        rw [hdisplay, hkept ps rfl]
        rfl
      · intro h
        cases h
        rw [hdisplay]
        exact .forget _
  · intro hfail
    have hdark := State.play_dark (es := startSeq s.cfg) (s := s) (List.mem_cons_self ..)
      (State.requestFails_iff.mpr (.inr ⟨.inl rfl, hfail⟩))
    exact ⟨hdark.unknown, hdark.lost⟩

/-! ## STOP's requests -/

theorem State.setDisplay_unknown {d : Display} (h : AllUnknown d) (s : State) : AllUnknown (s.setDisplay d).display := by
  rw [State.setDisplay_display]
  split
  · exact .forget d
  · exact h

/-- An empty transaction leaves nothing known (R44). -/
theorem AllUnknown.takeTxn_empty (d : Display) : AllUnknown (d.takeTxn (some [])) := ⟨fun _ => rfl, rfl, rfl, rfl⟩

/-- STOP inside a transaction breaks R142's bracket where its first request does. -/
theorem stop_keepsBracket (ps : List Pin) : keepsBracket ps [.d0, .c1] = !breaksBracket ps .d0 := by
  cases ps <;> simp [keepsBracket, breaksBracket, Pin.isData]

/-- Where no request fails, STOP inside a transaction hands the display what R45 reads off the wire. -/
theorem State.driveAll_stop_display {s : State} {ps : List Pin} (hp : PinsSound s) (hr : s.rx = some ps) :
    (s.driveAll [.d0, .c1, .d1]).display
      = (s.setDisplay ((if breaksBracket ps .d0 then s.display.forget else s.display).takeTxn
          (decodeTxn s.cfg (ps.reverse ++ [.d0, .c1, .d1])))).display := by
  have hfree : stopFree s.clk s.dio [.d0, .c1] = true := by
    cases s.clk <;> cases s.dio <;> rfl
  have hkept : breaksBracket (.c1 :: .d0 :: ps) .d1 = false := rfl
  have hsound : s.requestFails .d1 = false := s.requestFails_sound hp .d1
  have hopen := State.driveAll_open hr hp hfree
  rw [stop_keepsBracket] at hopen
  have hlast : s.driveAll [.d0, .c1, .d1] = (s.driveAll [.d0, .c1]).drive .d1 := rfl
  rw [hlast, hopen, State.drive_stop_display (ps := .c1 :: .d0 :: ps)]
  · rw [State.checkBracket_of_kept hkept]
    cases breaksBracket ps .d0 <;> simp
  · rfl
  · exact hsound
  · rfl

/-- Requests that do not fail leave the wire as trusted as it is. -/
theorem State.driveAll_wireLost {s : State} (hp : PinsSound s) (ps : List Pin) :
    (s.driveAll ps).wireLost = s.wireLost := by
  induction ps generalizing s with
  | nil => rfl
  | cons p ps ih =>
    have hp' : PinsSound (s.drive p) := by
      constructor <;> simp [hp.clkReported, hp.dioReported, hp.clkUnreported, hp.dioUnreported]
    rw [State.driveAll_cons, ih hp', State.drive_wireLost, s.requestFails_sound hp, Bool.or_false]

/-- STOP with no transaction open, where no request fails: from idle-high it is an empty transaction, and otherwise its
clock pulse or its stop condition comes outside a transaction (R142). -/
theorem State.driveAll_stop_outside {s : State} (hp : PinsSound s) (hr : s.rx = none) :
    AllUnknown (s.driveAll [.d0, .c1, .d1]).display := by
  by_cases hidle : s.clk = true ∧ s.dio = true
  · have hw := State.driveAll_bracket hidle.1 hidle.2 hr hp (mid := [.c1]) rfl rfl
    have hread : decodeTxn s.cfg [.d0, .c1, .d1] = some [] := rfl
    rw [List.cons_append, List.nil_append, hread] at hw
    rw [hw.display]
    exact State.setDisplay_unknown (.takeTxn_empty _) s
  · have hfree : startFree s.clk s.dio [.d0, .c1, .d1] = true ∧ hasPulse s.clk s.dio [.d0, .c1, .d1] = true := by
      revert hidle
      cases s.clk <;> cases s.dio <;> decide
    exact (State.driveAll_outside hr hfree.1).2 (.inr hfree.2)

/-- Settles O24: the last request of STOP is a stop condition under a high clock; what the display makes of it depends on
the transaction at hand, and where a request fails nothing stays known. -/
theorem stopRuns : Obligations.StopRuns := by
  intro s hf he q
  obtain ⟨hexec, hran, hwire⟩ := exec_enabled (i := .stop) rfl rfl hf he
  rw [pinsOf_stopSeq] at hwire
  obtain ⟨hclk, hdio⟩ := Prod.mk.inj (State.driveAll_levels [.d0, .c1, .d1] s)
  have hrx : (s.driveAll [.d0, .c1, .d1]).rx = none :=
    State.drive_stop_rx (s := (s.drive .d0).drive .c1) (by simp [Pin.edge, Pin.clkAfter, Pin.dioAfter])
  have unknown : (PinsSound s → AllUnknown (s.driveAll [.d0, .c1, .d1]).display) →
      AllUnknown ((s.play (stopSeq s.cfg)).complete 0x00).display := by
    intro h
    rcases s.pinsSound_or_fails with hp | hfail | hfail
    · rw [hwire.display]
      exact h hp
    · exact (State.play_dark (by simp [stopSeq, paced]) hfail).unknown
    · exact (State.play_dark (by simp [stopSeq, paced]) hfail).unknown
  refine ⟨_, hexec, hran, hwire.clk.trans hclk, hwire.dio.trans hdio, hwire.rx.trans hrx, ?_, ?_, ?_⟩
  · intro ps hp hr hlost d
    rw [hwire.wireLost, hwire.display, State.driveAll_wireLost hp, State.driveAll_stop_display hp hr,
      State.setDisplay_display, hlost]
    exact ⟨rfl, rfl⟩
  · intro hr
    refine unknown fun hp => ?_
    have hread : decodeTxn s.cfg ([Pin.d0].reverse ++ [.d0, .c1, .d1]) = some [] := rfl
    rw [State.driveAll_stop_display hp hr, hread]
    exact State.setDisplay_unknown (.takeTxn_empty _) s
  · exact fun hr => unknown fun hp => State.driveAll_stop_outside hp hr

end Sys2Proof.Machine
end

section
/-! PROOF. The command layer: what its operations send and what a display on a good wire makes of it (R90 to R93, R46). -/
namespace Sys2Proof.Machine

/-- An operation that issues nothing completes at once (R78, R81). -/
theorem exec_of_expand_nil {i : Instr} {s : State} (hi : i.isHost = true) (h : expand s.cfg i = []) :
    exec i s = .next (s.complete (response s.cfg i)) := by
  rw [exec_host hi, h]
  rfl

/-- `t` is `s` after the transactions `Bs`, sent and completed (R81): both lines are high, and on a good wire the display
has taken them one after another (R46). -/
structure Transmitted (Bs : List (List Byte)) (s t : State) : Prop where
  ran : Ran (Bs.flatMap (txnFrame s.cfg)) 0x00 s t
  clk : t.clk = true
  dio : t.dio = true
  delivered : WireGood s → WireGood t ∧ t.display = Bs.foldl (fun d B => d.ghostUpdate B) s.display

/-- Transactions end with both lines high, whatever the levels before the first (R55). -/
theorem txnFrames_levels (c : Config) {Bs : List (List Byte)} (h : Bs ≠ []) (clk dio : Bool) :
    levelsFrom clk dio (Bs.flatMap (txnFrame c)) = (true, true) := by
  cases Bs with
  | nil => exact absurd rfl h
  | cons B Bs => rw [List.flatMap_cons, levelsFrom_append, txnFrame_levels, txnFrames_idleHigh]

/-- A legal operation that transmits sends its transactions and responds 0x00. -/
theorem exec_transmits {i : Instr} {s : State} {Bs : List (List Byte)} (hi : i.isHost = true)
    (hl : i.legal s.cfg = true) (hB : transactions s.cfg i = Bs) (hne : Bs ≠ []) (hf : TimerFair s) :
    ∃ t, exec i s = .next t ∧ Transmitted Bs s t := by
  subst hB
  have hexec := exec_fair hi hf
  have hran := State.ran_play (response s.cfg i) (pacedBy_expand s.cfg i) hf
  rw [expand_of_transmits hl hne, response_of_transmits hne] at hexec hran
  have hlevels := State.play_levels ((transactions s.cfg i).flatMap (txnFrame s.cfg)) s
  rw [txnFrames_levels s.cfg hne] at hlevels
  obtain ⟨hclk, hdio⟩ := Prod.mk.inj hlevels
  refine ⟨_, hexec, hran, hclk, hdio, fun hg => ?_⟩
  obtain ⟨hgood, hdisplay⟩ := hg.play_txnFrames (transactions_ne_nil s.cfg i)
  exact ⟨hgood.complete _, hdisplay⟩

/-! ## The control byte (R90) -/

/-- Every level but 0 switches the display on, with the level less one, at most 7, in the brightness field. -/
theorem ctrl_of_ne_zero {level : Nat} (h : level ≠ 0) : ctrl level = BitVec.ofNat 8 (0x88 + (min level 8 - 1)) := by
  have encoded : ∀ k < 8, (0x88 : Byte) ||| BitVec.ofNat 8 k = BitVec.ofNat 8 (0x88 + k) := by decide
  have hclamp : clamp level 1 8 = min level 8 := by
    unfold clamp
    split
    · omega
    · split <;> omega
  rw [ctrl, levelIsOff, if_neg (by simpa using h), hclamp, encoded _ (by omega)]

theorem ctrl_eq_ite (level : Nat) :
    ctrl level = if level = 0 then 0x80 else if level ≤ 8 then BitVec.ofNat 8 (0x88 + (level - 1)) else 0x8F := by
  split
  · next h =>
    rw [h]
    rfl
  · next h =>
    rw [ctrl_of_ne_zero h]
    split
    · next hle => rw [Nat.min_eq_left hle]
    · next hgt =>
      rw [Nat.min_eq_right (by omega)]
      rfl

/-- The row of R44 for the control byte of a level. -/
theorem Display.ghostUpdate_ctrl (d : Display) (level : Nat) :
    d.ghostUpdate [ctrl level] =
      { d with
        don := some (decide (level ≠ 0)), dbr := some (BitVec.ofNat 3 (min level 8 - 1)), phase := .command } := by
  by_cases h : level = 0
  · subst h
    rfl
  · have hfield : (BitVec.ofNat 3 (min level 8 - 1)).toNat = min level 8 - 1 := by
      rw [BitVec.toNat_ofNat, Nat.mod_eq_of_lt (by omega)]
    have hbyte : (ctrl level).toNat = 0x88 + (BitVec.ofNat 3 (min level 8 - 1)).toNat := by
      rw [ctrl_of_ne_zero h, hfield, BitVec.toNat_ofNat, Nat.mod_eq_of_lt (by omega)]
    rw [Display.ghostUpdate_displayOn d _ _ hbyte, if_pos rfl, decide_eq_true h]

/-- Settles O29: the word is ENC_BRIGHTNESS' encoding, and completion is all that happens. -/
theorem encBrightnessResult : Obligations.EncBrightnessResult := by
  intro level s
  refine ⟨decodeOfEncode (.encBrightness level), rfl, ?_⟩
  rw [exec_of_expand_nil rfl rfl, response, ctrl_eq_ite]
  rfl

/-- Settles O30: one transaction of the control byte, whose row of R44 says what it does to the display. -/
theorem setBrightnessTransmits : Obligations.SetBrightnessTransmits := by
  intro level s hf
  obtain ⟨t, hexec, hsent⟩ := exec_transmits (i := .setBrightness level) (Bs := [[ctrl level.toNat]]) rfl rfl rfl
    (List.cons_ne_nil _ _) hf
  have hran := hsent.ran
  rw [List.flatMap_singleton, ctrl_eq_ite] at hran
  refine ⟨t, hexec, hran, hsent.clk, hsent.dio, fun hg => ?_⟩
  obtain ⟨hgood, hdisplay⟩ := hsent.delivered hg
  rw [List.foldl_cons, List.foldl_nil, Display.ghostUpdate_ctrl] at hdisplay
  unfold State.cell
  rw [hdisplay]
  exact ⟨hgood, fun _ => rfl, rfl, rfl, rfl⟩

/-! ## Stores (R92, R93) -/

/-- The address byte of a position, as a number (R92). -/
theorem addressOfPos_eq_ofNat (pos : Byte) : 0xC0 + pos = BitVec.ofNat 8 (0xC0 + pos.toNat) := by
  rw [BitVec.ofNat_add, BitVec.ofNat_toNat, BitVec.setWidth_eq]
  rfl

/-- The two transactions of SHOW_SEGMENT store one pattern in fixed mode. -/
theorem Display.ghostUpdate_segment (d : Display) (v : Byte) {pos : Byte} (h : pos.toNat ≤ 3) :
    (d.ghostUpdate [0x44]).ghostUpdate [0xC0 + pos, v] =
      { d with cells := Memory.write d.cells pos.toNat v, amode := some .fixed, phase := .command } := by
  have hpos : (pos.setWidth 2).toNat = pos.toNat := by
    rw [BitVec.toNat_setWidth, Nat.mod_eq_of_lt (by omega)]
  rw [Display.ghostUpdate_address _ _ (pos.setWidth 2) (by rw [addressOfPos_toNat h, hpos]), hpos]
  exact if_pos (.inl ⟨rfl, rfl⟩)

/-- The two transactions of SHOW_DIGITS store four patterns in auto-increment mode. -/
theorem Display.ghostUpdate_digits (d : Display) (s0 s1 s2 s3 : Byte) :
    (d.ghostUpdate [0x40]).ghostUpdate [0xC0, s0, s1, s2, s3] =
      { d with cells := Memory.writeRun d.cells 0 [s0, s1, s2, s3], amode := some .auto, phase := .command } := by
  rw [Display.ghostUpdate_address _ _ 0 rfl]
  exact if_pos (.inr ⟨rfl, by simp, Nat.le_refl 4⟩)

/-- A run of stores changes no cell outside it. -/
theorem Memory.read_writeRun_outside {m : List Host.Cell} {a b : Nat} {vs : List Byte}
    (h : b < a ∨ a + vs.length ≤ b) : Memory.read (Memory.writeRun m a vs) b = Memory.read m b := by
  induction vs generalizing m a with
  | nil => rfl
  | cons v vs ih =>
    rw [List.length_cons] at h
    rw [Memory.writeRun, ih (by omega), Memory.read_write_of_ne (by omega)]

/-- A run of stores leaves its `i`-th byte in the `i`-th cell from its start on. -/
theorem Memory.read_writeRun_inside {m : List Host.Cell} {a i : Nat} {v : Byte} {vs : List Byte}
    (h : vs[i]? = some v) : Memory.read (Memory.writeRun m a vs) (a + i) = some v := by
  induction vs generalizing m a i with
  | nil => cases h
  | cons w vs ih =>
    cases i with
    | zero =>
      cases h
      exact (Memory.read_writeRun_outside (.inl (Nat.lt_succ_self a))).trans (Memory.read_write_same ..)
    | succ k =>
      rw [Memory.writeRun, ← Nat.add_assoc, Nat.add_right_comm]
      exact ih h

/-- Settles O31: a position out of range has no transaction; one in range has the mode command and one store, with the
sizes of R83. -/
theorem showSegmentResult : Obligations.ShowSegmentResult := by
  intro segment pos s
  refine ⟨decodeOfEncode (.showSegment segment pos), fun hout => ?_, fun hf hin => ?_⟩
  · have hes : expand s.cfg (.showSegment segment pos) = [] := by
      rw [expand_eq_transactions_of_layer _ rfl, transactions, if_pos hout, List.flatMap_nil]
    exact exec_of_expand_nil rfl hes
  · intro es
    have hsize : eventCounts es = (89, 92, 273) :=
      eventCounts_append (eventCounts_txnFrame_of_length s.cfg (k := 1) rfl)
        (eventCounts_txnFrame_of_length s.cfg (k := 2) rfl)
    simp only [eventCounts, Prod.mk.injEq] at hsize
    obtain ⟨hpins, hquanta, hlength⟩ := hsize
    obtain ⟨t, hexec, hsent⟩ := exec_transmits (i := .showSegment segment pos) rfl rfl
      (if_neg (Nat.not_lt.mpr hin)) (List.cons_ne_nil _ _) hf
    have hran := hsent.ran
    rw [List.flatMap_cons, List.flatMap_singleton, addressOfPos_eq_ofNat] at hran
    refine ⟨hpins, hquanta, hlength, t, hexec, hran, hsent.clk, hsent.dio, fun hg => ?_⟩
    obtain ⟨hgood, hdisplay⟩ := hsent.delivered hg
    rw [List.foldl_cons, List.foldl_cons, List.foldl_nil, Display.ghostUpdate_segment _ _ hin] at hdisplay
    unfold State.cell
    rw [hdisplay]
    exact ⟨hgood, Memory.read_write_same .., fun a ha => Memory.read_write_of_ne ha, rfl, rfl, rfl⟩

/-- Settles O32: the mode command and one run of four stores. -/
theorem showDigitsStores : Obligations.ShowDigitsStores := by
  intro s0 s1 s2 s3 s hf
  obtain ⟨t, hexec, hsent⟩ := exec_transmits (i := .showDigits s0 s1 s2 s3)
    (Bs := [[0x40], [0xC0, s0, s1, s2, s3]]) rfl rfl rfl (List.cons_ne_nil _ _) hf
  have hran := hsent.ran
  rw [List.flatMap_cons, List.flatMap_singleton] at hran
  refine ⟨t, hexec, hran, hsent.clk, hsent.dio, fun hg => ?_⟩
  obtain ⟨hgood, hdisplay⟩ := hsent.delivered hg
  rw [List.foldl_cons, List.foldl_cons, List.foldl_nil, Display.ghostUpdate_digits] at hdisplay
  unfold State.cell
  rw [hdisplay]
  exact ⟨hgood, Memory.read_writeRun_inside (i := 0) rfl, Memory.read_writeRun_inside (i := 1) rfl,
    Memory.read_writeRun_inside (i := 2) rfl, Memory.read_writeRun_inside (i := 3) rfl,
    fun a ha => Memory.read_writeRun_outside (.inr ha), rfl, rfl, rfl⟩

end Sys2Proof.Machine
end

section
/-! PROOF. The presentation layer: the digits of a number and their patterns (R100 to R104), and what SHOW_NUMBER leaves
on the display (R46). -/
namespace Sys2Proof.Machine

/-! ## The digits of a number (R101) -/

/-- DIGITS_OF with its two operators written out (R104). -/
theorem digitsOf_eq (n : Int) :
    digitsOf n = { d3 := n.tmod 10, d2 := (n.tdiv 10).tmod 10, d1 := ((n.tdiv 10).tdiv 10).tmod 10,
                   d0 := (((n.tdiv 10).tdiv 10).tdiv 10).tmod 10 } := rfl

/-- On a non-negative number truncation is rounding down, so the results are its low four decimal digits. -/
theorem digitsOf_of_nonneg {n : Int} (h : 0 ≤ n) :
    digitsOf n = { d0 := n / 1000 % 10, d1 := n / 100 % 10, d2 := n / 10 % 10, d3 := n % 10 } := by
  have h1 : n.tdiv 10 = n / 10 := Int.tdiv_eq_ediv_of_nonneg h
  have h2 : (n / 10).tdiv 10 = n / 100 := by
    rw [Int.tdiv_eq_ediv_of_nonneg (by omega), Int.ediv_ediv_of_nonneg (by decide)]
    rfl
  have h3 : (n / 100).tdiv 10 = n / 1000 := by
    rw [Int.tdiv_eq_ediv_of_nonneg (by omega), Int.ediv_ediv_of_nonneg (by decide)]
    rfl
  rw [digitsOf_eq, h1, h2, h3, Int.tmod_eq_emod_of_nonneg h, Int.tmod_eq_emod_of_nonneg (by omega),
    Int.tmod_eq_emod_of_nonneg (by omega), Int.tmod_eq_emod_of_nonneg (by omega)]

/-- Truncation is symmetric about 0, so the digits of `-n` are the negated digits of `n` (R104). -/
theorem digitsOf_neg (n : Int) :
    digitsOf (-n) = { d0 := -(digitsOf n).d0, d1 := -(digitsOf n).d1, d2 := -(digitsOf n).d2,
                      d3 := -(digitsOf n).d3 } := by
  simp only [digitsOf_eq, Int.neg_tdiv, Int.neg_tmod]

/-- Each digit of a non-negative number is one of 0 to 9. -/
theorem digitsOf_mem_bounds {n : Int} (h : 0 ≤ n) :
    ∀ d ∈ [(digitsOf n).d0, (digitsOf n).d1, (digitsOf n).d2, (digitsOf n).d3], 0 ≤ d ∧ d ≤ 9 := by
  rw [digitsOf_of_nonneg h]
  simp only [List.forall_mem_cons]
  refine ⟨?_, ?_, ?_, ?_, nofun⟩ <;> omega

/-- Settles O35: the definition written out, and the low four decimal digits of a number that has no more than four. -/
theorem digitsOfNumber : Obligations.DigitsOfNumber := by
  intro n
  refine ⟨digitsOf_eq n, fun hlo hhi => ?_⟩
  have htop : n / 1000 % 10 = n / 1000 := by omega
  rw [digitsOf_of_nonneg hlo, htop]

/-! ## Patterns (R100) -/

/-- A shape is kept by its pattern, so only the blank shape has the blank pattern. -/
theorem shapePattern_ne_zero {g : DigitShape} (h : g ≠ 0) : shapePattern g ≠ 0 := by
  intro h0
  have hg : (shapePattern g).setWidth 7 = g := BitVec.setWidth_setWidth_of_le g (by decide)
  rw [h0] at hg
  exact h hg.symm

/-- No digit's pattern is blank (R100). -/
theorem segLut_ne_zero {c : Config} (h : c.openSegments.Wf) {n : Nat} (hn : n ≤ 9) : segLut c n ≠ 0 := by
  obtain ⟨h0, h5, h6, h7, h8, h9⟩ := h
  match n with
  | 0 => exact shapePattern_ne_zero h0
  | 1 | 2 | 3 | 4 =>
    simp only [segLut]
    decide
  | 5 => exact shapePattern_ne_zero h5
  | 6 => exact shapePattern_ne_zero h6
  | 7 => exact shapePattern_ne_zero h7
  | 8 => exact shapePattern_ne_zero h8
  | 9 => exact shapePattern_ne_zero h9
  | k + 10 => omega

theorem segLut_of_gt (c : Config) {n : Nat} (hn : 9 < n) : segLut c n = 0x00 := by
  unfold segLut
  split
  case h_11 => rfl
  all_goals exact absurd hn (by decide)

/-- On an unsigned digit the range test and the table's last line agree. -/
theorem seg_natCast (c : Config) (n : Nat) : seg c n = segLut c n := by
  unfold seg digitOutOfRange
  split
  · next h =>
    have hn : 9 < n := by
      simp only [Bool.or_eq_true, decide_eq_true_eq] at h
      omega
    exact (segLut_of_gt c hn).symm
  · rfl

/-- A digit not above 0 shows entry 0 if it is 0, and is blank otherwise (R103 (b)). -/
theorem seg_of_nonpos (c : Config) {d : Int} (h : d ≤ 0) :
    seg c d = if d = 0 then shapePattern c.openSegments.d0 else 0x00 := by
  split
  · next h0 =>
    subst h0
    rfl
  · next h0 =>
    have hneg : d < 0 := by omega
    simp [seg, digitOutOfRange, hneg]

/-- Settles O36: above the range the low four decimal digits are those of the remainder by 10000; below it each digit is
a negated one, so it is 0 or out of the table's range. -/
theorem digitsOutsideRange : Obligations.DigitsOutsideRange := by
  intro n
  refine ⟨fun hbig => ?_, fun hneg => ⟨?_, fun c d hd => ?_⟩⟩
  · have h3 : n % 10000 / 1000 % 10 = n / 1000 % 10 := by omega
    have h2 : n % 10000 / 100 % 10 = n / 100 % 10 := by omega
    have h1 : n % 10000 / 10 % 10 = n / 10 % 10 := by omega
    have h0 : n % 10000 % 10 = n % 10 := by omega
    rw [digitsOf_of_nonneg (by omega), digitsOf_of_nonneg (by omega), h3, h2, h1, h0]
  · rw [← digitsOf_neg, Int.neg_neg]
  · have hdigits := digitsOf_neg (-n)
    rw [Int.neg_neg] at hdigits
    have hmem : -d ∈ [(digitsOf (-n)).d0, (digitsOf (-n)).d1, (digitsOf (-n)).d2, (digitsOf (-n)).d3] := by
      rw [hdigits] at hd
      simp only [List.mem_cons, List.not_mem_nil, or_false] at hd ⊢
      omega
    obtain ⟨hlo, hhi⟩ := digitsOf_mem_bounds (by omega) _ hmem
    exact ⟨by omega, by omega, seg_of_nonpos c (by omega)⟩

/-- Settles O34: completion with the table's entry, whose lines are the clauses. -/
theorem getSegmentsResult : Obligations.GetSegmentsResult := by
  intro digit s
  refine ⟨segLut s.cfg digit.toNat, ?runs, rfl, segLut_decimalPoint s.cfg digit.toNat, ?_, ?_, ?_, ?_, ?_, ?_, ?_, ?_,
    ?_, ?_, segLut_of_gt s.cfg, ?blank⟩
  case runs =>
    rw [exec_of_expand_nil rfl rfl, response, seg_natCast]
    rfl
  case blank =>
    rintro ⟨-, -, -, hshapes⟩ hblank
    exact Nat.lt_of_not_le fun hn => segLut_ne_zero hshapes hn hblank
  all_goals
    rintro rfl
    rfl

/-! ## SHOW_NUMBER (R102) -/

/-- With R63's width the operand is the whole field. -/
theorem numberOf_eq_toInt {c : Config} (h : c.numWidth = 32) (n : Number) : numberOf c n = n.toInt := by
  rw [numberOf, h, BitVec.signExtend_eq]

/-- SHOW_NUMBER is SHOW_DIGITS of the patterns of its number's digits, for every operand and from every state (D10). -/
theorem exec_showNumber (n : Number) (s : State) :
    exec (.showNumber n) s =
      exec (.showDigits (seg s.cfg (digitsOf (numberOf s.cfg n)).d0) (seg s.cfg (digitsOf (numberOf s.cfg n)).d1)
        (seg s.cfg (digitsOf (numberOf s.cfg n)).d2) (seg s.cfg (digitsOf (numberOf s.cfg n)).d3)) s := by
  rw [exec_host rfl, exec_host rfl]
  rfl

/-- Settles O37: what O32 says of SHOW_DIGITS, at the patterns of the digits. -/
theorem showNumberStores : Obligations.ShowNumberStores := by
  intro n s hf v d p0 p1 p2 p3
  refine ⟨fun hw => numberOf_eq_toInt hw n, ?_⟩
  rw [exec_showNumber]
  exact showDigitsStores p0 p1 p2 p3 s hf

end Sys2Proof.Machine
end

section
/-! PROOF. No operation traps, stops early or reports an error (R110); reset overrides everything (R115, R131, R132); and
on a wire that cannot be trusted nothing becomes known (R112, R146). -/
namespace Sys2Proof.Machine

/-- Every meaning answers a next state: a host operation's run, or the display taking a wire byte. -/
theorem exec_total (i : Instr) (s : State) : ∃ t, exec i s = .next t := by
  cases hi : i.isHost with
  | true => exact ⟨_, exec_host hi s⟩
  | false => exact ⟨_, exec_wire hi s⟩

/-- Every step answers a next state: its turn is settled there, or it is some instruction's meaning. -/
theorem step_total (s : State) : ∃ t, step s = .next t := by
  unfold step
  cases s.turn with
  | done t => exact ⟨t, rfl⟩
  | run i t => exact exec_total i t

/-- Settles O13: steps and meanings are total, and under a fair timer a host operation runs its whole expansion. -/
theorem noException : Obligations.NoException := by
  refine ⟨step_total, fun i s => ⟨exec_total i s, fun hi hf => ?_⟩⟩
  have hran := State.ran_play (response s.cfg i) (pacedBy_expand s.cfg i) hf
  exact ⟨_, exec_fair hi hf, hran.busy, hran.trace, hran.rsp⟩

/-- A step under reset is the block's reset, whatever else the state holds (R115). -/
theorem step_of_reset {s : State} (hr : s.rst = true) : step s = .next s.resetBlock := by
  simp [step, State.turn, hr]

/-- Settles O15: the step is the block's reset, which gives each of the values (R131). -/
theorem resetOverrides : Obligations.ResetOverrides := fun s hr =>
  ⟨s.resetBlock, step_of_reset hr, rfl, rfl, rfl, rfl, rfl, .forget s.display, rfl, rfl⟩

/-- On a lost wire a byte leaves nothing known, whatever its effect on the display is. -/
theorem State.takeWire_of_lost {s : State} (hl : s.wireLost = true) (f : Display → Display) :
    AllUnknown (s.takeWire f).display :=
  State.setDisplay_keeps_unknown hl _

/-- Settles O42: the byte is taken by the display, and on a lost wire that leaves every element UNKNOWN. -/
theorem wireLostStaysUnknown : Obligations.WireLostStaysUnknown := fun _ s hi hl =>
  ⟨_, exec_wire hi s, State.takeWire_eq _ s, State.takeWire_of_lost hl _⟩

/-- Settles O56: an event makes nothing known on a lost wire, and no wire byte does; reset and a stopped timer leave the
display UNKNOWN; every other update leaves the display and the wire's trust as they are. -/
theorem stepKeepsUnknown : Obligations.StepKeepsUnknown := by
  intro s t h0 h
  refine step_induct h h0 ?reset ?wire ?accept ?issue ?expire ?stall ?complete ?idle
  case reset => exact fun u _ _ => .forget u.display
  case wire => exact fun u bs f _ _ hl => State.takeWire_of_lost (s := { u with wireIn := bs }) hl f
  case issue => exact fun u e hu => hu.issue e
  case stall => exact fun u _ _ => .forget u.display
  case accept => exact fun u w ws hu => hu
  case expire => exact fun u f hu => hu
  case complete => exact fun u r hu => hu
  case idle => exact fun u hu => hu

end Sys2Proof.Machine
end

section
/-! PROOF. An operation begun with a stopped timer is held at its first TW (R143, R147, U3; log entry 28). -/
namespace Sys2Proof.Machine

/-- An event other than TW is issued at once, whatever the timer does (R72). -/
theorem State.not_held_of_ne_tw {s : State} {e : Event} (h : e ≠ .tw) : s.held e = false :=
  Bool.eq_false_iff.mpr fun hh => h (State.held_iff.mp hh).1

/-- Up to its first TW an operation runs as under a fair timer, and what the timer will still do stays as it is. -/
theorem State.runOp_append_of_tw_notMem {es : List Event} (h : .tw ∉ es) (fs : List Event) (r : Byte) (s : State) :
    s.runOp (es ++ fs) r = (s.play es).runOp fs r ∧ (s.play es).tmrFuture = s.tmrFuture := by
  induction es generalizing s with
  | nil => exact ⟨rfl, rfl⟩
  | cons e es ih =>
    have hfree : s.held e = false := State.not_held_of_ne_tw (List.ne_of_not_mem_cons h).symm
    rw [List.cons_append, State.runOp_cons_of_free hfree, State.play_cons, State.playEvent_of_free hfree]
    obtain ⟨hrun, hfuture⟩ := ih (List.not_mem_of_not_mem_cons h) (s.issue e)
    exact ⟨hrun, hfuture.trans (State.issue_tmrFuture e s)⟩

/-- The first TW of a paced list that is not empty stands right after the start of its countdown. -/
theorem pacedBy_first_tw {q : Nat} {es : List Event} (hp : pacedBy q es = true) (hne : es ≠ []) :
    ∃ front d rest, es = front ++ [.ts d] ++ .tw :: rest ∧ .tw ∉ front ++ [Event.ts d] := by
  cases es using pacedBy.induct with
  | case1 => exact absurd rfl hne
  | case2 p d rest => exact ⟨[.pin p], d, rest, rfl, by simp⟩
  | case3 d rest => exact ⟨[], d, rest, rfl, by simp⟩
  | case4 es h1 h2 h3 => simp [pacedBy] at hp

/-- Settles O9: the events before the first TW are issued, the last of them starts a countdown that never elapses, and
at that TW the timer has no step. -/
theorem stoppedTimerUnknown : Obligations.StoppedTimerUnknown := by
  intro i s hi hne hb hstopped
  obtain ⟨front, d, rest, hes, hfree⟩ := pacedBy_first_tw (pacedBy_expand s.cfg i) hne
  obtain ⟨hrun, hfuture⟩ := State.runOp_append_of_tw_notMem hfree (.tw :: rest) (response s.cfg i) s
  have hlast : s.play (front ++ [.ts d]) = (s.play front).issue (.ts d) := by
    rw [State.play_append]
    exact State.playEvent_of_free rfl
  have hexpired : (s.play (front ++ [.ts d])).tmrExpired = false := by
    rw [hlast]
    exact (State.issue_ts d _).1
  have hstall := State.runOp_cons_of_stopped (es := rest) (r := response s.cfg i)
    (State.held_iff.mpr ⟨rfl, hexpired⟩) (State.timerStep_eq_none_iff.mpr (.inr (hfuture.trans hstopped)))
  refine ⟨_, _, rest, exec_host hi s, hes, hfree, ?_⟩
  rw [hes, hrun, hstall]
  refine ⟨State.play_trace _ s, State.play_upc _ s, (State.play_busy _ s).trans hb, ?_, hexpired, .forget _⟩
  rw [State.stall_rsp, hlast, State.issue_rsp]

end Sys2Proof.Machine
end

section
/-! PROOF. Host operations issued one by one (R142, R67), and a second START inside the bracket (R142, R45, R44; log
entry 16). -/
namespace Sys2Proof.Machine

/-- Completion is nothing to the wire (R81). -/
theorem SameWire.complete {s t : State} (h : SameWire s t) (r : Byte) : SameWire s (t.complete r) :=
  ⟨h.cfg, h.clk, h.dio, h.rx, h.wireLost, h.display, h.clkFault, h.dioFault, h.clkBroken, h.dioBroken⟩

/-- Under a fair timer host operations issued one by one leave in TRACE their expansions one after another, and do to
the wire what the pin events of these do. -/
theorem execAll_fair {is : List Instr} {s : State} (hi : is.all Instr.isHost = true) (hf : TimerFair s) :
    ∃ u, execAll is s = .next u ∧ u.trace = s.trace ++ is.flatMap (expand s.cfg)
      ∧ SameWire (s.driveAll (pinsOf (is.flatMap (expand s.cfg)))) u := by
  induction is generalizing s with
  | nil => exact ⟨s, rfl, (List.append_nil _).symm, .refl s⟩
  | cons i is ih =>
    rw [List.all_cons, Bool.and_eq_true] at hi
    obtain ⟨hhost, his⟩ := hi
    have hexec := exec_fair hhost hf
    have hran := State.ran_play (response s.cfg i) (pacedBy_expand s.cfg i) hf
    have hwire : SameWire (s.driveAll (pinsOf (expand s.cfg i)))
        ((s.play (expand s.cfg i)).complete (response s.cfg i)) :=
      (State.play_wire _ s).complete _
    generalize (s.play (expand s.cfg i)).complete (response s.cfg i) = t at hexec hran hwire
    obtain ⟨u, hu, htrace, hrest⟩ := ih his (hran.frame.tmrFuture.trans hf)
    rw [hran.frame.cfg] at htrace hrest
    refine ⟨u, by simpa only [execAll, hexec] using hu, ?_, ?_⟩
    · rw [htrace, hran.trace, List.flatMap_cons, List.append_assoc]
    · rw [List.flatMap_cons, pinsOf_append, State.driveAll_append]
      exact (hwire.driveAll _).trans hrest

/-- The events of START, one WRITE_BYTE per byte and STOP, issued one by one, are those of one transaction (R77). -/
theorem expand_handBuilt {c : Config} (he : c.transportOpsEnable = true) (bs : List Byte) :
    (Instr.start :: bs.map Instr.writeByte ++ [Instr.stop]).flatMap (expand c) = txnFrame c bs := by
  simp [txnFrame, expand, enabledEvents, he, List.flatMap_map]

/-- Settles O28: both issue one transaction's events, and these alone decide what the wire and the display are after. -/
theorem writeIsHandBuilt : Obligations.WriteIsHandBuilt := by
  intro i bs s hi hf he
  obtain ⟨ht, hes⟩ := isTransport_and_expand_of_writtenBytes (c := s.cfg) hi
  obtain ⟨hexec, hran, hwire⟩ := exec_enabled ht hes hf he
  obtain ⟨u, hexecAll, htrace, hwireAll⟩ := execAll_fair (is := .start :: bs.map .writeByte ++ [.stop])
    (by simp [Instr.isHost]) hf
  rw [expand_handBuilt he] at htrace hwireAll
  have hsame := hwireAll.symm.trans hwire
  exact ⟨_, u, hexec, hexecAll, hran.trace.trans htrace.symm, hsame.clk, hsame.dio, hsame.rx, hsame.wireLost,
    hsame.display⟩

/-! ## A second START -/

/-- The pin events of START, the bytes `bs`, a second START, the bytes `bs'` and STOP. -/
def secondStartPins (c : Config) (bs bs' : List Byte) : List Pin :=
  .d0 :: ((bs.flatMap fun b => pinsOf (byteFrame c b))
    ++ .d0 :: ((bs'.flatMap fun b => pinsOf (byteFrame c b)) ++ [.d0, .c1, .d1]))

/-- What stands between the first START's request and STOP's last one. -/
def secondStartInterior (c : Config) (bs bs' : List Byte) : List Pin :=
  (bs.flatMap fun b => pinsOf (byteFrame c b))
    ++ .d0 :: ((bs'.flatMap fun b => pinsOf (byteFrame c b)) ++ [.d0, .c1])

theorem secondStartPins_bracket (c : Config) (bs bs' : List Byte) :
    secondStartPins c bs bs' = .d0 :: (secondStartInterior c bs bs' ++ [.d1]) := by
  simp [secondStartPins, secondStartInterior]

/-- After a START and any bytes the clock is low, or DIO is low already, so a second START's request is no start
condition (R45). -/
theorem byteFrames_levels_d0_edge (c : Config) (bs : List Byte) :
    ∃ clk dio, pinLevels true false (bs.flatMap fun b => pinsOf (byteFrame c b)) = (clk, dio)
      ∧ Pin.d0.edge clk dio = .other := by
  by_cases h : bs = []
  · subst h
    exact ⟨true, false, rfl, rfl⟩
  · obtain ⟨v, hv⟩ := byteFrames_levels_of_ne_nil c h true false
    exact ⟨false, v, hv, rfl⟩

/-- The second START adds no sample and no change of DIO under a high clock, so R45 reads the bytes of both parts. -/
theorem decodeTxn_secondStart (c : Config) (bs : List Byte) {bs' : List Byte} (h : bs' ≠ []) :
    decodeTxn c (secondStartPins c bs bs') = some (bs ++ bs') := by
  obtain ⟨clk, dio, hlevels, hedge⟩ := byteFrames_levels_d0_edge c bs
  obtain ⟨v, hv⟩ := byteFrames_levels_of_ne_nil c h clk false
  have hedges : dataEdgesFrom true true (secondStartPins c bs bs') = 2 := by
    simp only [secondStartPins, dataEdgesFrom, dataEdgesFrom_append, byteFrames_dataEdges, Pin.clkAfter, Pin.dioAfter,
      hlevels, hedge, hv]
    rfl
  have hsamples : samplesFrom true true (secondStartPins c bs bs')
      = ((bs ++ bs').flatMap fun b => bitsOf c.bitOrder b ++ [cellBit c.bitOrder b 7]) ++ [false] := by
    simp only [secondStartPins, samplesFrom, samplesFrom_append, byteFrames_samples, Pin.clkAfter, Pin.dioAfter,
      hlevels, hedge, hv, List.flatMap_append, List.append_assoc]
    rfl
  rw [decodeTxn, if_pos hedges, hsamples, List.dropLast_concat, bytesOfSamples_bits]

/-- At the latest the clock request after the second START shows that the bracket is broken (R142). -/
theorem keepsBracket_secondStart_eq_false (c : Config) (bs : List Byte) {bs' : List Byte} (h : bs' ≠ []) :
    keepsBracket [] (secondStartPins c bs bs') = false := by
  obtain ⟨b, rest, rfl⟩ := List.exists_cons_of_ne_nil h
  obtain ⟨q, acc, hacc⟩ : ∃ q acc, (bs.flatMap fun b => pinsOf (byteFrame c b)).reverse ++ [.d0] = q :: acc :=
    List.exists_cons_of_ne_nil (by simp)
  have hclock : breaksBracket (.d0 :: q :: acc) .c0 = true := rfl
  rw [secondStartPins, keepsBracket, keepsBracket_append, hacc, keepsBracket, List.flatMap_cons, List.append_assoc,
    keepsBracket_append, byteFrame_keepsBracket_eq, hclock]
  simp

/-- No stop condition comes before STOP's last request, which finds the clock high and DIO low. -/
theorem secondStart_interior_levels (c : Config) (bs : List Byte) {bs' : List Byte} (h : bs' ≠ []) :
    stopFree true false (secondStartInterior c bs bs') = true
      ∧ pinLevels true false (secondStartInterior c bs bs') = (true, false) := by
  obtain ⟨clk, dio, hlevels, hedge⟩ := byteFrames_levels_d0_edge c bs
  obtain ⟨v, hv⟩ := byteFrames_levels_of_ne_nil c h clk false
  constructor
  · simp only [secondStartInterior, stopFree, stopFree_append, byteFrames_stopFree, Pin.clkAfter, Pin.dioAfter,
      hlevels, hedge, hv]
    rfl
  · simp only [secondStartInterior, pinLevels, pinLevels_append, Pin.clkAfter, Pin.dioAfter, hlevels]

/-- A transaction with a second START in it, on a good wire: all is UNKNOWN (R142), then the bytes of both parts have
R44's effect, and the wire is good again. -/
theorem WireGood.driveAll_secondStart {s : State} (hg : WireGood s) (bs : List Byte) {bs' : List Byte}
    (h : bs' ≠ []) :
    WireGood (s.driveAll (secondStartPins s.cfg bs bs'))
      ∧ (s.driveAll (secondStartPins s.cfg bs bs')).display = s.display.forget.ghostUpdate (bs ++ bs') := by
  obtain ⟨hstop, hlevels⟩ := secondStart_interior_levels s.cfg bs h
  have hw := State.driveAll_bracket hg.clk hg.dio hg.rx hg.pins hstop hlevels
  rw [← secondStartPins_bracket, keepsBracket_secondStart_eq_false s.cfg bs h, decodeTxn_secondStart s.cfg bs h,
    if_neg Bool.false_ne_true, bytewiseIsTable] at hw
  refine ⟨(hg.setDisplay _).of_sameWire hw, ?_⟩
  rw [hw.display, State.setDisplay_display, hg.trusted, if_neg Bool.false_ne_true]

/-- The operations of a transaction with a second START in it, issued one by one. -/
def secondStartOps (bs bs' : List Byte) : List Instr :=
  .start :: (bs.map .writeByte ++ .start :: (bs'.map .writeByte ++ [.stop]))

theorem pinsOf_expand_secondStartOps {c : Config} (he : c.transportOpsEnable = true) (bs bs' : List Byte) :
    pinsOf ((secondStartOps bs bs').flatMap (expand c)) = secondStartPins c bs bs' := by
  simp [secondStartOps, secondStartPins, expand, enabledEvents, he, List.flatMap_map, pinsOf_append, pinsOf_flatMap,
    pinsOf_startSeq, pinsOf_stopSeq]

/-- R142 and R44 for a second START after any number of bytes, with at least one byte to follow. -/
theorem execAll_secondStartOps {s : State} (hf : TimerFair s) (he : s.cfg.transportOpsEnable = true) (hg : WireGood s)
    (bs : List Byte) {bs' : List Byte} (h : bs' ≠ []) :
    ∃ t, execAll (secondStartOps bs bs') s = .next t ∧ t.display = s.display.forget.ghostUpdate (bs ++ bs')
      ∧ WireGood t := by
  obtain ⟨t, hexec, -, hwire⟩ := execAll_fair (is := secondStartOps bs bs')
    (by simp [secondStartOps, Instr.isHost]) hf
  rw [pinsOf_expand_secondStartOps he] at hwire
  obtain ⟨hgood, hdisplay⟩ := hg.driveAll_secondStart bs h
  exact ⟨t, hexec, hwire.display.trans hdisplay, hgood.of_sameWire hwire⟩

/-- Settles O26: the second START before the first byte, and after one byte. -/
theorem secondStartUnknown : Obligations.SecondStartUnknown := by
  intro b b' s hf he hg
  obtain ⟨t, ht, htd, htg⟩ := execAll_secondStartOps hf he hg [] (List.cons_ne_nil b [])
  obtain ⟨u, hu, hud, hug⟩ := execAll_secondStartOps hf he hg [b] (List.cons_ne_nil b' [])
  exact ⟨t, u, ht, hu, htd, hud, htg, hug⟩

end Sys2Proof.Machine
end
